-- ==== Sys2Proof/Word.lean ====
section
/-! DEFINITION. The bit widths of the block: the spec's plain unsigned words (R5, R6, R12, R14, R15, R61). -/

namespace Sys2Proof

/-- A 32-bit register or bus word (R12). Bit 0 is the least significant bit (R14). -/
abbrev Word := BitVec 32

/-- A symbol: `SYM_BITS = 8` (R5). -/
abbrev Byte := BitVec 8

/-- A 64-bit storage word of the packed buffer, also a code word's bit pattern (R6, R46, R47). -/
abbrev Dword := BitVec 64

/-- A host byte address, relative to the block's base (R61). -/
abbrev Addr := BitVec 20

/-- A node index as a NODE element or ROOT holds it: 9 bits (R10, R39, R45). -/
abbrev NodeIx := BitVec 9

end Sys2Proof
end

