-- ==== Sys2Proof/Config.lean ====
section
/-! DEFINITION. What one implementation fixes (its parameters and its identification constants), and the free values:
what the spec leaves open and nothing in Lean can evaluate. -/

namespace Sys2Proof

/-- The named parameters of one block: the capacities `N_MAX` of SYM_MEM and OUT_MEM (R8) and `W_MAX` of PBUF (R9).
DESIGN CHOICE (log 1): they are carried in `State`, where no step changes them, so that a statement about every state
is a statement about every legal capacity. -/
structure Params where
  /-- `N_MAX`, in symbols (R8). -/
  nMax : Nat
  /-- `W_MAX`, in 64-bit words (R9). -/
  wMax : Nat
  deriving DecidableEq, Repr

/-- The legal parameters: `N_MAX` in 1..16384, `W_MAX` in 1..32768, `W_MAX ≥ N_MAX` (R8, R9). -/
def Params.legal (p : Params) : Bool :=
  decide (1 ≤ p.nMax) && decide (p.nMax ≤ 16384) &&
  decide (1 ≤ p.wMax) && decide (p.wMax ≤ 32768) && decide (p.nMax ≤ p.wMax)

/-- The default capacities: 4096 symbols and 4096 words (R8, R9). -/
def Params.default : Params := { nMax := 4096, wMax := 4096 }

namespace Config

/-- `K_MAX`, the alphabet size (R5). -/
def kMax : Nat := 256

/-- `MAX_CODE_LEN`, the longest code word in bits (R7). -/
def maxCodeLen : Nat := 64

/-- `NODE_MAX = 2*K_MAX - 1`, the capacity of the node arena (R10). -/
def nodeMax : Nat := 2 * kMax - 1

/-- The constant of register ID (R23). -/
def id : Word := 0x48554646#32

/-- The constant of register VERSION (R24). -/
def version : Word := 0x00000001#32

/-- The constant of register PARAM: SYM_BITS, MAX_CODE_LEN, WORD_BITS (R25). -/
def param : Word := 0x00404008#32

/-- FREE VALUE (log 2): the content of SYM_MEM element `i` that the reset number `r` drew, until it is written
(R58: an arbitrary 8-bit value, drawn once at reset and stable until written). -/
opaque freeSym (r i : Nat) : Byte

/-- FREE VALUE (log 2): the content of 32-bit half `k` of PBUF (half `k` of the buffer is the low or high half of word
`k / 2`) that the reset number `r` drew, until it is written (R58). -/
opaque freePbuf (r k : Nat) : Word

/-- FREE VALUE (log 3): the content of OUT_MEM element `i` after reset number `r`, until DECODE writes it
(R58: unspecified content, not observable while `OUT_LEN = 0`). -/
opaque freeOut (r i : Nat) : Byte

/-- FREE VALUE (log 3): the 59 bits of NODE element `i` after reset number `r`, until BUILD writes it
(R58: unspecified content, not observable while `NODE_COUNT = 0`). -/
opaque freeNode (r i : Nat) : BitVec 59

/-- FREE VALUE (log 4, 19): what the `n`-th host read that draws one takes for the bits the spec leaves open: a read made
while BUSY = 1 (R73 item 5, R194: any value, a fresh draw per read), or a read of the last word of PBUF (93 item 1). -/
opaque freeRead (n : Nat) : Word

end Config

end Sys2Proof
end

