-- ==== Sys2Proof/Syntax.lean ====
section
/-! DEFINITION. The command set: one constructor per row of spec/opcode_table.json (R82). -/

namespace Sys2Proof

/-- The ten commands of the block (R82). A command plays the role of an instruction; only APPEND carries an operand in
its word, the immediate LEN (R81). -/
inductive Instr where
  /-- NOP, opcode 0x00 (R160). -/
  | nop
  /-- CLEAR, opcode 0x01 (R161). -/
  | clear
  /-- COUNT, opcode 0x02 (R100). -/
  | count
  /-- BUILD, opcode 0x03 (R115). -/
  | build
  /-- GENCODE, opcode 0x04 (R130). -/
  | gencode
  /-- PACK, opcode 0x05 (R144). -/
  | pack
  /-- ENCODE, opcode 0x06 (R145). -/
  | encode
  /-- DECODE, opcode 0x07 (R150). -/
  | decode
  /-- APPEND, opcode 0x08, with the 7-bit field LEN (R80, R142). -/
  | append (len : BitVec 7)
  /-- PBCLR, opcode 0x09 (R143). -/
  | pbclr
  deriving DecidableEq, Repr

end Sys2Proof
end

