-- ==== Sys2Proof/WellFormed.lean ====
section
/-! DEFINITION. Which terms of `Instr` stand for a legal command (R83 item 3). -/

namespace Sys2Proof

/-- A command is well formed when its LEN is legal: an APPEND takes 0 to 64 bits, and no other command has a LEN
(R80, R83). -/
def Instr.wf : Instr → Bool
  | .nop => true
  | .clear => true
  | .count => true
  | .build => true
  | .gencode => true
  | .pack => true
  | .encode => true
  | .decode => true
  | .append len => decide (len.toNat ≤ Config.maxCodeLen)
  | .pbclr => true

end Sys2Proof
end

