-- ==== Sys2Proof/Decode.lean ====
section
/-! DEFINITION. The command decoder, total on every 32-bit word and rejecting by name, and after it the encoder
(R80 to R85). -/

namespace Sys2Proof

/-- Why a command word is illegal (R83, R84). Each becomes ILLEGAL_CMD when the word is performed. -/
inductive Illegal where
  /-- The RSVD field, bits [31:15], is not 0 (R83 item 1). -/
  | reservedNotZero
  /-- The OPCODE field, bits [7:0], is not in 0x00..0x09 (R83 item 2). -/
  | unknownOpcode
  /-- LEN is not 0 on a command other than APPEND (R83 item 3). -/
  | lenNotZero
  /-- An APPEND with LEN 65..127 (R83 item 3). -/
  | lenTooLong
  deriving DecidableEq, Repr

/-- OPCODE, bits [7:0] of a command word (R80). -/
def opcodeField (c : Word) : BitVec 8 := c.extractLsb' 0 8

/-- LEN, bits [14:8] of a command word (R80). -/
def lenField (c : Word) : BitVec 7 := c.extractLsb' 8 7

/-- RSVD, bits [31:15] of a command word (R80). -/
def rsvdField (c : Word) : BitVec 17 := c.extractLsb' 15 17

/-- `legal(c)`, the spec's own predicate on command words (R83). -/
def legal (c : Word) : Bool :=
  decide (rsvdField c = 0) && decide ((opcodeField c).toNat ≤ 0x09) &&
  (if opcodeField c = 0x08#8 then decide ((lenField c).toNat ≤ 64) else decide (lenField c = 0))

/-- The command an opcode without operand selects; APPEND, the one opcode with an operand, takes `len` (R82, R85). -/
def commandOf (op : BitVec 8) (len : BitVec 7) : Option Instr :=
  if op = 0x00#8 then some .nop
  else if op = 0x01#8 then some .clear
  else if op = 0x02#8 then some .count
  else if op = 0x03#8 then some .build
  else if op = 0x04#8 then some .gencode
  else if op = 0x05#8 then some .pack
  else if op = 0x06#8 then some .encode
  else if op = 0x07#8 then some .decode
  else if op = 0x08#8 then some (.append len)
  else if op = 0x09#8 then some .pbclr
  else none

/-- The decoder: the command a word stands for, or why it is illegal (R82 to R85). -/
def decode (c : Word) : Except Illegal Instr :=
  if rsvdField c ≠ 0 then .error .reservedNotZero
  else
    match commandOf (opcodeField c) (lenField c) with
    | none => .error .unknownOpcode
    | some (.append len) => if 64 < len.toNat then .error .lenTooLong else .ok (.append len)
    | some i => if lenField c ≠ 0 then .error .lenNotZero else .ok i

/-- The decoder's answer on a word of `nbits` bits numbered as spec/opcode_table.json numbers them, the bits above
`nbits` zero. -/
def decodeTableWord (nbits w : Nat) : Option Instr :=
  match decode (BitVec.ofNat 32 (w % 2 ^ nbits)) with
  | .ok i => some i
  | .error _ => none

/-- The opcode of a command (R82). -/
def opcodeOf : Instr → BitVec 8
  | .nop => 0x00#8
  | .clear => 0x01#8
  | .count => 0x02#8
  | .build => 0x03#8
  | .gencode => 0x04#8
  | .pack => 0x05#8
  | .encode => 0x06#8
  | .decode => 0x07#8
  | .append _ => 0x08#8
  | .pbclr => 0x09#8

/-- The LEN field of a command: APPEND's operand, 0 for every other command (R80). -/
def lenOf : Instr → BitVec 7
  | .nop => 0
  | .clear => 0
  | .count => 0
  | .build => 0
  | .gencode => 0
  | .pack => 0
  | .encode => 0
  | .decode => 0
  | .append len => len
  | .pbclr => 0

/-- The encoder: RSVD 0, LEN, OPCODE from bit 31 down (R80). -/
def encode (i : Instr) : Word := 0#17 ++ lenOf i ++ opcodeOf i

end Sys2Proof
end

