-- ==== Sys2Proof/Machine/State.lean ====
section
/-! DEFINITION. The whole state of the block (R20 to R58), the model's own bookkeeping beside it, and the state after
reset (R58). -/

namespace Sys2Proof.Machine

/-- Sparse data by index: what has been written, in ascending order of index, each index at most once. The operations
are in Machine/Store.lean. -/
abbrev Store (α : Type) := List (Nat × α)

/-- The error codes of R171. The reserved codes 0x0B..0xFF are never reported, so they have no constructor. -/
inductive ErrCode where
  /-- 0x00: success. -/
  | ok
  /-- 0x01: the command word is not legal. -/
  | illegalCmd
  /-- 0x02: no symbol to build a tree from (BUILD, ENCODE). -/
  | invalidInput
  /-- 0x03: a symbol of SYM_MEM has no code word (PACK). -/
  | lookupFailure
  /-- 0x04: a candidate that no code word completes (DECODE). -/
  | corruptBuffer
  /-- 0x05: TABLE_VALID = 0 (DECODE, PACK). -/
  | noTable
  /-- 0x06: FREQ_VALID = 0 (BUILD). -/
  | noFreq
  /-- 0x07: TREE_VALID = 0 (GENCODE). -/
  | noTree
  /-- 0x08: the append would pass `64*W_MAX` bits (APPEND, PACK). -/
  | pbufOverflow
  /-- 0x09: the output would pass `N_MAX` symbols (DECODE). -/
  | outOverflow
  /-- 0x0A: a leaf deeper than 64 (GENCODE, ENCODE). -/
  | codeTooLong
  deriving DecidableEq, Repr

/-- One element of the NODE arena (R45). -/
structure Node where
  /-- INTERNAL: 0 for a leaf, 1 for an internal node. -/
  internal : Bool
  /-- SYM: a leaf's symbol, 0 for an internal node. -/
  sym : Byte
  /-- WEIGHT: a leaf's count, or the sum of the children's weights. -/
  weight : Word
  /-- LEFT: the left child's index, 0 for a leaf. -/
  left : NodeIx
  /-- RIGHT: the right child's index, 0 for a leaf. -/
  right : NodeIx
  deriving DecidableEq, Repr

/-- A code word: LEN (7 bits) and VALUE (64 bits) of a CODE element whose VALID is 1 (R46). -/
structure CodeWord where
  /-- LEN, the bit length, 1 to 64. -/
  len : BitVec 7
  /-- VALUE, the bit pattern: the edge at depth `k` is bit `k` (R131). -/
  value : Dword
  deriving DecidableEq, Repr

/-- A 32-bit half of a PBUF element (R47, R64), and which of its bits an append has written: a host read of the last word
shows a bit at or above TOTAL_BITS only if R140 or R141 wrote it (93 item 1, log 19). -/
structure PbufHalf where
  /-- The content of the half. -/
  bits : Word
  /-- The model's own: the bits whose content an append wrote (R140) or zeroed (R141), rather than the host. -/
  appended : Word
  deriving DecidableEq, Repr

/-- An entry of GENCODE's traversal stack: (node, code value, code length) (R55). -/
structure Frame where
  /-- The node to visit. -/
  node : Nat
  /-- The code value so far. -/
  value : Dword
  /-- The code length so far. -/
  len : Nat
  deriving DecidableEq, Repr

/-- DECODE's candidate code word (CV, CL) (R56). -/
structure Candidate where
  /-- CV, the bits read since the candidate started. -/
  value : Dword
  /-- CL, how many they are, 0 to 64. -/
  len : Nat
  deriving DecidableEq, Repr

/-- What happens next at the block's boundary. The HOST's two transactions (R60), the reset input (R190), and the
scheduler's choice that the ENGINE takes its step now (R88, R197: after any number of host steps). -/
inductive Event where
  /-- `MemRead(addr, 4)`. -/
  | read (a : Addr)
  /-- `MemWrite(addr, 4, v)`. -/
  | write (a : Addr) (v : Word)
  /-- The reset input is applied. -/
  | reset
  /-- The ENGINE step happens, if it is enabled. -/
  | engine
  deriving DecidableEq, Repr

/-- Why the machine stops with a fault: never. The spec says that the block has no fault and no stuck outcome
(93_implementation_defined.md; R88, R89, R170), so this type has no constructor. Safe: nothing can raise it. -/
inductive Fault where
  deriving DecidableEq, Repr

/-- Why the model has no meaning for a command. -/
inductive Refusal where
  /-- Raised by an arm of `exec` whose command has no meaning yet. Safe: nothing can be proved of what the command
  does. No arm raises it now. -/
  | notModelled (mnemonic : String)
  deriving DecidableEq, Repr

/-- The state of the block (R20), then the model's own fields. STATUS.BUSY, STATUS.ERR, WORD_COUNT, NUM_SYMS and `irq`
have no storage of their own: they are views (Machine/Flags.lean, Machine/Operands.lean). ID, VERSION and PARAM are
constants (Config), and CMD holds nothing (R29). -/
structure State where
  /-- The block's parameters, read in registers N_MAX and W_MAX (R26, R27). No step changes them. -/
  params : Params
  /-- CTRL.IRQ_EN (R28). -/
  irqEn : Bool
  /-- STATUS.DONE (R30). -/
  done : Bool
  /-- STATUS.FREQ_VALID (R30). -/
  freqValid : Bool
  /-- STATUS.TREE_VALID (R30). -/
  treeValid : Bool
  /-- STATUS.TABLE_VALID (R30). -/
  tableValid : Bool
  /-- STATUS.OVERRUN (R30). -/
  overrun : Bool
  /-- ERR_CODE (R31). -/
  errCode : ErrCode
  /-- ERR_INFO (R32). -/
  errInfo : Word
  /-- IN_LEN (R33). -/
  inLen : Word
  /-- OUT_LEN (R34). -/
  outLen : Word
  /-- TOTAL_BITS (R35). -/
  totalBits : Word
  /-- NODE_COUNT (R38). -/
  nodeCount : Word
  /-- ROOT (R39). -/
  root : NodeIx
  /-- APP_LO (R40). -/
  appLo : Word
  /-- APP_HI (R41). -/
  appHi : Word
  /-- SYM_MEM: the elements written since reset (R43). -/
  symMem : List Host.Cell
  /-- FREQ: the elements whose count is not 0, the Frequency Map itself (R44). -/
  freq : Store Word
  /-- NODE: the elements written since reset (R45). -/
  node : Store Node
  /-- CODE: the elements whose VALID is 1, the Code Table itself (R46). -/
  code : Store CodeWord
  /-- PBUF: the 32-bit halves written since reset, half `2*w` the low and `2*w + 1` the high half of word `w`
  (R47, R64). -/
  pbuf : Store PbufHalf
  /-- OUT_MEM: the elements written since reset (R48). -/
  outMem : List Host.Cell
  /-- PENDING: the command word accepted and not yet completed (R53). -/
  pending : Option Word
  /-- LQ, BUILD's sorted-leaf queue, front first, as the last BUILD left it (R54). -/
  lq : List Nat
  /-- IQ, BUILD's queue of merged internal nodes, front first, as the last BUILD left it (R54). -/
  iq : List Nat
  /-- GENCODE's traversal stack, top first, as the last GENCODE left it (R55). -/
  stack : List Frame
  /-- DECODE's candidate, as the last DECODE left it (R56). -/
  cand : Candidate
  /-- The model's own: what happens next at the block's boundary, first event first. -/
  inputs : List Event
  /-- The model's own: the values host reads have returned, the latest first. -/
  replies : List Word
  /-- The model's own: how many resets have been applied, the index of this reset's free values. -/
  resets : Nat
  /-- The model's own: how many free values host reads have drawn (log 4, 19), the index of the next. -/
  draws : Nat
  deriving DecidableEq, Repr

/-- The state after reset (R58), with the default capacities. SYM_MEM, PBUF, NODE and OUT_MEM list nothing: their
content is unspecified, and reading an unlisted element draws a free value (log 2, 3). -/
def State.reset : State where
  params := Params.default
  irqEn := false
  done := false
  freqValid := false
  treeValid := false
  tableValid := false
  overrun := false
  errCode := .ok
  errInfo := 0
  inLen := 0
  outLen := 0
  totalBits := 0
  nodeCount := 0
  root := 0
  appLo := 0
  appHi := 0
  symMem := []
  freq := []
  node := []
  code := []
  pbuf := []
  outMem := []
  pending := none
  lq := []
  iq := []
  stack := []
  cand := { value := 0, len := 0 }
  inputs := []
  replies := []
  resets := 0
  draws := 0

end Sys2Proof.Machine
end

