-- ==== Sys2Proof/Machine/Store.lean ====
section
/-! DEFINITION. Sparse stores: the one form in which every array of the block is held, and its three operations. -/

namespace Sys2Proof.Machine

/-- The element at index `k`, if it is listed. -/
def Store.find {α : Type} : Store α → Nat → Option α
  | [], _ => none
  | (i, v) :: rest, k => if k = i then some v else Store.find rest k

/-- Writes `v` at index `k`, keeping the indices in ascending order. -/
def Store.put {α : Type} (k : Nat) (v : α) : Store α → Store α
  | [] => [(k, v)]
  | (i, w) :: rest =>
    if k < i then (k, v) :: (i, w) :: rest
    else if k = i then (k, v) :: rest
    else (i, w) :: Store.put k v rest

/-- Removes index `k`. -/
def Store.del {α : Type} (k : Nat) (m : Store α) : Store α :=
  m.filter (fun e => decide (e.1 ≠ k))

/-- The canonical form of a store: indices strictly rising. -/
def Store.rising {α : Type} : Store α → Bool
  | [] => true
  | [_] => true
  | (i, _) :: (j, w) :: rest => decide (i < j) && Store.rising ((j, w) :: rest)

/-- Every listed index is below `n`. -/
def Store.within {α : Type} (n : Nat) (m : Store α) : Bool :=
  m.all (fun e => decide (e.1 < n))

/-- Writes a count: the canonical form of a store whose unlisted elements are 0 lists no 0. -/
def Store.putCount (k : Nat) (c : Word) (m : Store Word) : Store Word :=
  if c = 0 then Store.del k m else Store.put k c m

/-- No listed element is 0. -/
def Store.noZero (m : Store Word) : Bool :=
  m.all (fun e => decide (e.2 ≠ 0))

end Sys2Proof.Machine
end

