-- ==== Sys2Proof/Machine/Operands.lean ====
section
/-! DEFINITION. Every operand a command reads (R81) and the element accessors the commands and the host windows share
(R43 to R48, R72). -/

namespace Sys2Proof.Machine

/-- Element `i` of SYM_MEM; an element not written since reset holds the free value drawn at reset (R43, R58). -/
def State.symAt (s : State) (i : Nat) : Byte :=
  (Store.find s.symMem i).getD (Config.freeSym s.resets i)

/-- Element `x` of the Frequency Map `m`: 0 when the symbol is not present (R44). -/
def countAt (m : Store Word) (x : Nat) : Word :=
  (Store.find m x).getD 0

/-- FREQ[x] (R44). -/
def State.freqAt (s : State) (x : Nat) : Word := countAt s.freq x

/-- The fields of a node in a 59-bit word: RIGHT, LEFT, WEIGHT, SYM, INTERNAL from bit 58 down. It only gives the free
content of an element no BUILD has written its form (log 3). -/
def nodeOfBits (b : BitVec 59) : Node where
  internal := b.getLsbD 0
  sym := b.extractLsb' 1 8
  weight := b.extractLsb' 9 32
  left := b.extractLsb' 41 9
  right := b.extractLsb' 50 9

/-- Element `i` of an arena `m`, the unlisted elements drawn by reset number `r` (R45, R58). -/
def arenaAt (r : Nat) (m : Store Node) (i : Nat) : Node :=
  (Store.find m i).getD (nodeOfBits (Config.freeNode r i))

/-- NODE[i] (R45). -/
def State.nodeAt (s : State) (i : Nat) : Node := arenaAt s.resets s.node i

/-- CODE[x]: the symbol's code word, or none when VALID is 0 (R46). -/
def State.codeAt (s : State) (x : Nat) : Option CodeWord := Store.find s.code x

/-- Half `k` of PBUF: bits 31..0 (`k` even) or 63..32 (`k` odd) of word `k / 2`; a half not written since reset holds
the free value drawn at reset (R47, R58, R64). -/
def State.pbufHalf (s : State) (k : Nat) : Word :=
  ((Store.find s.pbuf k).map PbufHalf.bits).getD (Config.freePbuf s.resets k)

/-- The bits of half `k` of PBUF that an append has written: none in a half not written since reset (R140, R141; log 19). -/
def State.pbufMarks (s : State) (k : Nat) : Word :=
  ((Store.find s.pbuf k).map PbufHalf.appended).getD 0

/-- PBUF[w], high half first (R47, R64). -/
def State.pbufWord (s : State) (w : Nat) : Dword :=
  s.pbufHalf (2 * w + 1) ++ s.pbufHalf (2 * w)

/-- `PBUF_BIT(p)`, bit position `p` of the packed stream: bit `p mod 64` of word `p / 64`, which is bit `p mod 32` of
half `p / 32` (R65, R72). -/
def State.pbufBit (s : State) (p : Nat) : Bool :=
  (s.pbufHalf (p / 32)).getLsbD (p % 32)

/-- An append wrote or zeroed stream position `p`, and the host has not written over it (R140, R141; log 19). -/
def State.pbufAppended (s : State) (p : Nat) : Bool :=
  (s.pbufMarks (p / 32)).getLsbD (p % 32)

/-- Element `i` of OUT_MEM; an element not written since reset holds unspecified content (R48, R58). -/
def State.outAt (s : State) (i : Nat) : Byte :=
  (Store.find s.outMem i).getD (Config.freeOut s.resets i)

/-- The symbol sequence COUNT, PACK and ENCODE read: `SYM_MEM[0 .. IN_LEN-1]` in index order (R43). -/
def State.inputSymbols (s : State) : List Byte :=
  (List.range s.inLen.toNat).map s.symAt

/-- The decoded sequence: `OUT_MEM[0 .. OUT_LEN-1]` in index order (R48). -/
def State.outputSymbols (s : State) : List Byte :=
  (List.range s.outLen.toNat).map s.outAt

/-- The packed bit stream: positions `0 .. TOTAL_BITS-1` in order (R47). -/
def State.stream (s : State) : List Bool :=
  (List.range s.totalBits.toNat).map s.pbufBit

/-- APPEND's 64-bit operand `{APP_HI, APP_LO}` (R142). -/
def State.appValue (s : State) : Dword := s.appHi ++ s.appLo

/-- WORD_COUNT, `ceil(TOTAL_BITS / 64)`: the number of allocated words of the packed buffer (R36, R52). -/
def State.wordCount (s : State) : Nat := (s.totalBits.toNat + 63) / 64

/-- The bits of half `k` of PBUF that a host read shows while BUSY = 0: all of them, but in the last word only those below
TOTAL_BITS and those an append has written; every other bit of that word is any value (R66; 93 item 1, log 19). -/
def State.pbufShown (s : State) (k : Nat) : Word :=
  if k / 2 + 1 = s.wordCount then
    BitVec.ofNat 32 (2 ^ min 32 (s.totalBits.toNat - 32 * k) - 1) ||| s.pbufMarks k
  else BitVec.allOnes 32

/-- The present symbols in ascending order: those with `FREQ[x] ≥ 1` (R44, R114). -/
def presentSymbols (m : Store Word) : List Nat :=
  (List.range Config.kMax).filter (fun x => decide (countAt m x ≠ 0))

/-- NUM_SYMS: the number of symbols `x` in 0..255 with `FREQ[x] ≥ 1` (R37). -/
def State.numSyms (s : State) : Nat := (presentSymbols s.freq).length

/-- `LOOKUP(v, l)` in the inverse Code Table: the least symbol whose code word is `(v, l)`, the comparison being of both
VALUE and LEN (R152). -/
def lookup (table : Store CodeWord) (v : Dword) (l : Nat) : Option Nat :=
  (table.find? (fun e => decide (e.2.len.toNat = l) && decide (e.2.value = v))).map (fun e => e.1)

end Sys2Proof.Machine
end

