-- ==== Sys2Proof/Machine/Flags.lean ====
section
/-! DEFINITION. STATUS and CTRL: the derived flags, the words the host reads, and what a host write of each does
(R28, R30, R57). -/

namespace Sys2Proof.Machine

/-- The number an error code is reported as (R171). -/
def ErrCode.code : ErrCode → BitVec 8
  | .ok => 0x00#8
  | .illegalCmd => 0x01#8
  | .invalidInput => 0x02#8
  | .lookupFailure => 0x03#8
  | .corruptBuffer => 0x04#8
  | .noTable => 0x05#8
  | .noFreq => 0x06#8
  | .noTree => 0x07#8
  | .pbufOverflow => 0x08#8
  | .outOverflow => 0x09#8
  | .codeTooLong => 0x0A#8

/-- STATUS.BUSY: 1 exactly when PENDING is not none (R53). -/
def State.busy (s : State) : Bool := s.pending.isSome

/-- STATUS.ERR: `ERR_CODE != 0` (R30). -/
def State.err (s : State) : Bool := decide (s.errCode ≠ .ok)

/-- The interrupt output: `irq = STATUS.DONE & CTRL.IRQ_EN` (R57, R180). -/
def State.irq (s : State) : Bool := s.done && s.irqEn

/-- The word register STATUS reads as (R30). -/
def State.statusWord (s : State) : Word :=
  0#25 ++ BitVec.ofBool s.overrun ++ BitVec.ofBool s.tableValid ++ BitVec.ofBool s.treeValid ++
    BitVec.ofBool s.freqValid ++ BitVec.ofBool s.err ++ BitVec.ofBool s.done ++ BitVec.ofBool s.busy

/-- The bits of STATUS that read normally while BUSY = 1: BUSY, DONE and OVERRUN (R194). -/
def statusBusyMask : Word := 0x43#32

/-- The word register CTRL reads as (R28). -/
def State.ctrlWord (s : State) : Word := 0#31 ++ BitVec.ofBool s.irqEn

/-- A host write of CTRL: IRQ_EN takes bit 0, the other bits are ignored (R28). -/
def writeCtrl (v : Word) (s : State) : State :=
  { s with irqEn := v.getLsbD 0 }

/-- A host write of STATUS: writing 1 clears DONE (bit 1) or OVERRUN (bit 6), writing 0 has no effect, and no other bit
can be written (R30). -/
def writeStatus (v : Word) (s : State) : State :=
  { s with done := s.done && !v.getLsbD 1, overrun := s.overrun && !v.getLsbD 6 }

/-- A host write that BUSY = 1 drops: it only sets OVERRUN (R179, R194). -/
def dropWrite (s : State) : State :=
  { s with overrun := true }

end Sys2Proof.Machine
end

