-- ==== Sys2Proof/Machine/Ops.lean ====
section
/-! DEFINITION. The operations the commands share: the lifecycle (accepting a command, raising an error, completing),
and writing the packed buffer (R87 to R89, R140, R141, R175 to R177). -/

namespace Sys2Proof.Machine

/-- How far a command's pseudocode has come: it goes on from a state, or a `raise` has ended it in one (R17). -/
inductive Progress where
  /-- The next statement runs from `s`. -/
  | running (s : State)
  /-- A `raise` ended the command in `s`. -/
  | ended (s : State)
  deriving DecidableEq, Repr

/-- The state so far: every write before a `raise` stays (R176). -/
def Progress.state : Progress → State
  | .running s => s
  | .ended s => s

/-- One statement after the other: after a `raise` no later statement runs (R17). -/
def Progress.andThen (p : Progress) (f : State → Progress) : Progress :=
  match p with
  | .running s => f s
  | .ended s => .ended s

/-- `raise E(info)`, the block's one exception entry: ERR_CODE and ERR_INFO are written, nothing else is saved, no mode
changes, and the command stops here (R175). -/
def raise (e : ErrCode) (info : Word) (s : State) : Progress :=
  .ended { s with errCode := e, errInfo := info }

/-- Acceptance of the command word `c`, which is also the return from an error: PENDING holds the word, so BUSY is 1;
DONE, ERR_CODE and ERR_INFO are cleared (R87, R177). -/
def accept (c : Word) (s : State) : State :=
  { s with pending := some c, done := false, errCode := .ok, errInfo := 0 }

/-- Completion: PENDING is none, so BUSY is 0, and DONE is 1 (R89). -/
def complete (s : State) : State :=
  { s with pending := none, done := true }

/-- What a command's pseudocode comes to, as an outcome: a next state, whether it ended or was ended by a `raise`
(R170). Completion follows it, in the ENGINE step (R88). -/
def finish (p : Progress) : Host.Outcome State Fault Refusal := .next p.state

/-- A 32-bit half with bit `i` assigned (R140: assigned, not OR-ed). -/
def assignBit (h : Word) (i : Nat) (b : Bool) : Word :=
  (h &&& ~~~(1#32 <<< i)) ||| ((if b then 1#32 else 0#32) <<< i)

/-- A half that R141 has zeroed, every bit of it written by an append. -/
def zeroHalf : PbufHalf := { bits := 0, appended := BitVec.allOnes 32 }

/-- The store of PBUF with word `w` zeroed: both its halves (R141). -/
def zeroWord (w : Nat) (m : Store PbufHalf) : Store PbufHalf :=
  Store.put (2 * w + 1) zeroHalf (Store.put (2 * w) zeroHalf m)

/-- PBUF when a bit is about to be written at stream position `p`: a fresh zero word when `p` is a multiple of 64
(R140, R141). -/
def freshWord (p : Nat) (s : State) : State :=
  { s with pbuf := if p % 64 = 0 then zeroWord (p / 64) s.pbuf else s.pbuf }

/-- Half `k` of PBUF with bit `i` assigned by an append (R140). -/
def appendedHalf (s : State) (k i : Nat) (b : Bool) : PbufHalf where
  bits := assignBit (s.pbufHalf k) i b
  appended := assignBit (s.pbufMarks k) i true

/-- Assigns bit `b` to stream position `p` (R65, R140). -/
def putStreamBit (p : Nat) (b : Bool) (s : State) : State :=
  { s with pbuf := Store.put (p / 32) (appendedHalf s (p / 32) (p % 32) b) s.pbuf }

/-- One turn of the loop of APPEND_BITS: the bit at the tail, a fresh word before it where it starts one, and
TOTAL_BITS one more (R140). -/
def appendBit (b : Bool) (s : State) : State :=
  let p := s.totalBits.toNat
  { putStreamBit p b (freshWord p s) with totalBits := s.totalBits + 1 }

/-- The loop of APPEND_BITS from bit `j` of `v` on, with `k` bits left to append (R140). -/
def appendLoop (v : Dword) : Nat → Nat → State → State
  | _, 0, s => s
  | j, k + 1, s => appendLoop v (j + 1) k (appendBit (v.getLsbD j) s)

/-- `APPEND_BITS(v, n, info)`: appends the low `n` bits of `v` at the tail of the packed buffer, or raises
PBUF_OVERFLOW(info) before any write (R140). -/
def appendBits (v : Dword) (n : Nat) (info : Word) (s : State) : Progress :=
  if n = 0 then .running s
  else if s.totalBits.toNat + n > 64 * s.params.wMax then raise .pbufOverflow info s
  else .running (appendLoop v 0 n s)

end Sys2Proof.Machine
end

