-- ==== Sys2Proof/Machine/Bus.lean ====
section
/-! DEFINITION. The host interface: the address map, and what a host read and a host write do
(20_memory.md, R23 to R42, R179, R194). -/

namespace Sys2Proof.Machine

/-- What the aligned word at a host address is (R62). -/
inductive Loc where
  /-- Register ID (R23). -/
  | id
  /-- Register VERSION (R24). -/
  | version
  /-- Register PARAM (R25). -/
  | param
  /-- Register N_MAX (R26). -/
  | nMax
  /-- Register W_MAX (R27). -/
  | wMax
  /-- Register CTRL (R28). -/
  | ctrl
  /-- Register CMD (R29). -/
  | cmd
  /-- Register STATUS (R30). -/
  | status
  /-- Register ERR_CODE (R31). -/
  | errCode
  /-- Register ERR_INFO (R32). -/
  | errInfo
  /-- Register IN_LEN (R33). -/
  | inLen
  /-- Register OUT_LEN (R34). -/
  | outLen
  /-- Register TOTAL_BITS (R35). -/
  | totalBits
  /-- Register WORD_COUNT (R36). -/
  | wordCount
  /-- Register NUM_SYMS (R37). -/
  | numSyms
  /-- Register NODE_COUNT (R38). -/
  | nodeCount
  /-- Register ROOT (R39). -/
  | root
  /-- Register APP_LO (R40). -/
  | appLo
  /-- Register APP_HI (R41). -/
  | appHi
  /-- FREQ[x] (R67). -/
  | freq (x : Nat)
  /-- Word `w` (0 to 3) of NODE[i] (R67). -/
  | node (i w : Nat)
  /-- Word `w` (0 to 3) of CODE[x] (R67). -/
  | code (x w : Nat)
  /-- SYM_MEM[i], `i < N_MAX` (R66). -/
  | sym (i : Nat)
  /-- OUT_MEM[i], `i < N_MAX` (R67). -/
  | out (i : Nat)
  /-- Half `k` of PBUF: word `k / 2 < W_MAX` (R66). -/
  | pbuf (k : Nat)
  /-- A reserved address, or an entry that does not exist (R42, R62, R63). -/
  | reserved
  deriving DecidableEq, Repr

/-- The registers in the order of their offsets: the register at byte offset 4*n is number n (R23 to R41). -/
def registerPage : List Loc :=
  [.id, .version, .param, .nMax, .wMax, .ctrl, .cmd, .status, .errCode, .errInfo, .inLen, .outLen, .totalBits,
    .wordCount, .numSyms, .nodeCount, .root, .appLo, .appHi]

/-- The register page by word offset; the offsets past the registers are reserved (R42). -/
def registerAt (n : Nat) : Loc := registerPage.getD n .reserved

/-- The address map at byte offset `b`, whose two low bits choose nothing: every window and every entry is a whole number
of 32-bit words (R61, R62, R68). Within SYM_MEM, OUT_MEM and PBUF only the entries below the block's capacity exist; the
others behave as reserved. -/
def locateByte (p : Params) (b : Nat) : Loc :=
  if b < 0x01000 then registerAt (b / 4)
  else if b < 0x01400 then .freq ((b - 0x01000) / 4)
  else if b < 0x02000 then .reserved
  else if b < 0x03FF0 then .node ((b - 0x02000) / 16) ((b - 0x02000) / 4 % 4)
  else if b < 0x04000 then .reserved
  else if b < 0x05000 then .code ((b - 0x04000) / 16) ((b - 0x04000) / 4 % 4)
  else if b < 0x10000 then .reserved
  else if b < 0x20000 then (if (b - 0x10000) / 4 < p.nMax then .sym ((b - 0x10000) / 4) else .reserved)
  else if b < 0x30000 then (if (b - 0x20000) / 4 < p.nMax then .out ((b - 0x20000) / 4) else .reserved)
  else if b < 0x40000 then .reserved
  else if b < 0x80000 then (if (b - 0x40000) / 8 < p.wMax then .pbuf ((b - 0x40000) / 4) else .reserved)
  else .reserved

/-- What a host address names (R61, R62). -/
def locate (p : Params) (a : Addr) : Loc := locateByte p a.toNat

/-- Word `w` of a node as the NODE window shows it (R67). -/
def nodeWord (n : Node) (w : Nat) : Word :=
  if w = 0 then 0#23 ++ BitVec.ofBool n.internal ++ n.sym
  else if w = 1 then n.weight
  else if w = 2 then 0#23 ++ n.left
  else 0#23 ++ n.right

/-- Word `w` of a CODE entry as the CODE window shows it; an entry whose VALID is 0 has LEN 0 and VALUE 0 (R46, R67). -/
def codeWord (c : Option CodeWord) (w : Nat) : Word :=
  match c with
  | none => 0
  | some e =>
    if w = 0 then e.value.extractLsb' 0 32
    else if w = 1 then e.value.extractLsb' 32 32
    else if w = 2 then 0#23 ++ 1#1 ++ 0#1 ++ e.len
    else 0

/-- The content of a location, which a host read returns while BUSY = 0 in the bits that `idleMask` names (R23 to R42, R63,
R66, R67). -/
def readLoc (s : State) : Loc → Word
  | .id => Config.id
  | .version => Config.version
  | .param => Config.param
  | .nMax => BitVec.ofNat 32 s.params.nMax
  | .wMax => BitVec.ofNat 32 s.params.wMax
  | .ctrl => s.ctrlWord
  | .cmd => 0
  | .status => s.statusWord
  | .errCode => 0#24 ++ s.errCode.code
  | .errInfo => s.errInfo
  | .inLen => s.inLen
  | .outLen => s.outLen
  | .totalBits => s.totalBits
  | .wordCount => BitVec.ofNat 32 s.wordCount
  | .numSyms => BitVec.ofNat 32 s.numSyms
  | .nodeCount => s.nodeCount
  | .root => 0#23 ++ s.root
  | .appLo => s.appLo
  | .appHi => s.appHi
  | .freq x => s.freqAt x
  | .node i w => if i < s.nodeCount.toNat then nodeWord (s.nodeAt i) w else 0
  | .code x w => codeWord (s.codeAt x) w
  | .sym i => 0#24 ++ s.symAt i
  | .out i => if i < s.outLen.toNat then 0#24 ++ s.outAt i else 0
  | .pbuf k => s.pbufHalf k
  | .reserved => 0

/-- The bits a host read of a location returns normally while BUSY = 1: all of the constants and CTRL, and BUSY, DONE
and OVERRUN of STATUS. Every other bit of every other read is any value (R194). -/
def stableMask : Loc → Word
  | .id => BitVec.allOnes 32
  | .version => BitVec.allOnes 32
  | .param => BitVec.allOnes 32
  | .nMax => BitVec.allOnes 32
  | .wMax => BitVec.allOnes 32
  | .ctrl => BitVec.allOnes 32
  | .status => statusBusyMask
  | .cmd => 0
  | .errCode => 0
  | .errInfo => 0
  | .inLen => 0
  | .outLen => 0
  | .totalBits => 0
  | .wordCount => 0
  | .numSyms => 0
  | .nodeCount => 0
  | .root => 0
  | .appLo => 0
  | .appHi => 0
  | .freq _ => 0
  | .node _ _ => 0
  | .code _ _ => 0
  | .sym _ => 0
  | .out _ => 0
  | .pbuf _ => 0
  | .reserved => 0

/-- The bits of a location's content that a host read returns while BUSY = 0: all of them, but in the last word of PBUF
(R66; 93 item 1, log 19). -/
def idleMask (s : State) : Loc → Word
  | .pbuf k => s.pbufShown k
  | _ => BitVec.allOnes 32

/-- The value `v` is returned to the host. -/
def reply (v : Word) (s : State) : State :=
  { s with replies := v :: s.replies }

/-- The host is returned the bits of `v` that `shown` names, and a fresh free value in every other bit. -/
def replyFree (v shown : Word) (s : State) : State :=
  reply ((v &&& shown) ||| (Config.freeRead s.draws &&& ~~~shown)) { s with draws := s.draws + 1 }

/-- `MemRead(a, 4)`. No read has a side effect on the block (R70); the reply, and the draw that a read with open bits takes,
are the model's own fields. -/
def hostRead (a : Addr) (s : State) : State :=
  let loc := locate s.params a
  if s.busy then replyFree (readLoc s loc) (stableMask loc) s
  else if idleMask s loc = BitVec.allOnes 32 then reply (readLoc s loc) s
  else replyFree (readLoc s loc) (idleMask s loc) s

/-- A host write of a location whose writes BUSY = 1 drops, while BUSY = 0: CMD issues a command (R87); IN_LEN and
TOTAL_BITS store the clamped value (R33, R35); APP_LO, APP_HI, SYM_MEM and PBUF store the data (R40, R41, R66). -/
def storeLoc (v : Word) (s : State) : Loc → State
  | .cmd => accept v s
  | .inLen => { s with inLen := BitVec.ofNat 32 (min v.toNat s.params.nMax) }
  | .totalBits => { s with totalBits := BitVec.ofNat 32 (min v.toNat (64 * s.params.wMax)) }
  | .appLo => { s with appLo := v }
  | .appHi => { s with appHi := v }
  | .sym i => { s with symMem := Store.put i (v.extractLsb' 0 8) s.symMem }
  | .pbuf k => { s with pbuf := Store.put k { bits := v, appended := 0 } s.pbuf }
  | .id => s
  | .version => s
  | .param => s
  | .nMax => s
  | .wMax => s
  | .ctrl => s
  | .status => s
  | .errCode => s
  | .errInfo => s
  | .outLen => s
  | .wordCount => s
  | .numSyms => s
  | .nodeCount => s
  | .root => s
  | .freq _ => s
  | .node _ _ => s
  | .code _ _ => s
  | .out _ => s
  | .reserved => s

/-- The locations whose host writes BUSY = 1 drops: CMD, IN_LEN, TOTAL_BITS, APP_LO, APP_HI, SYM_MEM and PBUF
(R179, R194). -/
def droppedWhileBusy : Loc → Bool
  | .cmd => true
  | .inLen => true
  | .totalBits => true
  | .appLo => true
  | .appHi => true
  | .sym _ => true
  | .pbuf _ => true
  | .id => false
  | .version => false
  | .param => false
  | .nMax => false
  | .wMax => false
  | .ctrl => false
  | .status => false
  | .errCode => false
  | .errInfo => false
  | .outLen => false
  | .wordCount => false
  | .numSyms => false
  | .nodeCount => false
  | .root => false
  | .freq _ => false
  | .node _ _ => false
  | .code _ _ => false
  | .out _ => false
  | .reserved => false

/-- `MemWrite(a, 4, v)`. CTRL and STATUS take a write at any time (R28, R30); the writes R194 lists are dropped while
BUSY = 1 and set OVERRUN; a write to a read-only or reserved address is ignored (R63). -/
def hostWrite (a : Addr) (v : Word) (s : State) : State :=
  match locate s.params a with
  | .ctrl => writeCtrl v s
  | .status => writeStatus v s
  | loc => if droppedWhileBusy loc && s.busy then dropWrite s else storeLoc v s loc

/-- The reset input: every element of state takes its reset value, a pending command is abandoned, and SYM_MEM and PBUF
are drawn anew (R58, R190, R191). The block's parameters are no state, and the host's own sequence of transactions and
their replies stand outside the block. -/
def applyReset (s : State) : State :=
  { State.reset with
    params := s.params, inputs := s.inputs, replies := s.replies, resets := s.resets + 1, draws := s.draws }

end Sys2Proof.Machine
end

