-- ==== Sys2Proof/Machine/Control.lean ====
section
/-! DEFINITION. The housekeeping commands NOP and CLEAR (45_control.md). -/

namespace Sys2Proof.Machine

/-- NOP: nothing but the command lifecycle (R160). -/
def execNop (s : State) : Host.Outcome State Fault Refusal :=
  finish (.running s)

/-- CLEAR: the Frequency Map, the tree, the table, the packed buffer and the decoded output are discarded. CTRL, IN_LEN,
APP_LO, APP_HI, SYM_MEM and the contents of the PBUF, NODE and OUT_MEM elements stay (R161). -/
def execClear (s : State) : Host.Outcome State Fault Refusal :=
  finish (.running
    { s with
      freq := [], code := [], nodeCount := 0, root := 0, totalBits := 0, outLen := 0,
      freqValid := false, treeValid := false, tableValid := false })

end Sys2Proof.Machine
end

