-- ==== Sys2Proof/Machine/Decoder.lean ====
section
/-! DEFINITION. The decoder, DECODE (44_decoder.md). -/

namespace Sys2Proof.Machine

/-- The empty candidate (R150). -/
def emptyCandidate : Candidate := { value := 0, len := 0 }

/-- The candidate with one more scanned bit, inserted at the position that is its current length (R151). -/
def growCandidate (c : Candidate) (b : Bool) : Candidate :=
  { value := c.value ||| ((if b then 1#64 else 0#64) <<< c.len), len := c.len + 1 }

/-- A decoded symbol is written to OUT_MEM[OUT_LEN], and the candidate is reset to empty (R150). -/
def emitSymbol (x : Nat) (s : State) : State :=
  { s with
    outMem := Store.put s.outLen.toNat (BitVec.ofNat 8 x) s.outMem
    outLen := s.outLen + 1
    cand := emptyCandidate }

/-- DECODE's turn for stream bit `p` (R150): the candidate limit first (R154), then the candidate's growth, the lookup,
and OUT_OVERFLOW before a symbol is written. -/
def decodeBit (p : Nat) (s : State) : Progress :=
  if s.cand.len = Config.maxCodeLen then raise .corruptBuffer (BitVec.ofNat 32 p) s
  else
    let s1 := { s with cand := growCandidate s.cand (s.pbufBit p) }
    match lookup s1.code s1.cand.value s1.cand.len with
    | none => .running s1
    | some x =>
      if s1.outLen.toNat = s1.params.nMax then raise .outOverflow (BitVec.ofNat 32 p) s1
      else .running (emitSymbol x s1)

/-- DECODE's scan from position `p` on, `k` bits left (R150). -/
def decodeLoop : Nat → Nat → State → Progress
  | _, 0, s => .running s
  | p, k + 1, s => (decodeBit p s).andThen (decodeLoop (p + 1) k)

/-- The end of the scan: a candidate that is not empty is CORRUPT_BUFFER(TOTAL_BITS) (R153). -/
def decodeEnd (s : State) : Progress :=
  if s.cand.len = 0 then .running s else raise .corruptBuffer s.totalBits s

/-- DECODE's first statements: no output, the empty candidate (R150). -/
def startDecode (s : State) : State :=
  { s with outLen := 0, cand := emptyCandidate }

/-- The pseudocode of DECODE (R150). -/
def runDecode (s : State) : Progress :=
  if s.tableValid then (decodeLoop 0 s.totalBits.toNat (startDecode s)).andThen decodeEnd
  else raise .noTable 0 s

/-- DECODE: the symbols of the packed stream in OUT_MEM and OUT_LEN; NO_TABLE, CORRUPT_BUFFER and OUT_OVERFLOW (R150). -/
def execDecode (s : State) : Host.Outcome State Fault Refusal :=
  finish (runDecode s)

end Sys2Proof.Machine
end

