-- ==== Sys2Proof/Machine/Build.lean ====
section
/-! DEFINITION. The ordering utility and the tree builder, BUILD (41_tree_builder.md). -/

namespace Sys2Proof.Machine

/-- `swap(v[i], v[j])` in a sequence of node indices. -/
def swap (v : List Nat) (i j : Nat) : List Nat :=
  (v.set i (v.getD j 0)).set j (v.getD i 0)

/-- `less(a, b)`: a strict less-than on node weights (R110). -/
def lessWeight (weight : Nat → Word) (a b : Nat) : Bool :=
  decide ((weight a).toNat < (weight b).toNat)

/-- The scan of PARTITION from index `i` on, `k` indices left: every element less than the pivot, which is parked at
`last`, is moved before the store index (R112). -/
def scan (weight : Nat → Word) (last : Nat) : Nat → Nat → List Nat → Nat → List Nat × Nat
  | _, 0, v, store => (v, store)
  | i, k + 1, v, store =>
    if lessWeight weight (v.getD i 0) (v.getD last 0) then scan weight last (i + 1) k (swap v i store) (store + 1)
    else scan weight last (i + 1) k v store

/-- `PARTITION` of a whole sub-sequence `v` (so `lo = 0` and `hi = |v|`): the middle element is the pivot, parked at
the end for the scan and then swapped to the store index. The answer is the new order and the pivot's place (R112). -/
def partition (weight : Nat → Word) (v : List Nat) : List Nat × Nat :=
  let last := v.length - 1
  let scanned := scan weight last 0 last (swap v (v.length / 2) last) 0
  (swap scanned.1 scanned.2 last, scanned.2)

/-- `QSORT` of a whole sub-sequence `v`: below two elements nothing, otherwise PARTITION and then QSORT of the elements
before and of those after the pivot, which touch disjoint ranges (R111). The first argument bounds the depth of the
recursion; the length of `v` is always enough. -/
def qsort (weight : Nat → Word) : Nat → List Nat → List Nat
  | 0, v => v
  | fuel + 1, v =>
    if v.length < 2 then v
    else
      let parted := partition weight v
      qsort weight fuel (parted.1.take parted.2) ++
        parted.1.getD parted.2 0 :: qsort weight fuel (parted.1.drop (parted.2 + 1))

/-- `TAKE_MIN()`: the node with the smaller front weight and what is left of LQ and IQ; on a tie the internal queue wins.
None only when both queues are empty (R113). -/
def takeMin (weight : Nat → Word) : List Nat → List Nat → Option (Nat × List Nat × List Nat)
  | [], [] => none
  | [], b :: iq => some (b, [], iq)
  | a :: lq, [] => some (a, lq, [])
  | a :: lq, b :: iq =>
    if lessWeight weight a b then some (a, lq, b :: iq) else some (b, a :: lq, iq)

/-- A leaf: `{INTERNAL 0, SYM x, WEIGHT c, LEFT 0, RIGHT 0}` (R115). -/
def leaf (x : Byte) (c : Word) : Node :=
  { internal := false, sym := x, weight := c, left := 0, right := 0 }

/-- The leaves of a list of symbols, in that order from NODE[j] on (R114). -/
def placeLeaves (counts : Store Word) : Nat → List Nat → Store Node → Store Node
  | _, [], m => m
  | j, x :: xs, m => placeLeaves counts (j + 1) xs (Store.put j (leaf (BitVec.ofNat 8 x) (countAt counts x)) m)

/-- What the merge loop works on: the arena, the two queues, and the next free node index M (R115). -/
structure Forest where
  /-- NODE. -/
  node : Store Node
  /-- LQ. -/
  lq : List Nat
  /-- IQ. -/
  iq : List Nat
  /-- M. -/
  next : Nat
  deriving DecidableEq, Repr

/-- The internal node over `a` (LEFT, the first taken) and `b` (RIGHT): its weight is the sum of theirs (R115, R116). -/
def mergedNode (weight : Nat → Word) (a b : Nat) : Node where
  internal := true
  sym := 0
  weight := weight a + weight b
  left := BitVec.ofNat 9 a
  right := BitVec.ofNat 9 b

/-- One turn of the merge loop: two TAKE_MINs, a new node, and its index pushed on IQ (R115, R116). None only when fewer
than two nodes are left, which the loop never sees (R117). -/
def mergeOnce (r : Nat) (f : Forest) : Option Forest :=
  let weight := fun i => (arenaAt r f.node i).weight
  match takeMin weight f.lq f.iq with
  | none => none
  | some (a, lq1, iq1) =>
    match takeMin weight lq1 iq1 with
    | none => none
    | some (b, lq2, iq2) =>
      some
        { node := Store.put f.next (mergedNode weight a b) f.node
          lq := lq2
          iq := iq2 ++ [f.next]
          next := f.next + 1 }

/-- The merge loop, `while |LQ| > 0 or |IQ| > 1` (R115, R116). The first argument bounds its turns; the number of leaves
is always enough (R117). -/
def mergeLoop (r : Nat) : Nat → Forest → Forest
  | 0, f => f
  | fuel + 1, f =>
    if 0 < f.lq.length ∨ 1 < f.iq.length then
      match mergeOnce r f with
      | none => f
      | some g => mergeLoop r fuel g
    else f

/-- BUILD's first statements: no tree, and the leaves of the present symbols (R114, R115 step 1). -/
def buildLeaves (s : State) : State :=
  { s with
    treeValid := false, nodeCount := 0, root := 0
    node := placeLeaves s.freq 0 (presentSymbols s.freq) s.node }

/-- LQ after the sort of step 2: the leaves 0 .. K-1, ascending by weight (R111, R115). -/
def sortedLeaves (s : State) (k : Nat) : List Nat :=
  qsort (fun i => (s.nodeAt i).weight) k (List.range k)

/-- The merge loop over the sorted leaves, from `K` on (R115 steps 3 and 4). -/
def mergeAll (s : State) (k : Nat) : Forest :=
  mergeLoop s.resets k { node := s.node, lq := sortedLeaves s k, iq := [], next := k }

/-- The one-leaf tree: ROOT 0, NODE_COUNT 1 (R115, R118). -/
def singleTree (s : State) : State :=
  { s with lq := sortedLeaves s 1, iq := [], root := 0, nodeCount := 1, treeValid := true }

/-- The merged tree: ROOT is the front of IQ, and NODE_COUNT the next free index (R115). -/
def mergedTree (s : State) (f : Forest) : State :=
  { s with
    node := f.node, lq := f.lq, iq := f.iq
    root := BitVec.ofNat 9 (f.iq.headD 0), nodeCount := BitVec.ofNat 32 f.next, treeValid := true }

/-- The pseudocode of BUILD (R115). -/
def runBuild (s : State) : Progress :=
  if s.freqValid then
    let s1 := buildLeaves s
    let k := (presentSymbols s.freq).length
    if k = 0 then raise .invalidInput 0 s1
    else if k = 1 then .running (singleTree s1)
    else .running (mergedTree s1 (mergeAll s1 k))
  else raise .noFreq 0 s

/-- BUILD: the Huffman tree of FREQ in NODE, NODE_COUNT and ROOT, TREE_VALID 1; NO_FREQ and INVALID_INPUT (R115). -/
def execBuild (s : State) : Host.Outcome State Fault Refusal :=
  finish (runBuild s)

end Sys2Proof.Machine
end

