-- ==== Sys2Proof/Machine/Count.lean ====
section
/-! DEFINITION. The frequency counter, COUNT (40_frequency_counter.md). -/

namespace Sys2Proof.Machine

/-- `FREQ[x] <- FREQ[x] + 1` on a Frequency Map (R100). -/
def countSymbol (m : Store Word) (x : Byte) : Store Word :=
  Store.putCount x.toNat (countAt m x.toNat + 1) m

/-- The Frequency Map of a symbol sequence, counted in one pass from the empty map (R100). -/
def frequencies (xs : List Byte) : Store Word :=
  xs.foldl countSymbol []

/-- The pseudocode of COUNT (R100). -/
def runCount (s : State) : Progress :=
  .running { s with freq := frequencies s.inputSymbols, freqValid := true, treeValid := false }

/-- COUNT: FREQ takes the Frequency Map of `SYM_MEM[0 .. IN_LEN-1]`, FREQ_VALID becomes 1 and TREE_VALID 0 (R100). -/
def execCount (s : State) : Host.Outcome State Fault Refusal :=
  finish (runCount s)

end Sys2Proof.Machine
end

