-- ==== Sys2Proof/Machine/GenCode.lean ====
section
/-! DEFINITION. The code table generator, GENCODE (42_code_table.md). -/

namespace Sys2Proof.Machine

/-- How a traversal ends: with the table it recorded, or at an internal node of depth 64, with the entries still on the
stack (R130, R133). -/
inductive Walk where
  /-- Every leaf below the node is recorded. -/
  | recorded (table : Store CodeWord)
  /-- A child of internal node `n` would need 65 bits. -/
  | tooLong (n : Nat) (stack : List Frame)
  deriving DecidableEq, Repr

/-- The depth-first traversal from node `n`, whose code so far is the low `64 - room` bits of `v`: left first, each edge
at depth `k` setting bit `k` (0 left, 1 right), each leaf recorded verbatim. `room` is how many more bits a code word
may take, so `room = 0` is the pseudocode's `l == 64`; `below` is what the explicit stack holds under the node
(R130, R131, R133). -/
def walk (nodes : Nat → Node) : Nat → Nat → Dword → List Frame → Store CodeWord → Walk
  | 0, n, v, below, table =>
    if (nodes n).internal then .tooLong n below
    else .recorded (Store.put (nodes n).sym.toNat { len := BitVec.ofNat 7 Config.maxCodeLen, value := v } table)
  | room + 1, n, v, below, table =>
    let l := Config.maxCodeLen - (room + 1)
    if (nodes n).internal then
      let toRight : Frame := { node := (nodes n).right.toNat, value := v ||| (1#64 <<< l), len := l + 1 }
      match walk nodes room (nodes n).left.toNat v (toRight :: below) table with
      | .tooLong m stack => .tooLong m stack
      | .recorded table1 => walk nodes room toRight.node toRight.value below table1
    else .recorded (Store.put (nodes n).sym.toNat { len := BitVec.ofNat 7 l, value := v } table)

/-- GENCODE's first statements: no table (R130). -/
def clearTable (s : State) : State :=
  { s with code := [], tableValid := false }

/-- The one-bit code of a one-leaf tree: `(VALUE 0, LEN 1)` (R132). -/
def singleCode (x : Byte) : Store CodeWord :=
  [(x.toNat, { len := 1, value := 0 })]

/-- The pseudocode of GENCODE (R130). -/
def runGencode (s : State) : Progress :=
  if s.treeValid then
    let s1 := clearTable s
    let rootNode := s.nodeAt s.root.toNat
    if rootNode.internal then
      match walk s.nodeAt Config.maxCodeLen s.root.toNat 0 [] [] with
      | .tooLong n stack => raise .codeTooLong (BitVec.ofNat 32 n) { s1 with stack := stack }
      | .recorded table => .running { s1 with code := table, tableValid := true, stack := [] }
    else .running { s1 with code := singleCode rootNode.sym, tableValid := true }
  else raise .noTree 0 s

/-- GENCODE: CODE takes the code table of the tree, TABLE_VALID 1; NO_TREE and CODE_TOO_LONG (R130). -/
def execGencode (s : State) : Host.Outcome State Fault Refusal :=
  finish (runGencode s)

end Sys2Proof.Machine
end

