-- ==== Sys2Proof/Machine/Packer.lean ====
section
/-! DEFINITION. The bit-packing encoder: APPEND, PBCLR, PACK and ENCODE (43_bit_packer.md). -/

namespace Sys2Proof.Machine

/-- APPEND: the low LEN bits of `{APP_HI, APP_LO}` at the tail of the packed buffer, or PBUF_OVERFLOW(0) with nothing
written (R142). -/
def execAppend (len : BitVec 7) (s : State) : Host.Outcome State Fault Refusal :=
  finish (appendBits s.appValue len.toNat 0 s)

/-- TOTAL_BITS 0; PBUF's words are not changed (R143). -/
def emptyBuffer (s : State) : State :=
  { s with totalBits := 0 }

/-- PBCLR: the packed buffer is empty (R143). -/
def execPbclr (s : State) : Host.Outcome State Fault Refusal :=
  finish (.running (emptyBuffer s))

/-- PACK's turn for `SYM_MEM[i]`: its code word is appended, or LOOKUP_FAILURE(i) when it has none (R144). -/
def packSymbol (i : Nat) (s : State) : Progress :=
  match s.codeAt (s.symAt i).toNat with
  | none => raise .lookupFailure (BitVec.ofNat 32 i) s
  | some w => appendBits w.value w.len.toNat (BitVec.ofNat 32 i) s

/-- PACK's loop from index `i` on, `k` symbols left (R144). -/
def packLoop : Nat → Nat → State → Progress
  | _, 0, s => .running s
  | i, k + 1, s => (packSymbol i s).andThen (packLoop (i + 1) k)

/-- The pseudocode of PACK (R144). -/
def runPack (s : State) : Progress :=
  if s.tableValid then packLoop 0 s.inLen.toNat (emptyBuffer s)
  else raise .noTable 0 s

/-- PACK: `SYM_MEM[0 .. IN_LEN-1]` packed with the stored table; NO_TABLE, LOOKUP_FAILURE and PBUF_OVERFLOW (R144). -/
def execPack (s : State) : Host.Outcome State Fault Refusal :=
  finish (runPack s)

/-- The pseudocode of ENCODE: INVALID_INPUT when IN_LEN = 0, otherwise COUNT, BUILD, GENCODE and PACK in the same step, up
to the first `raise` (R145). -/
def runEncode (s : State) : Progress :=
  if s.inLen = 0 then raise .invalidInput 0 s
  else (((runCount s).andThen runBuild).andThen runGencode).andThen runPack

/-- ENCODE: the whole pipeline (R145). -/
def execEncode (s : State) : Host.Outcome State Fault Refusal :=
  finish (runEncode s)

end Sys2Proof.Machine
end

