-- ==== Sys2Proof/Machine/Engine.lean ====
section
/-! DEFINITION. The ENGINE step: performing the pending command and completing it (R85, R88, R89). -/

namespace Sys2Proof.Machine

/-- `Dispatch(c)`: an illegal word raises ILLEGAL_CMD with the whole word and does nothing else; a legal word's command
runs (R84, R85). -/
def perform (c : Word) (s : State) : Host.Outcome State Fault Refusal :=
  match decode c with
  | .error _ => finish (raise .illegalCmd c s)
  | .ok i => exec i s

/-- A command's outcome followed by its completion (R88, R89). -/
def thenComplete : Host.Outcome State Fault Refusal → Host.Outcome State Fault Refusal
  | .next t => .next (complete t)
  | .fault r => .fault r
  | .refused r => .refused r

/-- The ENGINE step, enabled exactly when PENDING is not none; when it is not enabled nothing happens (R88, R192). -/
def engineStep (s : State) : Host.Outcome State Fault Refusal :=
  match s.pending with
  | none => .next s
  | some c => thenComplete (perform c s)

/-- One event at the block's boundary: a host transaction, reset, or the ENGINE's turn (R13, R60, R88, R190). -/
def handle (e : Event) (s : State) : Host.Outcome State Fault Refusal :=
  match e with
  | .read a => .next (hostRead a s)
  | .write a v => .next (hostWrite a v s)
  | .reset => .next (applyReset s)
  | .engine => engineStep s

end Sys2Proof.Machine
end

