-- ==== Sys2Proof/Machine/Step.lean ====
section
/-! DEFINITION. One step of the machine, and how a command word comes to be the next thing that runs. -/

namespace Sys2Proof.Machine

/-- One step: the first event of `inputs`, in the order it is issued (R60, R73); with no event left the ENGINE takes its
step if a command is pending, which is the weak fairness of R88, and otherwise nothing happens (R192). -/
def step (s : State) : Host.Outcome State Fault Refusal :=
  match s.inputs with
  | [] => engineStep s
  | e :: rest => handle e { s with inputs := rest }

/-- `s` with a command word accepted, and the ENGINE's turn next: the block fetches no instructions (R22), so the word
stands where an accepted CMD write puts it, in PENDING (R53, R87; log 9). -/
def State.withFetchWord (s : State) (nbits w : Nat) : State :=
  { accept (BitVec.ofNat 32 (w % 2 ^ nbits)) s with inputs := .engine :: s.inputs }

end Sys2Proof.Machine
end

