-- ==== Sys2Proof/Machine/HostProgram.lean ====
section
/-! DEFINITION. The host-program assembly of the spec, as the bus transactions it stands for (R90, R91). -/

namespace Sys2Proof.Machine

/-- The byte offset of a location's word (R23 to R41, R62, R66, R67). A reserved location has no address of its own; it
stands at offset 0x0004C, the first reserved register offset (R42). -/
def Loc.offset : Loc → Nat
  | .id => 0x000
  | .version => 0x004
  | .param => 0x008
  | .nMax => 0x00C
  | .wMax => 0x010
  | .ctrl => 0x014
  | .cmd => 0x018
  | .status => 0x01C
  | .errCode => 0x020
  | .errInfo => 0x024
  | .inLen => 0x028
  | .outLen => 0x02C
  | .totalBits => 0x030
  | .wordCount => 0x034
  | .numSyms => 0x038
  | .nodeCount => 0x03C
  | .root => 0x040
  | .appLo => 0x044
  | .appHi => 0x048
  | .freq x => 0x01000 + 4 * x
  | .node i w => 0x02000 + 16 * i + 4 * w
  | .code x w => 0x04000 + 16 * x + 4 * w
  | .sym i => 0x10000 + 4 * i
  | .out i => 0x20000 + 4 * i
  | .pbuf k => 0x40000 + 4 * k
  | .reserved => 0x0004C

/-- The locations the block has, for its capacities (R62). -/
def Loc.existsIn (p : Params) : Loc → Bool
  | .freq x => decide (x < Config.kMax)
  | .node i w => decide (i < Config.nodeMax) && decide (w < 4)
  | .code x w => decide (x < Config.kMax) && decide (w < 4)
  | .sym i => decide (i < p.nMax)
  | .out i => decide (i < p.nMax)
  | .pbuf k => decide (k < 2 * p.wMax)
  | .id => true
  | .version => true
  | .param => true
  | .nMax => true
  | .wMax => true
  | .ctrl => true
  | .cmd => true
  | .status => true
  | .errCode => true
  | .errInfo => true
  | .inLen => true
  | .outLen => true
  | .totalBits => true
  | .wordCount => true
  | .numSyms => true
  | .nodeCount => true
  | .root => true
  | .appLo => true
  | .appHi => true
  | .reserved => true

/-- `addr(target)`: the host address of a location (R90). `PBUF[w].LO` is `.pbuf (2*w)`, `PBUF[w].HI` is
`.pbuf (2*w + 1)`. -/
def addrOf (l : Loc) : Addr := BitVec.ofNat 20 l.offset

/-- A target of a statement: a named location, or `@<offset>` (R90). -/
inductive Target where
  /-- A register, SYM[i], OUT[i], FREQ[x], PBUF[w].LO or .HI, NODE[i].Wk, CODE[x].Wk. -/
  | at (l : Loc)
  /-- `@<offset>`, a raw byte offset. -/
  | raw (a : Addr)
  deriving DecidableEq, Repr

/-- The host address of a target (R90). -/
def Target.addr : Target → Addr
  | .at l => addrOf l
  | .raw a => a

/-- The statements and pseudo-instructions of host-program assembly (R90, R91). How many polls of a WAIT still read
BUSY = 1 is the block's latency (R197), so a WAIT carries that number. -/
inductive Stmt where
  /-- `WR <target>, <imm32>`. -/
  | wr (t : Target) (v : Word)
  /-- `RD <target>`. -/
  | rd (t : Target)
  /-- `CMD <MNEMONIC>` and `CMD APPEND <len>`. -/
  | cmd (i : Instr)
  /-- `WAIT`, whose first `polls` reads of STATUS come before the ENGINE step. -/
  | wait (polls : Nat)
  /-- `RUN <MNEMONIC> [len]`. -/
  | run (i : Instr) (polls : Nat)
  /-- `LOADSYMS "<text>"`, the text as its symbols. -/
  | loadSyms (xs : List Byte)
  /-- `APPENDV <v64>, <len>`. -/
  | appendV (v : Dword) (len : BitVec 7) (polls : Nat)
  /-- `SETBITS <n>`. -/
  | setBits (n : Word)
  /-- `ACK`. -/
  | ack
  /-- `CHECK <target>, <imm32>`: a read; the expected value is an assertion of the listing. -/
  | check (t : Target) (v : Word)
  deriving DecidableEq, Repr

/-- The transaction of a CMD statement (R90). -/
def issue (i : Instr) : Event := .write (addrOf .cmd) (encode i)

/-- The transactions of a WAIT, with the ENGINE step after `polls` of them (R90, R197). -/
def waitEvents (polls : Nat) : List Event :=
  List.replicate polls (.read (addrOf .status)) ++ [.engine, .read (addrOf .status)]

/-- The writes of LOADSYMS from index `i` on (R91). -/
def symbolWrites : Nat → List Byte → List Event
  | _, [] => []
  | i, x :: xs => .write (addrOf (.sym i)) (x.setWidth 32) :: symbolWrites (i + 1) xs

/-- The bus transactions a statement stands for (R90, R91). -/
def Stmt.events : Stmt → List Event
  | .wr t v => [.write t.addr v]
  | .rd t => [.read t.addr]
  | .cmd i => [issue i]
  | .wait polls => waitEvents polls
  | .run i polls => issue i :: waitEvents polls
  | .loadSyms xs => symbolWrites 0 xs ++ [.write (addrOf .inLen) (BitVec.ofNat 32 xs.length)]
  | .appendV v len polls =>
    .write (addrOf .appLo) (v.extractLsb' 0 32) :: .write (addrOf .appHi) (v.extractLsb' 32 32) ::
      issue (.append len) :: waitEvents polls
  | .setBits n => [.write (addrOf .totalBits) n]
  | .ack => [.write (addrOf .status) 0x2#32]
  | .check t _ => [.read t.addr]

/-- The transactions of a program, in the order it is written. -/
def programEvents (p : List Stmt) : List Event := p.flatMap Stmt.events

end Sys2Proof.Machine
end

