-- ==== Sys2Proof/Safety.lean ====
section
/-! DEFINITION. What counts as a safe run, and the invariants and notions the statements use (R33 to R35, R49 to R52,
R87 to R89, R131). -/

namespace Sys2Proof.Machine

/-- A state is safe when its step gives a next state: the block has no fault and no stuck outcome (R88, R170). -/
def Safe (s : State) : Prop := ∃ t, step s = .next t

/-- The canonical form of every array: indices strictly rising and in range, no count of 0 listed in FREQ. -/
def Memory.wf (s : State) : Bool :=
  Store.rising s.symMem && Store.within s.params.nMax s.symMem &&
  (Store.rising s.freq && Store.within Config.kMax s.freq && Store.noZero s.freq) &&
  (Store.rising s.node && Store.within Config.nodeMax s.node) &&
  (Store.rising s.code && Store.within Config.kMax s.code) &&
  (Store.rising s.pbuf && Store.within (2 * s.params.wMax) s.pbuf) &&
  (Store.rising s.outMem && Store.within s.params.nMax s.outMem)

/-- The bounds of the registers, for legal capacities (R33, R34, R35, R38). -/
structure Bounds (s : State) : Prop where
  /-- R8, R9. -/
  params : s.params.legal = true
  /-- R33. -/
  inLen : s.inLen.toNat ≤ s.params.nMax
  /-- R34. -/
  outLen : s.outLen.toNat ≤ s.params.nMax
  /-- R35. -/
  totalBits : s.totalBits.toNat ≤ 64 * s.params.wMax
  /-- R38. -/
  nodeCount : s.nodeCount.toNat ≤ Config.nodeMax

/-- The command lifecycle: a pending command has neither completed nor failed (R87, R89), and ERR_INFO is 0 while
ERR_CODE is (R32). -/
structure Lifecycle (s : State) : Prop where
  /-- R87: acceptance cleared DONE. -/
  notDone : s.busy = true → s.done = false
  /-- R87: acceptance cleared ERR_CODE. -/
  noError : s.busy = true → s.errCode = .ok
  /-- R32. -/
  infoZero : s.errCode = .ok → s.errInfo = 0

/-- The sum of the counts of a Frequency Map (R49). -/
def totalCount (m : Store Word) : Nat :=
  ((List.range Config.kMax).map (fun x => (countAt m x).toNat)).sum

/-- The Frequency Map holds what a COUNT left: at most `N_MAX` symbols, and nothing while FREQ_VALID is 0
(R11, R30, R49, R120). -/
structure FreqOk (s : State) : Prop where
  /-- No COUNT has completed since reset or CLEAR: the map is empty. -/
  unset : s.freqValid = false → s.freq = []
  /-- The counts of a COUNT sum to its IN_LEN, which is at most `N_MAX`. -/
  total : totalCount s.freq ≤ s.params.nMax

/-- `i` is an internal node with child `c`. -/
def isParent (s : State) (c i : Nat) : Bool :=
  (s.nodeAt i).internal && (decide ((s.nodeAt i).left.toNat = c) || decide ((s.nodeAt i).right.toNat = c))

/-- The tree in NODE, NODE_COUNT and ROOT is the tree of the present symbols (R45, R50, R119). -/
structure TreeShape (s : State) : Prop where
  /-- NODE_COUNT = 2K - 1. -/
  size : s.nodeCount.toNat + 1 = 2 * s.numSyms
  /-- ROOT = NODE_COUNT - 1. -/
  root : s.root.toNat + 1 = s.nodeCount.toNat
  /-- Nodes 0..K-1 are leaves in ascending symbol order. -/
  leaves : ∀ j < s.numSyms,
    Store.find s.node j =
      some (leaf (BitVec.ofNat 8 ((presentSymbols s.freq).getD j 0)) (s.freqAt ((presentSymbols s.freq).getD j 0)))
  /-- Nodes K..2K-2 are internal, each after its two distinct children, with the sum of their weights. -/
  inner : ∀ i < s.nodeCount.toNat, s.numSyms ≤ i →
    Store.find s.node i = some (s.nodeAt i) ∧
    (s.nodeAt i).internal = true ∧ (s.nodeAt i).sym = 0 ∧
    (s.nodeAt i).left.toNat < i ∧ (s.nodeAt i).right.toNat < i ∧ (s.nodeAt i).left ≠ (s.nodeAt i).right ∧
    (s.nodeAt i).weight.toNat =
      (s.nodeAt (s.nodeAt i).left.toNat).weight.toNat + (s.nodeAt (s.nodeAt i).right.toNat).weight.toNat
  /-- Every node other than ROOT is the child of exactly one internal node. -/
  owned : ∀ c < s.nodeCount.toNat, c ≠ s.root.toNat →
    ((List.range s.nodeCount.toNat).filter (isParent s c)).length = 1

/-- While TREE_VALID = 1 the tree has its shape (R50). -/
def TreeOk (s : State) : Prop := s.treeValid = true → TreeShape s

/-- Code word `a` is a bit-prefix of code word `b` (R51). -/
def isPrefixOf (a b : CodeWord) : Prop :=
  a.len.toNat ≤ b.len.toNat ∧ b.value.toNat % 2 ^ a.len.toNat = a.value.toNat

/-- The Code Table: empty while TABLE_VALID is 0, code words of 1 to 64 bits with nothing above their length, and none a
prefix of another's (R46, R51). -/
structure TableOk (s : State) : Prop where
  /-- No table is stored. -/
  unset : s.tableValid = false → s.code = []
  /-- LEN is 1..64, and the bits of VALUE at and above LEN are 0 (R46). -/
  lengths : ∀ e ∈ s.code, 1 ≤ e.2.len.toNat ∧ e.2.len.toNat ≤ 64 ∧ e.2.value.toNat < 2 ^ e.2.len.toNat
  /-- No valid code word is a bit-prefix of another valid code word (R51). -/
  prefixFree : ∀ e ∈ s.code, ∀ f ∈ s.code, isPrefixOf e.2 f.2 → e.1 = f.1

/-- The bits of a code word, its bit 0 first (R131, R146). -/
def bitsOf (w : CodeWord) : List Bool :=
  (List.range w.len.toNat).map w.value.getLsbD

/-- The bits of the code word a symbol has, none if it has none. -/
def codeBits (s : State) (x : Byte) : List Bool :=
  match s.codeAt x.toNat with
  | none => []
  | some w => bitsOf w

/-- Where the path of bits `j, j+1, ...` of `v` leads from node `n` in `k` edges: right for a 1, left for a 0; none if it
runs past a leaf (R131). -/
def follow (nodes : Nat → Node) (v : Dword) : Nat → Nat → Nat → Option Nat
  | _, 0, n => some n
  | j, k + 1, n =>
    if (nodes n).internal then
      follow nodes v (j + 1) k (if v.getLsbD j then (nodes n).right.toNat else (nodes n).left.toNat)
    else none

/-- An event that is a host transaction (R60). -/
def Event.isAccess : Event → Bool
  | .read _ => true
  | .write _ _ => true
  | .reset => false
  | .engine => false

/-- The locations that hold no state a host write can change (R63, R67). -/
def Loc.readOnly : Loc → Bool
  | .ctrl => false
  | .status => false
  | l => !droppedWhileBusy l

/-- The errors a command can raise (R173). -/
def errorsOf : Instr → List ErrCode
  | .nop => []
  | .clear => []
  | .count => []
  | .build => [.noFreq, .invalidInput]
  | .gencode => [.noTree, .codeTooLong]
  | .pack => [.noTable, .lookupFailure, .pbufOverflow]
  | .encode => [.invalidInput, .noFreq, .noTree, .codeTooLong, .noTable, .lookupFailure, .pbufOverflow]
  | .decode => [.noTable, .corruptBuffer, .outOverflow]
  | .append _ => [.pbufOverflow]
  | .pbclr => []

end Sys2Proof.Machine
end

