-- ==== Sys2Proof/Certificates/Slice0/Obligations.lean ====
section
/-! DEFINITION. The statements about the model, for the provers. Each docstring names the rules it formalises. -/

open Sys2Proof Sys2Proof.Machine

/-! ## Command words -/

/-- The command words of R82, written out from the table, decode to their commands; APPEND at LEN 0, 2, 60 and 64. -/
def Obligations.SpecCommandWordsDecode : Prop :=
  decode 0x00000000#32 = .ok .nop ∧ decode 0x00000001#32 = .ok .clear ∧ decode 0x00000002#32 = .ok .count ∧
  decode 0x00000003#32 = .ok .build ∧ decode 0x00000004#32 = .ok .gencode ∧ decode 0x00000005#32 = .ok .pack ∧
  decode 0x00000006#32 = .ok .encode ∧ decode 0x00000007#32 = .ok .decode ∧
  decode 0x00000008#32 = .ok (.append 0) ∧ decode 0x00000208#32 = .ok (.append 2) ∧
  decode 0x00003C08#32 = .ok (.append 60) ∧ decode 0x00004008#32 = .ok (.append 64) ∧
  decode 0x00000009#32 = .ok .pbclr

/-- Decode and encode agree on every word and every command: a word decodes to a command exactly when the command is
well formed and encodes to that word (R80 to R85). -/
def Obligations.DecodeEncodeAgree : Prop :=
  ∀ (c : Word) (i : Instr), decode c = .ok i ↔ (i.wf = true ∧ encode i = c)

/-- R83, in the number of the word: a word is legal exactly when `c[31:15] = 0`, `c[7:0]` is in 0x00..0x09, and LEN is at
most 64 for opcode 0x08 and 0 for every other; and exactly the legal words decode to a command. -/
def Obligations.LegalWordsAreCommands : Prop :=
  ∀ c : Word,
    (legal c = true ↔
      (c.toNat / 2 ^ 15 = 0 ∧ c.toNat % 2 ^ 8 ≤ 0x09 ∧
        (if c.toNat % 2 ^ 8 = 0x08 then c.toNat / 2 ^ 8 % 2 ^ 7 ≤ 64 else c.toNat / 2 ^ 8 % 2 ^ 7 = 0))) ∧
    ((∃ i, decode c = .ok i) ↔ legal c = true)

/-- R84: the illegal words are those of opcode 0x0A..0xFF, of a nonzero RSVD field, of a nonzero LEN on a command other than
APPEND, or of an APPEND with LEN 65..127; performing one raises ILLEGAL_CMD with ERR_INFO the whole word, and does nothing
else; the ENGINE step then completes it (R89). When the ENGINE's turn comes (the next event, or no event left) is the model's
scheduling, log 6. -/
def Obligations.IllegalWordOnlyReports : Prop :=
  (∀ c : Word, legal c = false ↔
    (0x0A ≤ c.toNat % 2 ^ 8 ∨ c.toNat / 2 ^ 15 ≠ 0 ∨ (c.toNat % 2 ^ 8 ≠ 0x08 ∧ c.toNat / 2 ^ 8 % 2 ^ 7 ≠ 0) ∨
      (c.toNat % 2 ^ 8 = 0x08 ∧ 65 ≤ c.toNat / 2 ^ 8 % 2 ^ 7))) ∧
  (∀ (s : State) (c : Word), legal c = false → s.pending = some c →
    (s.inputs = [] → step s = .next { s with errCode := .illegalCmd, errInfo := c, pending := none, done := true }) ∧
    (∀ rest, s.inputs = .engine :: rest →
      step s = .next { s with inputs := rest, errCode := .illegalCmd, errInfo := c, pending := none, done := true }))

/-! ## The step and the command lifecycle -/

/-- When the ENGINE's turn comes and the pending word decodes to `i`, the step is `exec i` followed by completion
(R85, R88, R89): with no event left, with the ENGINE's turn as the next event, and for a word put in place by
`withFetchWord`. That the turn comes so, by the list of events or at its end, is the model's choice, log 6; that
`withFetchWord` stands for an accepted write of CMD (R87) with the ENGINE's turn next is the model's too, log 9. -/
def Obligations.StepRunsDecodedCommand : Prop :=
  (∀ (s t : State) (c : Word) (i : Instr), s.pending = some c → decode c = .ok i →
    (s.inputs = [] → exec i s = .next t → step s = .next { t with pending := none, done := true }) ∧
    (∀ rest, s.inputs = .engine :: rest → exec i { s with inputs := rest } = .next t →
      step s = .next { t with pending := none, done := true })) ∧
  (∀ (s t : State) (i : Instr), i.wf = true →
    exec i { s with pending := some (encode i), done := false, errCode := .ok, errInfo := 0 } = .next t →
    step (s.withFetchWord 32 (encode i).toNat) = .next { t with pending := none, done := true })

/-- R60, R73 item 1, R190: the events happen one at a time in the order they are issued, a read, a write and the reset input
as the host interface says; with nothing pending the ENGINE's turn, or no event left, does nothing (R88, R192). That events
stand in a list, one a step, and what the step is when it is empty, is the model's choice, log 6. -/
def Obligations.EventsHappenInOrder : Prop :=
  ∀ (s : State) (rest : List Event),
    (∀ a, s.inputs = .read a :: rest → step s = .next (hostRead a { s with inputs := rest })) ∧
    (∀ a v, s.inputs = .write a v :: rest → step s = .next (hostWrite a v { s with inputs := rest })) ∧
    (s.inputs = .reset :: rest → step s = .next (applyReset { s with inputs := rest })) ∧
    (s.pending = none → s.inputs = .engine :: rest → step s = .next { s with inputs := rest }) ∧
    (s.pending = none → s.inputs = [] → step s = .next s)

/-- The block has no fault and no stuck outcome: every state has a next state (R88, R170; 93_implementation_defined.md). -/
def Obligations.EveryStateIsSafe : Prop :=
  ∀ s : State, Safe s

/-- R87, R177: a write to CMD while BUSY = 0 is accepted, which clears DONE, ERR_CODE and ERR_INFO; while BUSY = 1 it is
dropped and sets OVERRUN. -/
def Obligations.CommandWriteIsAccepted : Prop :=
  ∀ (s : State) (a : Addr) (c : Word) (rest : List Event), a.toNat / 4 = 0x018 / 4 → s.inputs = .write a c :: rest →
    (s.busy = true → step s = .next { s with inputs := rest, overrun := true }) ∧
    (s.busy = false →
      step s = .next
        { s with inputs := rest, pending := some c, done := false, errCode := .ok, errInfo := 0 })

/-- R89, R180: whatever the pending word, the ENGINE's turn completes it: PENDING is none, BUSY 0, DONE 1, and `irq` is
IRQ_EN. When the ENGINE's turn comes (the next event, or no event left) is the model's scheduling, log 6. -/
def Obligations.EveryCommandCompletes : Prop :=
  ∀ (s : State) (c : Word), s.pending = some c → (s.inputs = [] ∨ s.inputs.head? = some .engine) →
    ∃ t, step s = .next t ∧ t.pending = none ∧ t.busy = false ∧ t.done = true ∧ t.irq = s.irqEn

/-- R88, R197: a pending command completes after any number of host transactions, which leave it pending. The rules say that
the ENGINE step is eventually taken; that it is the very step after the last transaction is the model's choice, log 6. -/
def Obligations.PendingCommandEventuallyCompletes : Prop :=
  ∀ (s : State) (c : Word), s.pending = some c → (∀ e ∈ s.inputs, e.isAccess = true) →
    (∀ k ≤ s.inputs.length, ∃ u, Host.Core.run Sys2Proof.core k s = .next u ∧ State.pending u = some c) ∧
    ∃ t, Host.Core.run Sys2Proof.core (s.inputs.length + 1) s = .next t ∧
      State.pending t = none ∧ State.done t = true ∧ State.inputs t = []

/-- R88, R194: what the host does while BUSY = 1 changes nothing of what the command computes; only CTRL, DONE and OVERRUN
and the model's own bookkeeping of reads show it. -/
def Obligations.BusyCommandIgnoresTheHost : Prop :=
  ∀ (i : Instr) (s t : State) (a : Addr), s.busy = true → exec i s = .next t →
    (∀ v, exec i (hostWrite a v s) =
      .next { t with irqEn := (hostWrite a v s).irqEn, done := (hostWrite a v s).done,
                     overrun := (hostWrite a v s).overrun }) ∧
    exec i (hostRead a s) = .next { t with replies := (hostRead a s).replies, draws := (hostRead a s).draws }

/-- R57, R180: `irq` is the level DONE and IRQ_EN; completion raises DONE, writing 1 to STATUS.DONE or accepting a command
clears it, and clearing IRQ_EN masks `irq` without clearing DONE. -/
def Obligations.InterruptIsTheDoneLevel : Prop :=
  ∀ (s : State) (a : Addr) (v : Word),
    s.irq = (s.done && s.irqEn) ∧ (complete s).irq = s.irqEn ∧ (accept v s).irq = false ∧
    (a.toNat / 4 = 0x01C / 4 → v.getLsbD 1 = true → (hostWrite a v s).irq = false) ∧
    (a.toNat / 4 = 0x014 / 4 → v.getLsbD 0 = false → (hostWrite a v s).irq = false ∧ (hostWrite a v s).done = s.done)

/-! ## Reset -/

/-- R58, R192: the values after reset, as the state holds them and as the host reads them; SYM_MEM and PBUF hold free values,
NODE and OUT_MEM are not observable, and the block does nothing by itself. -/
def Obligations.ResetGivesItsValues : Prop :=
  readLoc State.reset .id = 0x48554646#32 ∧ readLoc State.reset .version = 1 ∧
  readLoc State.reset .param = 0x00404008#32 ∧ readLoc State.reset .nMax = 4096 ∧ readLoc State.reset .wMax = 4096 ∧
  readLoc State.reset .ctrl = 0 ∧ readLoc State.reset .status = 0 ∧ readLoc State.reset .errCode = 0 ∧
  readLoc State.reset .errInfo = 0 ∧ readLoc State.reset .inLen = 0 ∧ readLoc State.reset .outLen = 0 ∧
  readLoc State.reset .totalBits = 0 ∧ readLoc State.reset .wordCount = 0 ∧ readLoc State.reset .numSyms = 0 ∧
  readLoc State.reset .nodeCount = 0 ∧ readLoc State.reset .root = 0 ∧ readLoc State.reset .appLo = 0 ∧
  readLoc State.reset .appHi = 0 ∧
  (∀ x, State.reset.freqAt x = 0 ∧ State.reset.codeAt x = none) ∧
  (∀ i w, readLoc State.reset (.node i w) = 0 ∧ readLoc State.reset (.out i) = 0) ∧
  (∀ i, State.reset.symAt i = Config.freeSym 0 i ∧ State.reset.pbufHalf i = Config.freePbuf 0 i) ∧
  State.reset.pending = none ∧ State.reset.lq = [] ∧ State.reset.iq = [] ∧ State.reset.stack = [] ∧
  State.reset.cand.len = 0 ∧ State.reset.irq = false ∧ step State.reset = .next State.reset

/-- R190, R191: the reset input gives every element of state its reset value, whatever was pending; a pending command never
completes, and SYM_MEM and PBUF are drawn anew. The parameters are no state, and the model's own fields go on. -/
def Obligations.ResetAbandonsThePendingCommand : Prop :=
  ∀ (s : State) (rest : List Event), s.inputs = .reset :: rest →
    ∃ t, step s = .next t ∧
      t = { State.reset with params := s.params, inputs := rest, replies := s.replies, resets := s.resets + 1,
                             draws := s.draws } ∧
      (∀ i, t.symAt i = Config.freeSym (s.resets + 1) i ∧ t.pbufHalf i = Config.freePbuf (s.resets + 1) i)

/-! ## The host interface -/

/-- R61, R62, R68: an address names a location that is not reserved exactly when the location exists in the block and stands
at the aligned word of the address. -/
def Obligations.AddressMapNamesEachLocation : Prop :=
  ∀ (p : Params) (a : Addr) (l : Loc), p.legal = true → l ≠ .reserved →
    (locate p a = l ↔ (l.existsIn p = true ∧ l.offset = 4 * (a.toNat / 4)))

/-- R23 to R41: what the host reads of each register while BUSY = 0; ERR_CODE reads the number R171 gives the error (R31). -/
def Obligations.IdleRegisterReads : Prop :=
  ∀ s : State, s.busy = false →
    let reads (off : Nat) (v : Word) : Prop := hostRead (BitVec.ofNat 20 off) s = { s with replies := v :: s.replies }
    reads 0x000 0x48554646#32 ∧ reads 0x004 0x00000001#32 ∧ reads 0x008 0x00404008#32 ∧
    reads 0x00C (BitVec.ofNat 32 s.params.nMax) ∧ reads 0x010 (BitVec.ofNat 32 s.params.wMax) ∧
    reads 0x014 (if s.irqEn then 1 else 0) ∧ reads 0x018 0 ∧
    reads 0x01C (BitVec.ofNat 32 ((if s.done then 2 else 0) + (if s.errCode = .ok then 0 else 4) +
      (if s.freqValid then 8 else 0) + (if s.treeValid then 16 else 0) + (if s.tableValid then 32 else 0) +
      (if s.overrun then 64 else 0))) ∧
    reads 0x020 (match s.errCode with
      | .ok => 0x00
      | .illegalCmd => 0x01
      | .invalidInput => 0x02
      | .lookupFailure => 0x03
      | .corruptBuffer => 0x04
      | .noTable => 0x05
      | .noFreq => 0x06
      | .noTree => 0x07
      | .pbufOverflow => 0x08
      | .outOverflow => 0x09
      | .codeTooLong => 0x0A) ∧ reads 0x024 s.errInfo ∧ reads 0x028 s.inLen ∧ reads 0x02C s.outLen ∧
    reads 0x030 s.totalBits ∧ reads 0x034 (BitVec.ofNat 32 ((s.totalBits.toNat + 63) / 64)) ∧
    reads 0x038 (BitVec.ofNat 32 ((List.range 256).filter (fun x => decide (1 ≤ (s.freqAt x).toNat))).length) ∧
    reads 0x03C s.nodeCount ∧ reads 0x040 (s.root.setWidth 32) ∧ reads 0x044 s.appLo ∧ reads 0x048 s.appHi

/-- R66, R67: what the host reads of each window while BUSY = 0; NODE entries at or above NODE_COUNT and OUT_MEM entries at or
above OUT_LEN read 0; a half of PBUF reads as it stands, but in the last word a bit at or above TOTAL_BITS that no append
wrote is the free value of that read (93 item 1). The draw and the marks of what an append wrote are the model's, log 19. -/
def Obligations.IdleWindowReads : Prop :=
  ∀ s : State, s.busy = false → s.params.legal = true →
    let reads (off : Nat) (v : Word) : Prop := hostRead (BitVec.ofNat 20 off) s = { s with replies := v :: s.replies }
    (∀ x < 256, reads (0x01000 + 4 * x) (s.freqAt x)) ∧
    (∀ i < 511,
      let n := s.nodeAt i
      let shown (v : Word) : Word := if i < s.nodeCount.toNat then v else 0
      reads (0x02000 + 16 * i) (shown (BitVec.ofNat 32 (n.sym.toNat + if n.internal then 256 else 0))) ∧
      reads (0x02004 + 16 * i) (shown n.weight) ∧ reads (0x02008 + 16 * i) (shown (n.left.setWidth 32)) ∧
      reads (0x0200C + 16 * i) (shown (n.right.setWidth 32))) ∧
    (∀ x < 256, ∀ w, s.codeAt x = some w →
      reads (0x04000 + 16 * x) (w.value.extractLsb' 0 32) ∧ reads (0x04004 + 16 * x) (w.value.extractLsb' 32 32) ∧
      reads (0x04008 + 16 * x) (BitVec.ofNat 32 (w.len.toNat + 256)) ∧ reads (0x0400C + 16 * x) 0) ∧
    (∀ x < 256, s.codeAt x = none → ∀ k < 4, reads (0x04000 + 16 * x + 4 * k) 0) ∧
    (∀ i < s.params.nMax, reads (0x10000 + 4 * i) ((s.symAt i).setWidth 32) ∧
      reads (0x20000 + 4 * i) (if i < s.outLen.toNat then (s.outAt i).setWidth 32 else 0)) ∧
    (∀ k < 2 * s.params.wMax,
      let shown (j : Nat) : Prop :=
        k / 2 + 1 ≠ s.wordCount ∨ 32 * k + j < s.totalBits.toNat ∨ s.pbufAppended (32 * k + j) = true
      ∃ v d, hostRead (BitVec.ofNat 20 (0x40000 + 4 * k)) s = { s with replies := v :: s.replies, draws := d } ∧
        (∀ j < 32, (shown j → v.getLsbD j = (s.pbufWord (k / 2)).getLsbD (32 * (k % 2) + j)) ∧
          (¬ shown j → v.getLsbD j = (Config.freeRead s.draws).getLsbD j)) ∧
        ((∀ j < 32, shown j) → d = s.draws) ∧ ((∃ j < 32, ¬ shown j) → d = s.draws + 1))

/-- R194, R73 item 5: while BUSY = 1 a read of the constants or CTRL, and STATUS's bits BUSY, DONE and OVERRUN, are normal;
every other bit of every other read is the free value of that read, and each read takes a fresh one. Derived: that a read of
a reserved address is such a read is log 5. -/
def Obligations.BusyReadsAreFree : Prop :=
  ∀ (s : State) (a : Addr), s.busy = true →
    ∃ v : Word, hostRead a s = { s with replies := v :: s.replies, draws := s.draws + 1 } ∧
      (a.toNat / 4 ≤ 5 → v = readLoc s (locate s.params a)) ∧
      (a.toNat / 4 = 7 → v.getLsbD 0 = true ∧ v.getLsbD 1 = s.done ∧ v.getLsbD 6 = s.overrun) ∧
      (6 ≤ a.toNat / 4 → ∀ k < 32, ¬ (a.toNat / 4 = 7 ∧ (k = 0 ∨ k = 1 ∨ k = 6)) →
        v.getLsbD k = (Config.freeRead s.draws).getLsbD k)

/-- R179: the host writes made while BUSY = 1 to CMD, IN_LEN, TOTAL_BITS, APP_LO, APP_HI, SYM_MEM or PBUF are dropped and set
OVERRUN, changing nothing else (neither ERR_CODE nor `irq`); and OVERRUN is cleared only by writing 1 to STATUS bit 6 or by
reset. -/
def Obligations.BusyWritesAreDropped : Prop :=
  (∀ (s : State) (a : Addr) (v : Word), s.busy = true →
    (a.toNat / 4 = 0x018 / 4 ∨ a.toNat / 4 = 0x028 / 4 ∨ a.toNat / 4 = 0x030 / 4 ∨ a.toNat / 4 = 0x044 / 4 ∨
      a.toNat / 4 = 0x048 / 4 ∨
      (0x10000 ≤ a.toNat ∧ a.toNat < 0x20000 ∧ (a.toNat - 0x10000) / 4 < s.params.nMax) ∨
      (0x40000 ≤ a.toNat ∧ a.toNat < 0x80000 ∧ (a.toNat - 0x40000) / 8 < s.params.wMax)) →
    hostWrite a v s = { s with overrun := true }) ∧
  (∀ s t : State, s.overrun = true → step s = .next t → t.overrun = false →
    (∃ a v rest, s.inputs = .write a v :: rest ∧ a.toNat / 4 = 0x01C / 4 ∧ v.getLsbD 6 = true) ∨
    (∃ rest, s.inputs = .reset :: rest))

/-- R28, R30, R194: writes to CTRL and STATUS take effect whether or not BUSY is 1, and act only on IRQ_EN, and by writing 1 on
DONE and OVERRUN. -/
def Obligations.ControlAndStatusWrites : Prop :=
  ∀ (s : State) (a : Addr) (v : Word),
    (a.toNat / 4 = 0x014 / 4 → hostWrite a v s = { s with irqEn := v.getLsbD 0 }) ∧
    (a.toNat / 4 = 0x01C / 4 →
      hostWrite a v s =
        { s with done := (if v.getLsbD 1 then false else s.done)
                 overrun := (if v.getLsbD 6 then false else s.overrun) })

/-- R33, R35, R40, R41: host writes of IN_LEN, TOTAL_BITS, APP_LO and APP_HI while BUSY = 0: the first two store the clamped
value, and nothing else changes (R196: no PBUF word is zeroed). -/
def Obligations.IdleRegisterWritesStore : Prop :=
  ∀ (s : State) (a : Addr) (v : Word), s.busy = false → s.params.legal = true →
    (a.toNat / 4 = 0x028 / 4 →
      ∃ n, n.toNat = min v.toNat s.params.nMax ∧ hostWrite a v s = { s with inLen := n }) ∧
    (a.toNat / 4 = 0x030 / 4 →
      ∃ n, n.toNat = min v.toNat (64 * s.params.wMax) ∧ hostWrite a v s = { s with totalBits := n }) ∧
    (a.toNat / 4 = 0x044 / 4 → hostWrite a v s = { s with appLo := v }) ∧
    (a.toNat / 4 = 0x048 / 4 → hostWrite a v s = { s with appHi := v })

/-- R64, R66: host writes of SYM_MEM and PBUF while BUSY = 0: the symbol of bits 7..0, or that 32-bit half only; every other
element stays as it was. The half loses the marks of what an append wrote in it, the model's own (log 19). -/
def Obligations.IdleWindowWritesStore : Prop :=
  ∀ (s : State) (v : Word), s.busy = false → s.params.legal = true →
    (∀ i < s.params.nMax, ∃ t, hostWrite (BitVec.ofNat 20 (0x10000 + 4 * i)) v s = t ∧
      t = { s with symMem := t.symMem } ∧ (t.symAt i).toNat = v.toNat % 256 ∧ ∀ j, j ≠ i → t.symAt j = s.symAt j) ∧
    (∀ w < s.params.wMax,
      (∃ t, hostWrite (BitVec.ofNat 20 (0x40000 + 8 * w)) v s = t ∧ t = { s with pbuf := t.pbuf } ∧
        t.pbufWord w = (s.pbufWord w).extractLsb' 32 32 ++ v ∧ (∀ u, u ≠ w → t.pbufWord u = s.pbufWord u) ∧
        ∀ p, t.pbufAppended p = (s.pbufAppended p && decide (p / 32 ≠ 2 * w))) ∧
      (∃ t, hostWrite (BitVec.ofNat 20 (0x40004 + 8 * w)) v s = t ∧ t = { s with pbuf := t.pbuf } ∧
        t.pbufWord w = v ++ (s.pbufWord w).extractLsb' 0 32 ∧ (∀ u, u ≠ w → t.pbufWord u = s.pbufWord u) ∧
        ∀ p, t.pbufAppended p = (s.pbufAppended p && decide (p / 32 ≠ 2 * w + 1))))

/-- R63, R67: a write to a read-only or reserved address is ignored at any time, and a read of a reserved address returns 0
while BUSY = 0. -/
def Obligations.ReadOnlyAndReservedAddresses : Prop :=
  ∀ (s : State) (a : Addr) (v : Word),
    ((locate s.params a).readOnly = true → hostWrite a v s = s) ∧
    (s.busy = false → locate s.params a = .reserved → hostRead a s = { s with replies := 0 :: s.replies })

/-- R70: no read has a side effect on the block: the reply and the draw are the model's own fields. -/
def Obligations.ReadsHaveNoSideEffect : Prop :=
  ∀ (s : State) (a : Addr),
    hostRead a s = { s with replies := (hostRead a s).replies, draws := (hostRead a s).draws }

/-- R91: the transactions of LOADSYMS, run one a step on an idle block, load the text: SYM_MEM reads as it and IN_LEN is its
length, and nothing else changes. -/
def Obligations.LoadSymsLoadsTheText : Prop :=
  ∀ (s : State) (xs : List Byte), s.busy = false → s.params.legal = true → xs.length ≤ s.params.nMax →
    s.inputs = (Stmt.loadSyms xs).events →
    ∃ t, Host.Core.run Sys2Proof.core (xs.length + 1) s = .next t ∧
      t = { s with inputs := [], symMem := State.symMem t, inLen := BitVec.ofNat 32 xs.length } ∧
      State.inputSymbols t = xs ∧ ∀ j, xs.length ≤ j → State.symAt t j = s.symAt j

/-! ## What every command leaves -/

/-- R33, R40, R41, R43, R58: no command writes the host's registers and SYM_MEM, CTRL, OVERRUN or the parameters; BUSY and DONE
are the lifecycle's alone. -/
def Obligations.CommandsKeepTheHostsState : Prop :=
  ∀ (i : Instr) (s t : State), exec i s = .next t →
    t.params = s.params ∧ t.irqEn = s.irqEn ∧ t.done = s.done ∧ t.overrun = s.overrun ∧ t.inLen = s.inLen ∧
    t.appLo = s.appLo ∧ t.appHi = s.appHi ∧ t.symMem = s.symMem ∧ t.pending = s.pending ∧ t.inputs = s.inputs ∧
    t.replies = s.replies ∧ t.resets = s.resets ∧ t.draws = s.draws

/-- R173: the errors a command can raise, and what it does to FREQ_VALID, TREE_VALID and TABLE_VALID. -/
def Obligations.CommandErrorsAndFlags : Prop :=
  ∀ (i : Instr) (s t : State), s.errCode = .ok → exec i s = .next t →
    ((t.errCode = .ok ∧ t.errInfo = s.errInfo) ∨ t.errCode ∈ errorsOf i) ∧
    (match i with
      | .nop => t.freqValid = s.freqValid ∧ t.treeValid = s.treeValid ∧ t.tableValid = s.tableValid
      | .clear => t.freqValid = false ∧ t.treeValid = false ∧ t.tableValid = false
      | .count => t.freqValid = true ∧ t.treeValid = false ∧ t.tableValid = s.tableValid
      | .build =>
        t.freqValid = s.freqValid ∧ t.tableValid = s.tableValid ∧
        (t.errCode = .ok → t.treeValid = true) ∧ (t.errCode = .noFreq → t.treeValid = s.treeValid) ∧
        (t.errCode = .invalidInput → t.treeValid = false)
      | .gencode =>
        t.freqValid = s.freqValid ∧ t.treeValid = s.treeValid ∧
        (t.errCode = .ok → t.tableValid = true) ∧ (t.errCode = .noTree → t.tableValid = s.tableValid) ∧
        (t.errCode = .codeTooLong → t.tableValid = false)
      | .pack => t.freqValid = s.freqValid ∧ t.treeValid = s.treeValid ∧ t.tableValid = s.tableValid
      | .encode => t.errCode = .ok → (t.freqValid = true ∧ t.treeValid = true ∧ t.tableValid = true)
      | .decode => t.freqValid = s.freqValid ∧ t.treeValid = s.treeValid ∧ t.tableValid = s.tableValid
      | .append _ => t.freqValid = s.freqValid ∧ t.treeValid = s.treeValid ∧ t.tableValid = s.tableValid
      | .pbclr => t.freqValid = s.freqValid ∧ t.treeValid = s.treeValid ∧ t.tableValid = s.tableValid)

/-- R115, R130, R144, R145, R150, R176: a command whose precondition fails changes ERR_CODE and ERR_INFO only. -/
def Obligations.PreconditionErrorsChangeNothingElse : Prop :=
  ∀ s : State,
    (s.freqValid = false → exec .build s = .next { s with errCode := .noFreq, errInfo := 0 }) ∧
    (s.treeValid = false → exec .gencode s = .next { s with errCode := .noTree, errInfo := 0 }) ∧
    (s.tableValid = false → exec .pack s = .next { s with errCode := .noTable, errInfo := 0 }) ∧
    (s.tableValid = false → exec .decode s = .next { s with errCode := .noTable, errInfo := 0 }) ∧
    (s.inLen = 0 → exec .encode s = .next { s with errCode := .invalidInput, errInfo := 0 })

/-! ## NOP, CLEAR, PBCLR -/

/-- R160: NOP, the word 0x00000000, does nothing but the command lifecycle: written to an idle block, its acceptance clears
ERR_CODE and ERR_INFO and its completion sets DONE; written while BUSY = 1 it is dropped and sets OVERRUN. That
the ENGINE's turn comes in the step after the write, when no event is left, is the model's scheduling, log 6. -/
def Obligations.NopDoesNothing : Prop :=
  decode 0x00000000#32 = .ok .nop ∧ (∀ s : State, exec .nop s = .next s) ∧
  (∀ (s : State) (a : Addr), a.toNat / 4 = 0x018 / 4 → s.busy = false → s.inputs = [.write a 0x00000000#32] →
    Host.Core.run Sys2Proof.core 2 s =
      .next ({ s with inputs := [], pending := none, done := true, errCode := .ok, errInfo := 0 } : State)) ∧
  (∀ (s : State) (a : Addr) (rest : List Event), a.toNat / 4 = 0x018 / 4 → s.busy = true →
    s.inputs = .write a 0x00000000#32 :: rest → step s = .next { s with inputs := rest, overrun := true })

/-- R161: CLEAR, the word 0x00000001, discards FREQ, CODE, the tree, the packed buffer and the output, clears the three VALID flags, and changes
nothing else; after it BUILD, GENCODE, PACK and DECODE raise NO_FREQ, NO_TREE, NO_TABLE and NO_TABLE. -/
def Obligations.ClearDiscardsDerivedObjects : Prop :=
  decode 0x00000001#32 = .ok .clear ∧ ∀ s : State, ∃ t, exec .clear s = .next t ∧
    t = { s with freq := t.freq, code := t.code, nodeCount := 0, root := 0, totalBits := 0, outLen := 0,
                 freqValid := false, treeValid := false, tableValid := false } ∧
    (∀ x, t.freqAt x = 0 ∧ t.codeAt x = none) ∧ t.numSyms = 0 ∧ t.wordCount = 0 ∧
    exec .build t = .next { t with errCode := .noFreq, errInfo := 0 } ∧
    exec .gencode t = .next { t with errCode := .noTree, errInfo := 0 } ∧
    exec .pack t = .next { t with errCode := .noTable, errInfo := 0 } ∧
    exec .decode t = .next { t with errCode := .noTable, errInfo := 0 }

/-- R143: PBCLR, the word 0x00000009, sets TOTAL_BITS to 0, so WORD_COUNT is 0, and changes no PBUF word and nothing else; the next append zeroes
PBUF[0] (R141). -/
def Obligations.PbclrEmptiesTheBuffer : Prop :=
  decode 0x00000009#32 = .ok .pbclr ∧ ∀ s : State, exec .pbclr s = .next { s with totalBits := 0 } ∧
    State.wordCount { s with totalBits := 0 } = 0 ∧
    (∀ b, (appendBit b { s with totalBits := 0 }).pbufWord 0 = if b then 1 else 0)

/-! ## COUNT -/

/-- R100: COUNT, the word 0x00000002, puts in FREQ how often each symbol occurs in `SYM_MEM[0 .. IN_LEN-1]`, sets FREQ_VALID, clears TREE_VALID, and
writes nothing else. -/
def Obligations.CountGivesTheFrequencyMap : Prop :=
  decode 0x00000002#32 = .ok .count ∧ ∀ s : State, ∃ t, exec .count s = .next t ∧
    t = { s with freq := t.freq, freqValid := true, treeValid := false } ∧
    (∀ x < 256, (t.freqAt x).toNat =
      ((List.range s.inLen.toNat).filter (fun i => decide ((s.symAt i).toNat = x))).length)

/-- R49: after COUNT the counts sum to IN_LEN, and exactly the symbols that occur in the input have a count of at least 1. -/
def Obligations.CountsSumToInputLength : Prop :=
  ∀ s t : State, exec .count s = .next t →
    ((List.range 256).map (fun x => (t.freqAt x).toNat)).sum = s.inLen.toNat ∧
    (∀ x < 256, 1 ≤ (t.freqAt x).toNat ↔ ∃ i < s.inLen.toNat, (s.symAt i).toNat = x)

/-! ## BUILD -/

/-- R111, R112: the sort gives a permutation that ascends by weight, for any weights and any sequence. -/
def Obligations.SortAscendsByWeight : Prop :=
  ∀ (weight : Nat → Word) (v : List Nat),
    (qsort weight v.length v).Perm v ∧
    (qsort weight v.length v).Pairwise (fun a b => (weight a).toNat ≤ (weight b).toNat)

/-- R113: TAKE_MIN: the only queue that holds a node, or the smaller front, and the internal queue on a tie. -/
def Obligations.TakeMinPrefersTheInternalQueue : Prop :=
  ∀ (weight : Nat → Word) (a b : Nat) (lq iq : List Nat),
    takeMin weight [] (b :: iq) = some (b, [], iq) ∧ takeMin weight (a :: lq) [] = some (a, lq, []) ∧
    ((weight a).toNat < (weight b).toNat → takeMin weight (a :: lq) (b :: iq) = some (a, lq, b :: iq)) ∧
    ((weight b).toNat ≤ (weight a).toNat → takeMin weight (a :: lq) (b :: iq) = some (b, a :: lq, iq))

/-- R116, R115: one turn of the merge loop takes two nodes by TAKE_MIN, and the new internal node at M has the first as LEFT, the
second as RIGHT, SYM 0 and the sum of their weights; it goes to the end of IQ, M grows by 1 and no other node changes. The
condition that indices fit in 9 bits and the sum in 32 is what R10 and R120 give. -/
def Obligations.MergeMakesAnInternalNode : Prop :=
  ∀ (r : Nat) (f : Forest) (a b : Nat) (lq1 iq1 lq2 iq2 : List Nat),
    let weight := fun i => (arenaAt r f.node i).weight
    takeMin weight f.lq f.iq = some (a, lq1, iq1) → takeMin weight lq1 iq1 = some (b, lq2, iq2) →
    a < 511 → b < 511 → (weight a).toNat + (weight b).toNat < 2 ^ 32 →
    ∃ g, mergeOnce r f = some g ∧ g.lq = lq2 ∧ g.iq = iq2 ++ [f.next] ∧ g.next = f.next + 1 ∧
      (arenaAt r g.node f.next).internal = true ∧ (arenaAt r g.node f.next).sym = 0 ∧
      (arenaAt r g.node f.next).left.toNat = a ∧ (arenaAt r g.node f.next).right.toNat = b ∧
      (arenaAt r g.node f.next).weight.toNat = (weight a).toNat + (weight b).toNat ∧
      ∀ i, i ≠ f.next → arenaAt r g.node i = arenaAt r f.node i

/-- R117, R121: from the sorted leaves on, after any number of merges, both queues are non-decreasing in weight and TAKE_MIN
takes a node of least weight among all nodes left; and every merge keeps two nodes to take while two are left. -/
def Obligations.QueuesStayNonDecreasing : Prop :=
  ∀ (s : State) (n : Nat) (f : Forest), 2 ≤ s.numSyms → totalCount s.freq < 2 ^ 32 →
    (fun o : Option Forest => o.bind (mergeOnce s.resets))^[n]
      (some { node := (buildLeaves s).node, lq := sortedLeaves (buildLeaves s) s.numSyms, iq := [], next := s.numSyms }) =
        some f →
    let weight := fun i => (arenaAt s.resets f.node i).weight.toNat
    f.lq.Pairwise (fun a b => weight a ≤ weight b) ∧ f.iq.Pairwise (fun a b => weight a ≤ weight b) ∧
    f.lq.length + f.iq.length + n = s.numSyms ∧
    (∀ a lq iq, takeMin (fun i => (arenaAt s.resets f.node i).weight) f.lq f.iq = some (a, lq, iq) →
      ∀ b ∈ f.lq ++ f.iq, weight a ≤ weight b) ∧
    (2 ≤ f.lq.length + f.iq.length → (mergeOnce s.resets f).isSome = true)

/-- R115, R118, R176: with FREQ_VALID and no present symbol, BUILD raises INVALID_INPUT and leaves TREE_VALID, NODE_COUNT and
ROOT 0. -/
def Obligations.BuildRejectsTheEmptyMap : Prop :=
  ∀ s : State, s.freqValid = true → s.numSyms = 0 →
    exec .build s =
      .next { s with treeValid := false, nodeCount := 0, root := 0, errCode := .invalidInput, errInfo := 0 }

/-- R118: with one present symbol BUILD makes the one-leaf tree NODE[0], ROOT 0, NODE_COUNT 1, and writes no other node. -/
def Obligations.BuildOfOneSymbol : Prop :=
  ∀ (s : State) (x : Nat), s.freqValid = true → presentSymbols s.freq = [x] →
    ∃ t, exec .build s = .next t ∧
      t = { s with node := t.node, nodeCount := 1, root := 0, treeValid := true, lq := [0], iq := [] } ∧
      t.nodeAt 0 = { internal := false, sym := BitVec.ofNat 8 x, weight := s.freqAt x, left := 0, right := 0 } ∧
      ∀ i, i ≠ 0 → t.nodeAt i = s.nodeAt i

/-- R50, R115, R117, R119, R120: with two or more present symbols BUILD makes their tree: 2K-1 nodes in the layout of R119, ROOT
the last, the root's weight the sum of the counts; nodes at or above NODE_COUNT and all other state stay, and the queues end
with the root alone. -/
def Obligations.BuildMakesTheTree : Prop :=
  ∀ s : State, s.freqValid = true → 2 ≤ s.numSyms → totalCount s.freq < 2 ^ 32 →
    ∃ t, exec .build s = .next t ∧
      t = { s with node := t.node, nodeCount := t.nodeCount, root := t.root, treeValid := true, lq := [],
                   iq := [t.root.toNat] } ∧
      TreeShape t ∧ (t.nodeAt t.root.toNat).weight.toNat = totalCount s.freq ∧
      (t.nodeAt t.root.toNat).internal = true ∧
      ∀ i, t.nodeCount.toNat ≤ i → t.nodeAt i = s.nodeAt i

/-! ## GENCODE -/

/-- R132: the table of a one-leaf tree holds that leaf's symbol with `(VALUE 0, LEN 1)` and nothing else. -/
def Obligations.GencodeOfOneLeaf : Prop :=
  ∀ s : State, s.treeValid = true → (s.nodeAt s.root.toNat).internal = false →
    ∃ t, exec .gencode s = .next t ∧ t = { s with code := t.code, tableValid := true } ∧
      ∀ x, t.codeAt x = if x = (s.nodeAt s.root.toNat).sym.toNat then some { len := 1, value := 0 } else none

/-- R130, R131, R134 items 1 and 3: on a tree of its shape with no internal node at depth 64, GENCODE records exactly the
root-to-leaf paths: a symbol has code word `w` exactly when the LEN edges of VALUE's bits, bit 0 first, lead from ROOT to a
leaf of that symbol; nothing else changes. -/
def Obligations.GencodeRecordsThePaths : Prop :=
  ∀ s : State, s.treeValid = true → TreeShape s → (s.nodeAt s.root.toNat).internal = true →
    (∀ v n, follow s.nodeAt v 0 64 s.root.toNat = some n → (s.nodeAt n).internal = false) →
    ∃ t, exec .gencode s = .next t ∧ t = { s with code := t.code, tableValid := true, stack := [] } ∧
      t.code.length = s.numSyms ∧
      ∀ x w, t.codeAt x = some w ↔
        (w.len.toNat ≤ 64 ∧ w.value.toNat < 2 ^ w.len.toNat ∧
          ∃ n, follow s.nodeAt w.value 0 w.len.toNat s.root.toNat = some n ∧ (s.nodeAt n).internal = false ∧
            (s.nodeAt n).sym.toNat = x)

/-- R130, R133: when some internal node is at depth 64, GENCODE raises CODE_TOO_LONG with the index of the first one that the
left-first traversal visits, and leaves no table. -/
def Obligations.GencodeRejectsDeepTrees : Prop :=
  ∀ (s : State) (v : Dword) (n : Nat), s.treeValid = true → follow s.nodeAt v 0 64 s.root.toNat = some n →
    (s.nodeAt n).internal = true →
    (∀ v' n', follow s.nodeAt v' 0 64 s.root.toNat = some n' → (s.nodeAt n').internal = true → v' ≠ v →
      ∃ k < 64, (∀ j < k, v.getLsbD j = v'.getLsbD j) ∧ v.getLsbD k = false ∧ v'.getLsbD k = true) →
    ∃ t, exec .gencode s = .next t ∧
      t = { s with code := [], tableValid := false, stack := t.stack, errCode := .codeTooLong,
                   errInfo := BitVec.ofNat 32 n }

/-- R134 item 4: the code of a tree of two or more leaves is complete: `sum 2^-LEN = 1`, here times `2^64`. -/
def Obligations.KraftEquality : Prop :=
  ∀ s t : State, s.treeValid = true → TreeShape s → 2 ≤ s.numSyms → exec .gencode s = .next t → t.tableValid = true →
    (t.code.map (fun e => 2 ^ (64 - e.2.len.toNat))).sum = 2 ^ 64

/-- R134 item 5: in the table of BUILD and GENCODE a symbol of greater frequency has no longer a code. -/
def Obligations.FrequentSymbolsHaveShorterCodes : Prop :=
  ∀ s b t : State, s.freqValid = true → 2 ≤ s.numSyms → totalCount s.freq < 2 ^ 32 →
    exec .build s = .next b → exec .gencode b = .next t → t.tableValid = true →
    ∀ x y w u, t.codeAt x = some w → t.codeAt y = some u → (s.freqAt y).toNat < (s.freqAt x).toNat →
      w.len.toNat ≤ u.len.toNat

/-! ## The packed buffer -/

/-- R142 (with R140, R141): APPEND n: nothing for n = 0; PBUF_OVERFLOW(0) with nothing written when the bits do not fit; and
otherwise bit j of `{APP_HI, APP_LO}` at stream position TOTAL_BITS + j, zeros after the tail in a word the append opened, every
other bit kept, TOTAL_BITS grown by n, and nothing else changed; and just the bits written or zeroed are marked as the append's,
beside those already marked, which is the model's bookkeeping of log 19. -/
def Obligations.AppendAddsTheLowBits : Prop :=
  ∀ (s : State) (len : BitVec 7), s.params.legal = true → len.toNat ≤ 64 →
    (len.toNat = 0 → exec (.append len) s = .next s) ∧
    (0 < len.toNat → 64 * s.params.wMax < s.totalBits.toNat + len.toNat →
      exec (.append len) s = .next { s with errCode := .pbufOverflow, errInfo := 0 }) ∧
    (0 < len.toNat → s.totalBits.toNat + len.toNat ≤ 64 * s.params.wMax →
      ∃ t, exec (.append len) s = .next t ∧ t = { s with pbuf := t.pbuf, totalBits := t.totalBits } ∧
        t.totalBits.toNat = s.totalBits.toNat + len.toNat ∧
        (∀ p < s.totalBits.toNat, t.pbufBit p = s.pbufBit p) ∧
        (∀ j < len.toNat, t.pbufBit (s.totalBits.toNat + j) = (s.appHi ++ s.appLo).getLsbD j) ∧
        (∀ p, s.totalBits.toNat + len.toNat ≤ p →
          t.pbufBit p =
            if s.totalBits.toNat ≤ p / 64 * 64 ∧ p / 64 * 64 < s.totalBits.toNat + len.toNat then false
            else s.pbufBit p) ∧
        (∀ p, t.pbufAppended p =
          (s.pbufAppended p || decide (s.totalBits.toNat ≤ p ∧ p < s.totalBits.toNat + len.toNat) ||
            decide (s.totalBits.toNat ≤ p / 64 * 64 ∧ p / 64 * 64 < s.totalBits.toNat + len.toNat))))

/-- R140's word form: with `m` the low n bits, word `T / 64` takes them at offset `T mod 64` (a whole word when the offset is 0),
the next word takes what does not fit, and no other word changes. -/
def Obligations.AppendWordForm : Prop :=
  ∀ (s : State) (len : BitVec 7), s.params.legal = true → 0 < len.toNat → len.toNat ≤ 64 →
    s.totalBits.toNat + len.toNat ≤ 64 * s.params.wMax →
    let m := (s.appHi ++ s.appLo).toNat % 2 ^ len.toNat
    let w := s.totalBits.toNat / 64
    let off := s.totalBits.toNat % 64
    ∃ t, exec (.append len) s = .next t ∧
      (off = 0 → (t.pbufWord w).toNat = m) ∧
      (off ≠ 0 → ∀ k < 64, (t.pbufWord w).getLsbD k =
        if off ≤ k ∧ k < off + len.toNat then m.testBit (k - off) else (s.pbufWord w).getLsbD k) ∧
      (64 < off + len.toNat → (t.pbufWord (w + 1)).toNat = m / 2 ^ (64 - off)) ∧
      (∀ u, u ≠ w → (u ≠ w + 1 ∨ off + len.toNat ≤ 64) → t.pbufWord u = s.pbufWord u)

/-- R144, R146: with a stored table in which every input symbol has a code word, PACK makes the packed stream the code words in
input order, each with its bit 0 first, and the bits of its last word past the end 0 (R141), whatever PBUF held; words past the
last bit stay, and nothing else changes. -/
def Obligations.PackConcatenatesCodeWords : Prop :=
  ∀ s : State, Bounds s → TableOk s → s.tableValid = true →
    (∀ i < s.inLen.toNat, (s.codeAt (s.symAt i).toNat).isSome = true) →
    ∃ t, exec .pack s = .next t ∧ t = { s with pbuf := t.pbuf, totalBits := t.totalBits } ∧
      t.stream = s.inputSymbols.flatMap (codeBits s) ∧
      t.totalBits.toNat = (s.inputSymbols.map (fun x => (codeBits s x).length)).sum ∧
      (∀ p, t.totalBits.toNat ≤ p → p / 64 * 64 < t.totalBits.toNat → t.pbufBit p = false) ∧
      (∀ w, t.totalBits.toNat ≤ 64 * w → t.pbufWord w = s.pbufWord w)

/-- R144, R176: at the first symbol i without a code word PACK raises LOOKUP_FAILURE(i); the code words of symbols 0..i-1 are
packed and TOTAL_BITS counts them; the bits of the last word past the end are 0 (R141), words past the last bit stay, and
nothing else changes. -/
def Obligations.PackStopsAtTheFirstUnknownSymbol : Prop :=
  ∀ (s : State) (i : Nat), Bounds s → TableOk s → s.tableValid = true → i < s.inLen.toNat →
    (∀ j < i, (s.codeAt (s.symAt j).toNat).isSome = true) → s.codeAt (s.symAt i).toNat = none →
    ∃ t, exec .pack s = .next t ∧
      t = { s with pbuf := t.pbuf, totalBits := t.totalBits, errCode := .lookupFailure, errInfo := BitVec.ofNat 32 i } ∧
      t.stream = (s.inputSymbols.take i).flatMap (codeBits s) ∧
      (∀ p, t.totalBits.toNat ≤ p → p / 64 * 64 < t.totalBits.toNat → t.pbufBit p = false) ∧
      (∀ w, t.totalBits.toNat ≤ 64 * w → t.pbufWord w = s.pbufWord w)

/-- R145: ENCODE with IN_LEN ≥ 1 is COUNT, BUILD, GENCODE and PACK one after the other in the same step, each on what the one
before left; with IN_LEN ≥ 1 no stage before PACK raises an error (EncodeSucceeds), which the last two conditions name. -/
def Obligations.EncodeRunsTheStages : Prop :=
  ∀ s a b c : State, s.errCode = .ok → s.inLen ≠ 0 →
    exec .count s = .next a → exec .build a = .next b → exec .gencode b = .next c →
    b.errCode = .ok → c.errCode = .ok → exec .encode s = exec .pack c

/-- R145, R133, R146: with legal parameters ENCODE of any input of at least one symbol succeeds: no error, the three VALID flags
1, every input symbol with a code word, the stream the code words in input order, and TOTAL_BITS the sum of FREQ times LEN;
IN_LEN, APP, SYM_MEM, OUT_MEM and OUT_LEN stay. -/
def Obligations.EncodeSucceeds : Prop :=
  ∀ s : State, Bounds s → s.errCode = .ok → s.inLen ≠ 0 →
    ∃ t, exec .encode s = .next t ∧ t.errCode = .ok ∧
      t = { s with freq := t.freq, node := t.node, nodeCount := t.nodeCount, root := t.root, code := t.code, pbuf := t.pbuf,
                   totalBits := t.totalBits, freqValid := true, treeValid := true, tableValid := true, lq := t.lq,
                   iq := t.iq, stack := t.stack } ∧
      (∀ x ∈ s.inputSymbols, (t.codeAt x.toNat).isSome = true) ∧
      t.stream = s.inputSymbols.flatMap (codeBits t) ∧
      t.totalBits.toNat =
        ((List.range 256).map (fun x => (t.freqAt x).toNat * (codeBits t (BitVec.ofNat 8 x)).length)).sum

/-! ## DECODE -/

/-- R150 to R153: whatever the buffer, the code words of the symbols DECODE has written spell a prefix of the stream; they spell
the whole stream exactly when it ends with no error. -/
def Obligations.DecodeSpellsTheStream : Prop :=
  ∀ s : State, s.params.legal = true → Memory.wf s = true → TableOk s → s.tableValid = true → s.errCode = .ok →
    ∃ t, exec .decode s = .next t ∧
      t.outputSymbols.flatMap (codeBits s) <+: s.stream ∧
      (t.errCode = .ok ↔ t.outputSymbols.flatMap (codeBits s) = s.stream)

/-- R150, R152: a stream that is the code words of a sequence of at most `N_MAX` symbols decodes to that sequence with no error;
only OUT_MEM below OUT_LEN, OUT_LEN and the candidate change. -/
def Obligations.DecodeReadsCodeWords : Prop :=
  ∀ (s : State) (xs : List Byte), s.params.legal = true → Memory.wf s = true → TableOk s → s.tableValid = true →
    (∀ x ∈ xs, (s.codeAt x.toNat).isSome = true) → xs.length ≤ s.params.nMax → s.stream = xs.flatMap (codeBits s) →
    ∃ t, exec .decode s = .next t ∧
      t = { s with outMem := t.outMem, outLen := BitVec.ofNat 32 xs.length, cand := { value := 0, len := 0 } } ∧
      t.outputSymbols = xs ∧ ∀ i, xs.length ≤ i → t.outAt i = s.outAt i

/-- R150, R151, R153, R154, R172, R176: with a stored table DECODE writes OUT_MEM below OUT_LEN, OUT_LEN, the candidate and the
error only. With `n` the number of stream bits that the code words of the symbols it has written take, the candidate holds the
stream bits from position n on, and DECODE ends in one of four ways: no error, with the whole stream taken and no candidate;
CORRUPT_BUFFER with TOTAL_BITS, when the scan ends with a candidate that is no code word; CORRUPT_BUFFER with position n + 64,
that of the bit which finds 64 bits in a candidate that is no code word; OUT_OVERFLOW with the position of the bit that completes
a code word while OUT_LEN is `N_MAX`, the last of the candidate. That the candidate stays in the state after the command is the
model's choice, log 8. -/
def Obligations.DecodeFrameAndErrors : Prop :=
  ∀ s t : State, s.params.legal = true → Memory.wf s = true → TableOk s → s.tableValid = true → s.errCode = .ok →
    exec .decode s = .next t →
    let n := (t.outputSymbols.flatMap (codeBits s)).length
    let matched := ∃ x w, s.codeAt x = some w ∧ w.len.toNat = t.cand.len ∧ w.value = t.cand.value
    t = { s with outMem := t.outMem, outLen := t.outLen, cand := t.cand, errCode := t.errCode, errInfo := t.errInfo } ∧
    (∀ i, t.outLen.toNat ≤ i → t.outAt i = s.outAt i) ∧
    (∀ j < t.cand.len, t.cand.value.getLsbD j = s.pbufBit (n + j)) ∧
    ((t.errCode = .ok ∧ t.errInfo = s.errInfo ∧ n = s.totalBits.toNat ∧ t.cand.len = 0) ∨
      (t.errCode = .corruptBuffer ∧ t.errInfo = s.totalBits ∧ n + t.cand.len = s.totalBits.toNat ∧ t.cand.len ≠ 0 ∧
        ¬ matched) ∨
      (t.errCode = .corruptBuffer ∧ t.errInfo.toNat = n + 64 ∧ n + 64 < s.totalBits.toNat ∧ t.cand.len = 64 ∧
        ¬ matched) ∨
      (t.errCode = .outOverflow ∧ t.errInfo.toNat + 1 = n + t.cand.len ∧ n + t.cand.len ≤ s.totalBits.toNat ∧
        t.outLen.toNat = s.params.nMax ∧ matched))

/-- R155: an ENCODE that completes with ERR_CODE 0, followed by DECODE with the table, PBUF and TOTAL_BITS as ENCODE left them,
gives ERR_CODE 0, OUT_LEN = IN_LEN and OUT_MEM[i] = SYM_MEM[i] for every i below IN_LEN. -/
def Obligations.RoundTrip : Prop :=
  ∀ s a b : State, Bounds s → s.errCode = .ok → s.inLen ≠ 0 → exec .encode s = .next a → a.errCode = .ok →
    b.params = a.params → b.code = a.code → b.tableValid = a.tableValid → b.pbuf = a.pbuf → b.totalBits = a.totalBits →
    b.resets = a.resets → b.errCode = .ok →
    ∃ t, exec .decode b = .next t ∧ t.errCode = .ok ∧ t.outLen = s.inLen ∧
      ∀ i < s.inLen.toNat, t.outAt i = s.symAt i

/-! ## Invariants -/

/-- The reset state meets the invariants below. -/
def Obligations.ResetMeetsTheInvariants : Prop :=
  Bounds State.reset ∧ Memory.wf State.reset = true ∧ Lifecycle State.reset ∧ FreqOk State.reset ∧ TreeOk State.reset ∧
  TableOk State.reset

/-- R33, R34, R35, R38, R72: every step keeps the bounds of the registers and the canonical form of every array, whose indices
stay in range. -/
def Obligations.StepKeepsBoundsAndMemory : Prop :=
  ∀ s t : State, Bounds s → Memory.wf s = true → step s = .next t → Bounds t ∧ Memory.wf t = true

/-- R32, R87, R89, R178: every step keeps the lifecycle: a pending command has neither DONE nor an error, and ERR_INFO is 0 while
ERR_CODE is. -/
def Obligations.StepKeepsTheLifecycle : Prop :=
  ∀ s t : State, Lifecycle s → step s = .next t → Lifecycle t

/-- R49, R50, R120: every step keeps the Frequency Map within `N_MAX` and, while TREE_VALID = 1, the tree the tree of its symbols. -/
def Obligations.StepKeepsTheTree : Prop :=
  ∀ s t : State, Bounds s → FreqOk s → TreeOk s → step s = .next t → FreqOk t ∧ TreeOk t

/-- R46, R51: every step keeps the Code Table prefix-free, its code words of 1 to 64 bits with nothing above their length. -/
def Obligations.StepKeepsTheTablePrefixFree : Prop :=
  ∀ s t : State, Bounds s → FreqOk s → TreeOk s → TableOk s → step s = .next t → TableOk t
end

