-- ==== Sys2Proof/Laws/State.lean ====
section
/-! SUPPORT. One lemma per field and per update of the state, so that no later proof unfolds a record update. -/

namespace Sys2Proof.Machine

@[simp] theorem accept_params (c : Word) (s : State) : (accept c s).params = s.params := rfl
@[simp] theorem accept_irqEn (c : Word) (s : State) : (accept c s).irqEn = s.irqEn := rfl
@[simp] theorem accept_done (c : Word) (s : State) : (accept c s).done = false := rfl
@[simp] theorem accept_freqValid (c : Word) (s : State) : (accept c s).freqValid = s.freqValid := rfl
@[simp] theorem accept_treeValid (c : Word) (s : State) : (accept c s).treeValid = s.treeValid := rfl
@[simp] theorem accept_tableValid (c : Word) (s : State) : (accept c s).tableValid = s.tableValid := rfl
@[simp] theorem accept_overrun (c : Word) (s : State) : (accept c s).overrun = s.overrun := rfl
@[simp] theorem accept_errCode (c : Word) (s : State) : (accept c s).errCode = .ok := rfl
@[simp] theorem accept_errInfo (c : Word) (s : State) : (accept c s).errInfo = 0 := rfl
@[simp] theorem accept_inLen (c : Word) (s : State) : (accept c s).inLen = s.inLen := rfl
@[simp] theorem accept_outLen (c : Word) (s : State) : (accept c s).outLen = s.outLen := rfl
@[simp] theorem accept_totalBits (c : Word) (s : State) : (accept c s).totalBits = s.totalBits := rfl
@[simp] theorem accept_nodeCount (c : Word) (s : State) : (accept c s).nodeCount = s.nodeCount := rfl
@[simp] theorem accept_root (c : Word) (s : State) : (accept c s).root = s.root := rfl
@[simp] theorem accept_appLo (c : Word) (s : State) : (accept c s).appLo = s.appLo := rfl
@[simp] theorem accept_appHi (c : Word) (s : State) : (accept c s).appHi = s.appHi := rfl
@[simp] theorem accept_symMem (c : Word) (s : State) : (accept c s).symMem = s.symMem := rfl
@[simp] theorem accept_freq (c : Word) (s : State) : (accept c s).freq = s.freq := rfl
@[simp] theorem accept_node (c : Word) (s : State) : (accept c s).node = s.node := rfl
@[simp] theorem accept_code (c : Word) (s : State) : (accept c s).code = s.code := rfl
@[simp] theorem accept_pbuf (c : Word) (s : State) : (accept c s).pbuf = s.pbuf := rfl
@[simp] theorem accept_outMem (c : Word) (s : State) : (accept c s).outMem = s.outMem := rfl
@[simp] theorem accept_pending (c : Word) (s : State) : (accept c s).pending = some c := rfl
@[simp] theorem accept_lq (c : Word) (s : State) : (accept c s).lq = s.lq := rfl
@[simp] theorem accept_iq (c : Word) (s : State) : (accept c s).iq = s.iq := rfl
@[simp] theorem accept_stack (c : Word) (s : State) : (accept c s).stack = s.stack := rfl
@[simp] theorem accept_cand (c : Word) (s : State) : (accept c s).cand = s.cand := rfl
@[simp] theorem accept_inputs (c : Word) (s : State) : (accept c s).inputs = s.inputs := rfl
@[simp] theorem accept_replies (c : Word) (s : State) : (accept c s).replies = s.replies := rfl
@[simp] theorem accept_resets (c : Word) (s : State) : (accept c s).resets = s.resets := rfl
@[simp] theorem accept_draws (c : Word) (s : State) : (accept c s).draws = s.draws := rfl

@[simp] theorem complete_params (s : State) : (complete s).params = s.params := rfl
@[simp] theorem complete_irqEn (s : State) : (complete s).irqEn = s.irqEn := rfl
@[simp] theorem complete_done (s : State) : (complete s).done = true := rfl
@[simp] theorem complete_freqValid (s : State) : (complete s).freqValid = s.freqValid := rfl
@[simp] theorem complete_treeValid (s : State) : (complete s).treeValid = s.treeValid := rfl
@[simp] theorem complete_tableValid (s : State) : (complete s).tableValid = s.tableValid := rfl
@[simp] theorem complete_overrun (s : State) : (complete s).overrun = s.overrun := rfl
@[simp] theorem complete_errCode (s : State) : (complete s).errCode = s.errCode := rfl
@[simp] theorem complete_errInfo (s : State) : (complete s).errInfo = s.errInfo := rfl
@[simp] theorem complete_inLen (s : State) : (complete s).inLen = s.inLen := rfl
@[simp] theorem complete_outLen (s : State) : (complete s).outLen = s.outLen := rfl
@[simp] theorem complete_totalBits (s : State) : (complete s).totalBits = s.totalBits := rfl
@[simp] theorem complete_nodeCount (s : State) : (complete s).nodeCount = s.nodeCount := rfl
@[simp] theorem complete_root (s : State) : (complete s).root = s.root := rfl
@[simp] theorem complete_appLo (s : State) : (complete s).appLo = s.appLo := rfl
@[simp] theorem complete_appHi (s : State) : (complete s).appHi = s.appHi := rfl
@[simp] theorem complete_symMem (s : State) : (complete s).symMem = s.symMem := rfl
@[simp] theorem complete_freq (s : State) : (complete s).freq = s.freq := rfl
@[simp] theorem complete_node (s : State) : (complete s).node = s.node := rfl
@[simp] theorem complete_code (s : State) : (complete s).code = s.code := rfl
@[simp] theorem complete_pbuf (s : State) : (complete s).pbuf = s.pbuf := rfl
@[simp] theorem complete_outMem (s : State) : (complete s).outMem = s.outMem := rfl
@[simp] theorem complete_pending (s : State) : (complete s).pending = none := rfl
@[simp] theorem complete_lq (s : State) : (complete s).lq = s.lq := rfl
@[simp] theorem complete_iq (s : State) : (complete s).iq = s.iq := rfl
@[simp] theorem complete_stack (s : State) : (complete s).stack = s.stack := rfl
@[simp] theorem complete_cand (s : State) : (complete s).cand = s.cand := rfl
@[simp] theorem complete_inputs (s : State) : (complete s).inputs = s.inputs := rfl
@[simp] theorem complete_replies (s : State) : (complete s).replies = s.replies := rfl
@[simp] theorem complete_resets (s : State) : (complete s).resets = s.resets := rfl
@[simp] theorem complete_draws (s : State) : (complete s).draws = s.draws := rfl

@[simp] theorem raise_state_params (e : ErrCode) (info : Word) (s : State) : (raise e info s).state.params = s.params := rfl
@[simp] theorem raise_state_irqEn (e : ErrCode) (info : Word) (s : State) : (raise e info s).state.irqEn = s.irqEn := rfl
@[simp] theorem raise_state_done (e : ErrCode) (info : Word) (s : State) : (raise e info s).state.done = s.done := rfl
@[simp] theorem raise_state_freqValid (e : ErrCode) (info : Word) (s : State) : (raise e info s).state.freqValid = s.freqValid := rfl
@[simp] theorem raise_state_treeValid (e : ErrCode) (info : Word) (s : State) : (raise e info s).state.treeValid = s.treeValid := rfl
@[simp] theorem raise_state_tableValid (e : ErrCode) (info : Word) (s : State) : (raise e info s).state.tableValid = s.tableValid := rfl
@[simp] theorem raise_state_overrun (e : ErrCode) (info : Word) (s : State) : (raise e info s).state.overrun = s.overrun := rfl
@[simp] theorem raise_state_errCode (e : ErrCode) (info : Word) (s : State) : (raise e info s).state.errCode = e := rfl
@[simp] theorem raise_state_errInfo (e : ErrCode) (info : Word) (s : State) : (raise e info s).state.errInfo = info := rfl
@[simp] theorem raise_state_inLen (e : ErrCode) (info : Word) (s : State) : (raise e info s).state.inLen = s.inLen := rfl
@[simp] theorem raise_state_outLen (e : ErrCode) (info : Word) (s : State) : (raise e info s).state.outLen = s.outLen := rfl
@[simp] theorem raise_state_totalBits (e : ErrCode) (info : Word) (s : State) : (raise e info s).state.totalBits = s.totalBits := rfl
@[simp] theorem raise_state_nodeCount (e : ErrCode) (info : Word) (s : State) : (raise e info s).state.nodeCount = s.nodeCount := rfl
@[simp] theorem raise_state_root (e : ErrCode) (info : Word) (s : State) : (raise e info s).state.root = s.root := rfl
@[simp] theorem raise_state_appLo (e : ErrCode) (info : Word) (s : State) : (raise e info s).state.appLo = s.appLo := rfl
@[simp] theorem raise_state_appHi (e : ErrCode) (info : Word) (s : State) : (raise e info s).state.appHi = s.appHi := rfl
@[simp] theorem raise_state_symMem (e : ErrCode) (info : Word) (s : State) : (raise e info s).state.symMem = s.symMem := rfl
@[simp] theorem raise_state_freq (e : ErrCode) (info : Word) (s : State) : (raise e info s).state.freq = s.freq := rfl
@[simp] theorem raise_state_node (e : ErrCode) (info : Word) (s : State) : (raise e info s).state.node = s.node := rfl
@[simp] theorem raise_state_code (e : ErrCode) (info : Word) (s : State) : (raise e info s).state.code = s.code := rfl
@[simp] theorem raise_state_pbuf (e : ErrCode) (info : Word) (s : State) : (raise e info s).state.pbuf = s.pbuf := rfl
@[simp] theorem raise_state_outMem (e : ErrCode) (info : Word) (s : State) : (raise e info s).state.outMem = s.outMem := rfl
@[simp] theorem raise_state_pending (e : ErrCode) (info : Word) (s : State) : (raise e info s).state.pending = s.pending := rfl
@[simp] theorem raise_state_lq (e : ErrCode) (info : Word) (s : State) : (raise e info s).state.lq = s.lq := rfl
@[simp] theorem raise_state_iq (e : ErrCode) (info : Word) (s : State) : (raise e info s).state.iq = s.iq := rfl
@[simp] theorem raise_state_stack (e : ErrCode) (info : Word) (s : State) : (raise e info s).state.stack = s.stack := rfl
@[simp] theorem raise_state_cand (e : ErrCode) (info : Word) (s : State) : (raise e info s).state.cand = s.cand := rfl
@[simp] theorem raise_state_inputs (e : ErrCode) (info : Word) (s : State) : (raise e info s).state.inputs = s.inputs := rfl
@[simp] theorem raise_state_replies (e : ErrCode) (info : Word) (s : State) : (raise e info s).state.replies = s.replies := rfl
@[simp] theorem raise_state_resets (e : ErrCode) (info : Word) (s : State) : (raise e info s).state.resets = s.resets := rfl
@[simp] theorem raise_state_draws (e : ErrCode) (info : Word) (s : State) : (raise e info s).state.draws = s.draws := rfl

@[simp] theorem writeCtrl_params (v : Word) (s : State) : (writeCtrl v s).params = s.params := rfl
@[simp] theorem writeCtrl_irqEn (v : Word) (s : State) : (writeCtrl v s).irqEn = v.getLsbD 0 := rfl
@[simp] theorem writeCtrl_done (v : Word) (s : State) : (writeCtrl v s).done = s.done := rfl
@[simp] theorem writeCtrl_freqValid (v : Word) (s : State) : (writeCtrl v s).freqValid = s.freqValid := rfl
@[simp] theorem writeCtrl_treeValid (v : Word) (s : State) : (writeCtrl v s).treeValid = s.treeValid := rfl
@[simp] theorem writeCtrl_tableValid (v : Word) (s : State) : (writeCtrl v s).tableValid = s.tableValid := rfl
@[simp] theorem writeCtrl_overrun (v : Word) (s : State) : (writeCtrl v s).overrun = s.overrun := rfl
@[simp] theorem writeCtrl_errCode (v : Word) (s : State) : (writeCtrl v s).errCode = s.errCode := rfl
@[simp] theorem writeCtrl_errInfo (v : Word) (s : State) : (writeCtrl v s).errInfo = s.errInfo := rfl
@[simp] theorem writeCtrl_inLen (v : Word) (s : State) : (writeCtrl v s).inLen = s.inLen := rfl
@[simp] theorem writeCtrl_outLen (v : Word) (s : State) : (writeCtrl v s).outLen = s.outLen := rfl
@[simp] theorem writeCtrl_totalBits (v : Word) (s : State) : (writeCtrl v s).totalBits = s.totalBits := rfl
@[simp] theorem writeCtrl_nodeCount (v : Word) (s : State) : (writeCtrl v s).nodeCount = s.nodeCount := rfl
@[simp] theorem writeCtrl_root (v : Word) (s : State) : (writeCtrl v s).root = s.root := rfl
@[simp] theorem writeCtrl_appLo (v : Word) (s : State) : (writeCtrl v s).appLo = s.appLo := rfl
@[simp] theorem writeCtrl_appHi (v : Word) (s : State) : (writeCtrl v s).appHi = s.appHi := rfl
@[simp] theorem writeCtrl_symMem (v : Word) (s : State) : (writeCtrl v s).symMem = s.symMem := rfl
@[simp] theorem writeCtrl_freq (v : Word) (s : State) : (writeCtrl v s).freq = s.freq := rfl
@[simp] theorem writeCtrl_node (v : Word) (s : State) : (writeCtrl v s).node = s.node := rfl
@[simp] theorem writeCtrl_code (v : Word) (s : State) : (writeCtrl v s).code = s.code := rfl
@[simp] theorem writeCtrl_pbuf (v : Word) (s : State) : (writeCtrl v s).pbuf = s.pbuf := rfl
@[simp] theorem writeCtrl_outMem (v : Word) (s : State) : (writeCtrl v s).outMem = s.outMem := rfl
@[simp] theorem writeCtrl_pending (v : Word) (s : State) : (writeCtrl v s).pending = s.pending := rfl
@[simp] theorem writeCtrl_lq (v : Word) (s : State) : (writeCtrl v s).lq = s.lq := rfl
@[simp] theorem writeCtrl_iq (v : Word) (s : State) : (writeCtrl v s).iq = s.iq := rfl
@[simp] theorem writeCtrl_stack (v : Word) (s : State) : (writeCtrl v s).stack = s.stack := rfl
@[simp] theorem writeCtrl_cand (v : Word) (s : State) : (writeCtrl v s).cand = s.cand := rfl
@[simp] theorem writeCtrl_inputs (v : Word) (s : State) : (writeCtrl v s).inputs = s.inputs := rfl
@[simp] theorem writeCtrl_replies (v : Word) (s : State) : (writeCtrl v s).replies = s.replies := rfl
@[simp] theorem writeCtrl_resets (v : Word) (s : State) : (writeCtrl v s).resets = s.resets := rfl
@[simp] theorem writeCtrl_draws (v : Word) (s : State) : (writeCtrl v s).draws = s.draws := rfl

@[simp] theorem writeStatus_params (v : Word) (s : State) : (writeStatus v s).params = s.params := rfl
@[simp] theorem writeStatus_irqEn (v : Word) (s : State) : (writeStatus v s).irqEn = s.irqEn := rfl
@[simp] theorem writeStatus_done (v : Word) (s : State) : (writeStatus v s).done = (s.done && !v.getLsbD 1) := rfl
@[simp] theorem writeStatus_freqValid (v : Word) (s : State) : (writeStatus v s).freqValid = s.freqValid := rfl
@[simp] theorem writeStatus_treeValid (v : Word) (s : State) : (writeStatus v s).treeValid = s.treeValid := rfl
@[simp] theorem writeStatus_tableValid (v : Word) (s : State) : (writeStatus v s).tableValid = s.tableValid := rfl
@[simp] theorem writeStatus_overrun (v : Word) (s : State) : (writeStatus v s).overrun = (s.overrun && !v.getLsbD 6) := rfl
@[simp] theorem writeStatus_errCode (v : Word) (s : State) : (writeStatus v s).errCode = s.errCode := rfl
@[simp] theorem writeStatus_errInfo (v : Word) (s : State) : (writeStatus v s).errInfo = s.errInfo := rfl
@[simp] theorem writeStatus_inLen (v : Word) (s : State) : (writeStatus v s).inLen = s.inLen := rfl
@[simp] theorem writeStatus_outLen (v : Word) (s : State) : (writeStatus v s).outLen = s.outLen := rfl
@[simp] theorem writeStatus_totalBits (v : Word) (s : State) : (writeStatus v s).totalBits = s.totalBits := rfl
@[simp] theorem writeStatus_nodeCount (v : Word) (s : State) : (writeStatus v s).nodeCount = s.nodeCount := rfl
@[simp] theorem writeStatus_root (v : Word) (s : State) : (writeStatus v s).root = s.root := rfl
@[simp] theorem writeStatus_appLo (v : Word) (s : State) : (writeStatus v s).appLo = s.appLo := rfl
@[simp] theorem writeStatus_appHi (v : Word) (s : State) : (writeStatus v s).appHi = s.appHi := rfl
@[simp] theorem writeStatus_symMem (v : Word) (s : State) : (writeStatus v s).symMem = s.symMem := rfl
@[simp] theorem writeStatus_freq (v : Word) (s : State) : (writeStatus v s).freq = s.freq := rfl
@[simp] theorem writeStatus_node (v : Word) (s : State) : (writeStatus v s).node = s.node := rfl
@[simp] theorem writeStatus_code (v : Word) (s : State) : (writeStatus v s).code = s.code := rfl
@[simp] theorem writeStatus_pbuf (v : Word) (s : State) : (writeStatus v s).pbuf = s.pbuf := rfl
@[simp] theorem writeStatus_outMem (v : Word) (s : State) : (writeStatus v s).outMem = s.outMem := rfl
@[simp] theorem writeStatus_pending (v : Word) (s : State) : (writeStatus v s).pending = s.pending := rfl
@[simp] theorem writeStatus_lq (v : Word) (s : State) : (writeStatus v s).lq = s.lq := rfl
@[simp] theorem writeStatus_iq (v : Word) (s : State) : (writeStatus v s).iq = s.iq := rfl
@[simp] theorem writeStatus_stack (v : Word) (s : State) : (writeStatus v s).stack = s.stack := rfl
@[simp] theorem writeStatus_cand (v : Word) (s : State) : (writeStatus v s).cand = s.cand := rfl
@[simp] theorem writeStatus_inputs (v : Word) (s : State) : (writeStatus v s).inputs = s.inputs := rfl
@[simp] theorem writeStatus_replies (v : Word) (s : State) : (writeStatus v s).replies = s.replies := rfl
@[simp] theorem writeStatus_resets (v : Word) (s : State) : (writeStatus v s).resets = s.resets := rfl
@[simp] theorem writeStatus_draws (v : Word) (s : State) : (writeStatus v s).draws = s.draws := rfl

@[simp] theorem dropWrite_params (s : State) : (dropWrite s).params = s.params := rfl
@[simp] theorem dropWrite_irqEn (s : State) : (dropWrite s).irqEn = s.irqEn := rfl
@[simp] theorem dropWrite_done (s : State) : (dropWrite s).done = s.done := rfl
@[simp] theorem dropWrite_freqValid (s : State) : (dropWrite s).freqValid = s.freqValid := rfl
@[simp] theorem dropWrite_treeValid (s : State) : (dropWrite s).treeValid = s.treeValid := rfl
@[simp] theorem dropWrite_tableValid (s : State) : (dropWrite s).tableValid = s.tableValid := rfl
@[simp] theorem dropWrite_overrun (s : State) : (dropWrite s).overrun = true := rfl
@[simp] theorem dropWrite_errCode (s : State) : (dropWrite s).errCode = s.errCode := rfl
@[simp] theorem dropWrite_errInfo (s : State) : (dropWrite s).errInfo = s.errInfo := rfl
@[simp] theorem dropWrite_inLen (s : State) : (dropWrite s).inLen = s.inLen := rfl
@[simp] theorem dropWrite_outLen (s : State) : (dropWrite s).outLen = s.outLen := rfl
@[simp] theorem dropWrite_totalBits (s : State) : (dropWrite s).totalBits = s.totalBits := rfl
@[simp] theorem dropWrite_nodeCount (s : State) : (dropWrite s).nodeCount = s.nodeCount := rfl
@[simp] theorem dropWrite_root (s : State) : (dropWrite s).root = s.root := rfl
@[simp] theorem dropWrite_appLo (s : State) : (dropWrite s).appLo = s.appLo := rfl
@[simp] theorem dropWrite_appHi (s : State) : (dropWrite s).appHi = s.appHi := rfl
@[simp] theorem dropWrite_symMem (s : State) : (dropWrite s).symMem = s.symMem := rfl
@[simp] theorem dropWrite_freq (s : State) : (dropWrite s).freq = s.freq := rfl
@[simp] theorem dropWrite_node (s : State) : (dropWrite s).node = s.node := rfl
@[simp] theorem dropWrite_code (s : State) : (dropWrite s).code = s.code := rfl
@[simp] theorem dropWrite_pbuf (s : State) : (dropWrite s).pbuf = s.pbuf := rfl
@[simp] theorem dropWrite_outMem (s : State) : (dropWrite s).outMem = s.outMem := rfl
@[simp] theorem dropWrite_pending (s : State) : (dropWrite s).pending = s.pending := rfl
@[simp] theorem dropWrite_lq (s : State) : (dropWrite s).lq = s.lq := rfl
@[simp] theorem dropWrite_iq (s : State) : (dropWrite s).iq = s.iq := rfl
@[simp] theorem dropWrite_stack (s : State) : (dropWrite s).stack = s.stack := rfl
@[simp] theorem dropWrite_cand (s : State) : (dropWrite s).cand = s.cand := rfl
@[simp] theorem dropWrite_inputs (s : State) : (dropWrite s).inputs = s.inputs := rfl
@[simp] theorem dropWrite_replies (s : State) : (dropWrite s).replies = s.replies := rfl
@[simp] theorem dropWrite_resets (s : State) : (dropWrite s).resets = s.resets := rfl
@[simp] theorem dropWrite_draws (s : State) : (dropWrite s).draws = s.draws := rfl

@[simp] theorem reply_params (v : Word) (s : State) : (reply v s).params = s.params := rfl
@[simp] theorem reply_irqEn (v : Word) (s : State) : (reply v s).irqEn = s.irqEn := rfl
@[simp] theorem reply_done (v : Word) (s : State) : (reply v s).done = s.done := rfl
@[simp] theorem reply_freqValid (v : Word) (s : State) : (reply v s).freqValid = s.freqValid := rfl
@[simp] theorem reply_treeValid (v : Word) (s : State) : (reply v s).treeValid = s.treeValid := rfl
@[simp] theorem reply_tableValid (v : Word) (s : State) : (reply v s).tableValid = s.tableValid := rfl
@[simp] theorem reply_overrun (v : Word) (s : State) : (reply v s).overrun = s.overrun := rfl
@[simp] theorem reply_errCode (v : Word) (s : State) : (reply v s).errCode = s.errCode := rfl
@[simp] theorem reply_errInfo (v : Word) (s : State) : (reply v s).errInfo = s.errInfo := rfl
@[simp] theorem reply_inLen (v : Word) (s : State) : (reply v s).inLen = s.inLen := rfl
@[simp] theorem reply_outLen (v : Word) (s : State) : (reply v s).outLen = s.outLen := rfl
@[simp] theorem reply_totalBits (v : Word) (s : State) : (reply v s).totalBits = s.totalBits := rfl
@[simp] theorem reply_nodeCount (v : Word) (s : State) : (reply v s).nodeCount = s.nodeCount := rfl
@[simp] theorem reply_root (v : Word) (s : State) : (reply v s).root = s.root := rfl
@[simp] theorem reply_appLo (v : Word) (s : State) : (reply v s).appLo = s.appLo := rfl
@[simp] theorem reply_appHi (v : Word) (s : State) : (reply v s).appHi = s.appHi := rfl
@[simp] theorem reply_symMem (v : Word) (s : State) : (reply v s).symMem = s.symMem := rfl
@[simp] theorem reply_freq (v : Word) (s : State) : (reply v s).freq = s.freq := rfl
@[simp] theorem reply_node (v : Word) (s : State) : (reply v s).node = s.node := rfl
@[simp] theorem reply_code (v : Word) (s : State) : (reply v s).code = s.code := rfl
@[simp] theorem reply_pbuf (v : Word) (s : State) : (reply v s).pbuf = s.pbuf := rfl
@[simp] theorem reply_outMem (v : Word) (s : State) : (reply v s).outMem = s.outMem := rfl
@[simp] theorem reply_pending (v : Word) (s : State) : (reply v s).pending = s.pending := rfl
@[simp] theorem reply_lq (v : Word) (s : State) : (reply v s).lq = s.lq := rfl
@[simp] theorem reply_iq (v : Word) (s : State) : (reply v s).iq = s.iq := rfl
@[simp] theorem reply_stack (v : Word) (s : State) : (reply v s).stack = s.stack := rfl
@[simp] theorem reply_cand (v : Word) (s : State) : (reply v s).cand = s.cand := rfl
@[simp] theorem reply_inputs (v : Word) (s : State) : (reply v s).inputs = s.inputs := rfl
@[simp] theorem reply_replies (v : Word) (s : State) : (reply v s).replies = v :: s.replies := rfl
@[simp] theorem reply_resets (v : Word) (s : State) : (reply v s).resets = s.resets := rfl
@[simp] theorem reply_draws (v : Word) (s : State) : (reply v s).draws = s.draws := rfl

@[simp] theorem replyFree_params (v shown : Word) (s : State) : (replyFree v shown s).params = s.params := rfl
@[simp] theorem replyFree_irqEn (v shown : Word) (s : State) : (replyFree v shown s).irqEn = s.irqEn := rfl
@[simp] theorem replyFree_done (v shown : Word) (s : State) : (replyFree v shown s).done = s.done := rfl
@[simp] theorem replyFree_freqValid (v shown : Word) (s : State) : (replyFree v shown s).freqValid = s.freqValid := rfl
@[simp] theorem replyFree_treeValid (v shown : Word) (s : State) : (replyFree v shown s).treeValid = s.treeValid := rfl
@[simp] theorem replyFree_tableValid (v shown : Word) (s : State) : (replyFree v shown s).tableValid = s.tableValid := rfl
@[simp] theorem replyFree_overrun (v shown : Word) (s : State) : (replyFree v shown s).overrun = s.overrun := rfl
@[simp] theorem replyFree_errCode (v shown : Word) (s : State) : (replyFree v shown s).errCode = s.errCode := rfl
@[simp] theorem replyFree_errInfo (v shown : Word) (s : State) : (replyFree v shown s).errInfo = s.errInfo := rfl
@[simp] theorem replyFree_inLen (v shown : Word) (s : State) : (replyFree v shown s).inLen = s.inLen := rfl
@[simp] theorem replyFree_outLen (v shown : Word) (s : State) : (replyFree v shown s).outLen = s.outLen := rfl
@[simp] theorem replyFree_totalBits (v shown : Word) (s : State) : (replyFree v shown s).totalBits = s.totalBits := rfl
@[simp] theorem replyFree_nodeCount (v shown : Word) (s : State) : (replyFree v shown s).nodeCount = s.nodeCount := rfl
@[simp] theorem replyFree_root (v shown : Word) (s : State) : (replyFree v shown s).root = s.root := rfl
@[simp] theorem replyFree_appLo (v shown : Word) (s : State) : (replyFree v shown s).appLo = s.appLo := rfl
@[simp] theorem replyFree_appHi (v shown : Word) (s : State) : (replyFree v shown s).appHi = s.appHi := rfl
@[simp] theorem replyFree_symMem (v shown : Word) (s : State) : (replyFree v shown s).symMem = s.symMem := rfl
@[simp] theorem replyFree_freq (v shown : Word) (s : State) : (replyFree v shown s).freq = s.freq := rfl
@[simp] theorem replyFree_node (v shown : Word) (s : State) : (replyFree v shown s).node = s.node := rfl
@[simp] theorem replyFree_code (v shown : Word) (s : State) : (replyFree v shown s).code = s.code := rfl
@[simp] theorem replyFree_pbuf (v shown : Word) (s : State) : (replyFree v shown s).pbuf = s.pbuf := rfl
@[simp] theorem replyFree_outMem (v shown : Word) (s : State) : (replyFree v shown s).outMem = s.outMem := rfl
@[simp] theorem replyFree_pending (v shown : Word) (s : State) : (replyFree v shown s).pending = s.pending := rfl
@[simp] theorem replyFree_lq (v shown : Word) (s : State) : (replyFree v shown s).lq = s.lq := rfl
@[simp] theorem replyFree_iq (v shown : Word) (s : State) : (replyFree v shown s).iq = s.iq := rfl
@[simp] theorem replyFree_stack (v shown : Word) (s : State) : (replyFree v shown s).stack = s.stack := rfl
@[simp] theorem replyFree_cand (v shown : Word) (s : State) : (replyFree v shown s).cand = s.cand := rfl
@[simp] theorem replyFree_inputs (v shown : Word) (s : State) : (replyFree v shown s).inputs = s.inputs := rfl
@[simp] theorem replyFree_replies (v shown : Word) (s : State) : (replyFree v shown s).replies = ((v &&& shown) ||| (Config.freeRead s.draws &&& ~~~shown)) :: s.replies := rfl
@[simp] theorem replyFree_resets (v shown : Word) (s : State) : (replyFree v shown s).resets = s.resets := rfl
@[simp] theorem replyFree_draws (v shown : Word) (s : State) : (replyFree v shown s).draws = s.draws + 1 := rfl

@[simp] theorem freshWord_params (p : Nat) (s : State) : (freshWord p s).params = s.params := rfl
@[simp] theorem freshWord_irqEn (p : Nat) (s : State) : (freshWord p s).irqEn = s.irqEn := rfl
@[simp] theorem freshWord_done (p : Nat) (s : State) : (freshWord p s).done = s.done := rfl
@[simp] theorem freshWord_freqValid (p : Nat) (s : State) : (freshWord p s).freqValid = s.freqValid := rfl
@[simp] theorem freshWord_treeValid (p : Nat) (s : State) : (freshWord p s).treeValid = s.treeValid := rfl
@[simp] theorem freshWord_tableValid (p : Nat) (s : State) : (freshWord p s).tableValid = s.tableValid := rfl
@[simp] theorem freshWord_overrun (p : Nat) (s : State) : (freshWord p s).overrun = s.overrun := rfl
@[simp] theorem freshWord_errCode (p : Nat) (s : State) : (freshWord p s).errCode = s.errCode := rfl
@[simp] theorem freshWord_errInfo (p : Nat) (s : State) : (freshWord p s).errInfo = s.errInfo := rfl
@[simp] theorem freshWord_inLen (p : Nat) (s : State) : (freshWord p s).inLen = s.inLen := rfl
@[simp] theorem freshWord_outLen (p : Nat) (s : State) : (freshWord p s).outLen = s.outLen := rfl
@[simp] theorem freshWord_totalBits (p : Nat) (s : State) : (freshWord p s).totalBits = s.totalBits := rfl
@[simp] theorem freshWord_nodeCount (p : Nat) (s : State) : (freshWord p s).nodeCount = s.nodeCount := rfl
@[simp] theorem freshWord_root (p : Nat) (s : State) : (freshWord p s).root = s.root := rfl
@[simp] theorem freshWord_appLo (p : Nat) (s : State) : (freshWord p s).appLo = s.appLo := rfl
@[simp] theorem freshWord_appHi (p : Nat) (s : State) : (freshWord p s).appHi = s.appHi := rfl
@[simp] theorem freshWord_symMem (p : Nat) (s : State) : (freshWord p s).symMem = s.symMem := rfl
@[simp] theorem freshWord_freq (p : Nat) (s : State) : (freshWord p s).freq = s.freq := rfl
@[simp] theorem freshWord_node (p : Nat) (s : State) : (freshWord p s).node = s.node := rfl
@[simp] theorem freshWord_code (p : Nat) (s : State) : (freshWord p s).code = s.code := rfl
@[simp] theorem freshWord_pbuf (p : Nat) (s : State) : (freshWord p s).pbuf = if p % 64 = 0 then zeroWord (p / 64) s.pbuf else s.pbuf := rfl
@[simp] theorem freshWord_outMem (p : Nat) (s : State) : (freshWord p s).outMem = s.outMem := rfl
@[simp] theorem freshWord_pending (p : Nat) (s : State) : (freshWord p s).pending = s.pending := rfl
@[simp] theorem freshWord_lq (p : Nat) (s : State) : (freshWord p s).lq = s.lq := rfl
@[simp] theorem freshWord_iq (p : Nat) (s : State) : (freshWord p s).iq = s.iq := rfl
@[simp] theorem freshWord_stack (p : Nat) (s : State) : (freshWord p s).stack = s.stack := rfl
@[simp] theorem freshWord_cand (p : Nat) (s : State) : (freshWord p s).cand = s.cand := rfl
@[simp] theorem freshWord_inputs (p : Nat) (s : State) : (freshWord p s).inputs = s.inputs := rfl
@[simp] theorem freshWord_replies (p : Nat) (s : State) : (freshWord p s).replies = s.replies := rfl
@[simp] theorem freshWord_resets (p : Nat) (s : State) : (freshWord p s).resets = s.resets := rfl
@[simp] theorem freshWord_draws (p : Nat) (s : State) : (freshWord p s).draws = s.draws := rfl

@[simp] theorem putStreamBit_params (p : Nat) (b : Bool) (s : State) : (putStreamBit p b s).params = s.params := rfl
@[simp] theorem putStreamBit_irqEn (p : Nat) (b : Bool) (s : State) : (putStreamBit p b s).irqEn = s.irqEn := rfl
@[simp] theorem putStreamBit_done (p : Nat) (b : Bool) (s : State) : (putStreamBit p b s).done = s.done := rfl
@[simp] theorem putStreamBit_freqValid (p : Nat) (b : Bool) (s : State) : (putStreamBit p b s).freqValid = s.freqValid := rfl
@[simp] theorem putStreamBit_treeValid (p : Nat) (b : Bool) (s : State) : (putStreamBit p b s).treeValid = s.treeValid := rfl
@[simp] theorem putStreamBit_tableValid (p : Nat) (b : Bool) (s : State) : (putStreamBit p b s).tableValid = s.tableValid := rfl
@[simp] theorem putStreamBit_overrun (p : Nat) (b : Bool) (s : State) : (putStreamBit p b s).overrun = s.overrun := rfl
@[simp] theorem putStreamBit_errCode (p : Nat) (b : Bool) (s : State) : (putStreamBit p b s).errCode = s.errCode := rfl
@[simp] theorem putStreamBit_errInfo (p : Nat) (b : Bool) (s : State) : (putStreamBit p b s).errInfo = s.errInfo := rfl
@[simp] theorem putStreamBit_inLen (p : Nat) (b : Bool) (s : State) : (putStreamBit p b s).inLen = s.inLen := rfl
@[simp] theorem putStreamBit_outLen (p : Nat) (b : Bool) (s : State) : (putStreamBit p b s).outLen = s.outLen := rfl
@[simp] theorem putStreamBit_totalBits (p : Nat) (b : Bool) (s : State) : (putStreamBit p b s).totalBits = s.totalBits := rfl
@[simp] theorem putStreamBit_nodeCount (p : Nat) (b : Bool) (s : State) : (putStreamBit p b s).nodeCount = s.nodeCount := rfl
@[simp] theorem putStreamBit_root (p : Nat) (b : Bool) (s : State) : (putStreamBit p b s).root = s.root := rfl
@[simp] theorem putStreamBit_appLo (p : Nat) (b : Bool) (s : State) : (putStreamBit p b s).appLo = s.appLo := rfl
@[simp] theorem putStreamBit_appHi (p : Nat) (b : Bool) (s : State) : (putStreamBit p b s).appHi = s.appHi := rfl
@[simp] theorem putStreamBit_symMem (p : Nat) (b : Bool) (s : State) : (putStreamBit p b s).symMem = s.symMem := rfl
@[simp] theorem putStreamBit_freq (p : Nat) (b : Bool) (s : State) : (putStreamBit p b s).freq = s.freq := rfl
@[simp] theorem putStreamBit_node (p : Nat) (b : Bool) (s : State) : (putStreamBit p b s).node = s.node := rfl
@[simp] theorem putStreamBit_code (p : Nat) (b : Bool) (s : State) : (putStreamBit p b s).code = s.code := rfl
@[simp] theorem putStreamBit_pbuf (p : Nat) (b : Bool) (s : State) : (putStreamBit p b s).pbuf = Store.put (p / 32) (appendedHalf s (p / 32) (p % 32) b) s.pbuf := rfl
@[simp] theorem putStreamBit_outMem (p : Nat) (b : Bool) (s : State) : (putStreamBit p b s).outMem = s.outMem := rfl
@[simp] theorem putStreamBit_pending (p : Nat) (b : Bool) (s : State) : (putStreamBit p b s).pending = s.pending := rfl
@[simp] theorem putStreamBit_lq (p : Nat) (b : Bool) (s : State) : (putStreamBit p b s).lq = s.lq := rfl
@[simp] theorem putStreamBit_iq (p : Nat) (b : Bool) (s : State) : (putStreamBit p b s).iq = s.iq := rfl
@[simp] theorem putStreamBit_stack (p : Nat) (b : Bool) (s : State) : (putStreamBit p b s).stack = s.stack := rfl
@[simp] theorem putStreamBit_cand (p : Nat) (b : Bool) (s : State) : (putStreamBit p b s).cand = s.cand := rfl
@[simp] theorem putStreamBit_inputs (p : Nat) (b : Bool) (s : State) : (putStreamBit p b s).inputs = s.inputs := rfl
@[simp] theorem putStreamBit_replies (p : Nat) (b : Bool) (s : State) : (putStreamBit p b s).replies = s.replies := rfl
@[simp] theorem putStreamBit_resets (p : Nat) (b : Bool) (s : State) : (putStreamBit p b s).resets = s.resets := rfl
@[simp] theorem putStreamBit_draws (p : Nat) (b : Bool) (s : State) : (putStreamBit p b s).draws = s.draws := rfl

@[simp] theorem appendBit_params (b : Bool) (s : State) : (appendBit b s).params = s.params := rfl
@[simp] theorem appendBit_irqEn (b : Bool) (s : State) : (appendBit b s).irqEn = s.irqEn := rfl
@[simp] theorem appendBit_done (b : Bool) (s : State) : (appendBit b s).done = s.done := rfl
@[simp] theorem appendBit_freqValid (b : Bool) (s : State) : (appendBit b s).freqValid = s.freqValid := rfl
@[simp] theorem appendBit_treeValid (b : Bool) (s : State) : (appendBit b s).treeValid = s.treeValid := rfl
@[simp] theorem appendBit_tableValid (b : Bool) (s : State) : (appendBit b s).tableValid = s.tableValid := rfl
@[simp] theorem appendBit_overrun (b : Bool) (s : State) : (appendBit b s).overrun = s.overrun := rfl
@[simp] theorem appendBit_errCode (b : Bool) (s : State) : (appendBit b s).errCode = s.errCode := rfl
@[simp] theorem appendBit_errInfo (b : Bool) (s : State) : (appendBit b s).errInfo = s.errInfo := rfl
@[simp] theorem appendBit_inLen (b : Bool) (s : State) : (appendBit b s).inLen = s.inLen := rfl
@[simp] theorem appendBit_outLen (b : Bool) (s : State) : (appendBit b s).outLen = s.outLen := rfl
@[simp] theorem appendBit_totalBits (b : Bool) (s : State) : (appendBit b s).totalBits = s.totalBits + 1 := rfl
@[simp] theorem appendBit_nodeCount (b : Bool) (s : State) : (appendBit b s).nodeCount = s.nodeCount := rfl
@[simp] theorem appendBit_root (b : Bool) (s : State) : (appendBit b s).root = s.root := rfl
@[simp] theorem appendBit_appLo (b : Bool) (s : State) : (appendBit b s).appLo = s.appLo := rfl
@[simp] theorem appendBit_appHi (b : Bool) (s : State) : (appendBit b s).appHi = s.appHi := rfl
@[simp] theorem appendBit_symMem (b : Bool) (s : State) : (appendBit b s).symMem = s.symMem := rfl
@[simp] theorem appendBit_freq (b : Bool) (s : State) : (appendBit b s).freq = s.freq := rfl
@[simp] theorem appendBit_node (b : Bool) (s : State) : (appendBit b s).node = s.node := rfl
@[simp] theorem appendBit_code (b : Bool) (s : State) : (appendBit b s).code = s.code := rfl
@[simp] theorem appendBit_pbuf (b : Bool) (s : State) : (appendBit b s).pbuf = (putStreamBit s.totalBits.toNat b (freshWord s.totalBits.toNat s)).pbuf := rfl
@[simp] theorem appendBit_outMem (b : Bool) (s : State) : (appendBit b s).outMem = s.outMem := rfl
@[simp] theorem appendBit_pending (b : Bool) (s : State) : (appendBit b s).pending = s.pending := rfl
@[simp] theorem appendBit_lq (b : Bool) (s : State) : (appendBit b s).lq = s.lq := rfl
@[simp] theorem appendBit_iq (b : Bool) (s : State) : (appendBit b s).iq = s.iq := rfl
@[simp] theorem appendBit_stack (b : Bool) (s : State) : (appendBit b s).stack = s.stack := rfl
@[simp] theorem appendBit_cand (b : Bool) (s : State) : (appendBit b s).cand = s.cand := rfl
@[simp] theorem appendBit_inputs (b : Bool) (s : State) : (appendBit b s).inputs = s.inputs := rfl
@[simp] theorem appendBit_replies (b : Bool) (s : State) : (appendBit b s).replies = s.replies := rfl
@[simp] theorem appendBit_resets (b : Bool) (s : State) : (appendBit b s).resets = s.resets := rfl
@[simp] theorem appendBit_draws (b : Bool) (s : State) : (appendBit b s).draws = s.draws := rfl

@[simp] theorem emptyBuffer_params (s : State) : (emptyBuffer s).params = s.params := rfl
@[simp] theorem emptyBuffer_irqEn (s : State) : (emptyBuffer s).irqEn = s.irqEn := rfl
@[simp] theorem emptyBuffer_done (s : State) : (emptyBuffer s).done = s.done := rfl
@[simp] theorem emptyBuffer_freqValid (s : State) : (emptyBuffer s).freqValid = s.freqValid := rfl
@[simp] theorem emptyBuffer_treeValid (s : State) : (emptyBuffer s).treeValid = s.treeValid := rfl
@[simp] theorem emptyBuffer_tableValid (s : State) : (emptyBuffer s).tableValid = s.tableValid := rfl
@[simp] theorem emptyBuffer_overrun (s : State) : (emptyBuffer s).overrun = s.overrun := rfl
@[simp] theorem emptyBuffer_errCode (s : State) : (emptyBuffer s).errCode = s.errCode := rfl
@[simp] theorem emptyBuffer_errInfo (s : State) : (emptyBuffer s).errInfo = s.errInfo := rfl
@[simp] theorem emptyBuffer_inLen (s : State) : (emptyBuffer s).inLen = s.inLen := rfl
@[simp] theorem emptyBuffer_outLen (s : State) : (emptyBuffer s).outLen = s.outLen := rfl
@[simp] theorem emptyBuffer_totalBits (s : State) : (emptyBuffer s).totalBits = 0 := rfl
@[simp] theorem emptyBuffer_nodeCount (s : State) : (emptyBuffer s).nodeCount = s.nodeCount := rfl
@[simp] theorem emptyBuffer_root (s : State) : (emptyBuffer s).root = s.root := rfl
@[simp] theorem emptyBuffer_appLo (s : State) : (emptyBuffer s).appLo = s.appLo := rfl
@[simp] theorem emptyBuffer_appHi (s : State) : (emptyBuffer s).appHi = s.appHi := rfl
@[simp] theorem emptyBuffer_symMem (s : State) : (emptyBuffer s).symMem = s.symMem := rfl
@[simp] theorem emptyBuffer_freq (s : State) : (emptyBuffer s).freq = s.freq := rfl
@[simp] theorem emptyBuffer_node (s : State) : (emptyBuffer s).node = s.node := rfl
@[simp] theorem emptyBuffer_code (s : State) : (emptyBuffer s).code = s.code := rfl
@[simp] theorem emptyBuffer_pbuf (s : State) : (emptyBuffer s).pbuf = s.pbuf := rfl
@[simp] theorem emptyBuffer_outMem (s : State) : (emptyBuffer s).outMem = s.outMem := rfl
@[simp] theorem emptyBuffer_pending (s : State) : (emptyBuffer s).pending = s.pending := rfl
@[simp] theorem emptyBuffer_lq (s : State) : (emptyBuffer s).lq = s.lq := rfl
@[simp] theorem emptyBuffer_iq (s : State) : (emptyBuffer s).iq = s.iq := rfl
@[simp] theorem emptyBuffer_stack (s : State) : (emptyBuffer s).stack = s.stack := rfl
@[simp] theorem emptyBuffer_cand (s : State) : (emptyBuffer s).cand = s.cand := rfl
@[simp] theorem emptyBuffer_inputs (s : State) : (emptyBuffer s).inputs = s.inputs := rfl
@[simp] theorem emptyBuffer_replies (s : State) : (emptyBuffer s).replies = s.replies := rfl
@[simp] theorem emptyBuffer_resets (s : State) : (emptyBuffer s).resets = s.resets := rfl
@[simp] theorem emptyBuffer_draws (s : State) : (emptyBuffer s).draws = s.draws := rfl

@[simp] theorem clearTable_params (s : State) : (clearTable s).params = s.params := rfl
@[simp] theorem clearTable_irqEn (s : State) : (clearTable s).irqEn = s.irqEn := rfl
@[simp] theorem clearTable_done (s : State) : (clearTable s).done = s.done := rfl
@[simp] theorem clearTable_freqValid (s : State) : (clearTable s).freqValid = s.freqValid := rfl
@[simp] theorem clearTable_treeValid (s : State) : (clearTable s).treeValid = s.treeValid := rfl
@[simp] theorem clearTable_tableValid (s : State) : (clearTable s).tableValid = false := rfl
@[simp] theorem clearTable_overrun (s : State) : (clearTable s).overrun = s.overrun := rfl
@[simp] theorem clearTable_errCode (s : State) : (clearTable s).errCode = s.errCode := rfl
@[simp] theorem clearTable_errInfo (s : State) : (clearTable s).errInfo = s.errInfo := rfl
@[simp] theorem clearTable_inLen (s : State) : (clearTable s).inLen = s.inLen := rfl
@[simp] theorem clearTable_outLen (s : State) : (clearTable s).outLen = s.outLen := rfl
@[simp] theorem clearTable_totalBits (s : State) : (clearTable s).totalBits = s.totalBits := rfl
@[simp] theorem clearTable_nodeCount (s : State) : (clearTable s).nodeCount = s.nodeCount := rfl
@[simp] theorem clearTable_root (s : State) : (clearTable s).root = s.root := rfl
@[simp] theorem clearTable_appLo (s : State) : (clearTable s).appLo = s.appLo := rfl
@[simp] theorem clearTable_appHi (s : State) : (clearTable s).appHi = s.appHi := rfl
@[simp] theorem clearTable_symMem (s : State) : (clearTable s).symMem = s.symMem := rfl
@[simp] theorem clearTable_freq (s : State) : (clearTable s).freq = s.freq := rfl
@[simp] theorem clearTable_node (s : State) : (clearTable s).node = s.node := rfl
@[simp] theorem clearTable_code (s : State) : (clearTable s).code = [] := rfl
@[simp] theorem clearTable_pbuf (s : State) : (clearTable s).pbuf = s.pbuf := rfl
@[simp] theorem clearTable_outMem (s : State) : (clearTable s).outMem = s.outMem := rfl
@[simp] theorem clearTable_pending (s : State) : (clearTable s).pending = s.pending := rfl
@[simp] theorem clearTable_lq (s : State) : (clearTable s).lq = s.lq := rfl
@[simp] theorem clearTable_iq (s : State) : (clearTable s).iq = s.iq := rfl
@[simp] theorem clearTable_stack (s : State) : (clearTable s).stack = s.stack := rfl
@[simp] theorem clearTable_cand (s : State) : (clearTable s).cand = s.cand := rfl
@[simp] theorem clearTable_inputs (s : State) : (clearTable s).inputs = s.inputs := rfl
@[simp] theorem clearTable_replies (s : State) : (clearTable s).replies = s.replies := rfl
@[simp] theorem clearTable_resets (s : State) : (clearTable s).resets = s.resets := rfl
@[simp] theorem clearTable_draws (s : State) : (clearTable s).draws = s.draws := rfl

@[simp] theorem startDecode_params (s : State) : (startDecode s).params = s.params := rfl
@[simp] theorem startDecode_irqEn (s : State) : (startDecode s).irqEn = s.irqEn := rfl
@[simp] theorem startDecode_done (s : State) : (startDecode s).done = s.done := rfl
@[simp] theorem startDecode_freqValid (s : State) : (startDecode s).freqValid = s.freqValid := rfl
@[simp] theorem startDecode_treeValid (s : State) : (startDecode s).treeValid = s.treeValid := rfl
@[simp] theorem startDecode_tableValid (s : State) : (startDecode s).tableValid = s.tableValid := rfl
@[simp] theorem startDecode_overrun (s : State) : (startDecode s).overrun = s.overrun := rfl
@[simp] theorem startDecode_errCode (s : State) : (startDecode s).errCode = s.errCode := rfl
@[simp] theorem startDecode_errInfo (s : State) : (startDecode s).errInfo = s.errInfo := rfl
@[simp] theorem startDecode_inLen (s : State) : (startDecode s).inLen = s.inLen := rfl
@[simp] theorem startDecode_outLen (s : State) : (startDecode s).outLen = 0 := rfl
@[simp] theorem startDecode_totalBits (s : State) : (startDecode s).totalBits = s.totalBits := rfl
@[simp] theorem startDecode_nodeCount (s : State) : (startDecode s).nodeCount = s.nodeCount := rfl
@[simp] theorem startDecode_root (s : State) : (startDecode s).root = s.root := rfl
@[simp] theorem startDecode_appLo (s : State) : (startDecode s).appLo = s.appLo := rfl
@[simp] theorem startDecode_appHi (s : State) : (startDecode s).appHi = s.appHi := rfl
@[simp] theorem startDecode_symMem (s : State) : (startDecode s).symMem = s.symMem := rfl
@[simp] theorem startDecode_freq (s : State) : (startDecode s).freq = s.freq := rfl
@[simp] theorem startDecode_node (s : State) : (startDecode s).node = s.node := rfl
@[simp] theorem startDecode_code (s : State) : (startDecode s).code = s.code := rfl
@[simp] theorem startDecode_pbuf (s : State) : (startDecode s).pbuf = s.pbuf := rfl
@[simp] theorem startDecode_outMem (s : State) : (startDecode s).outMem = s.outMem := rfl
@[simp] theorem startDecode_pending (s : State) : (startDecode s).pending = s.pending := rfl
@[simp] theorem startDecode_lq (s : State) : (startDecode s).lq = s.lq := rfl
@[simp] theorem startDecode_iq (s : State) : (startDecode s).iq = s.iq := rfl
@[simp] theorem startDecode_stack (s : State) : (startDecode s).stack = s.stack := rfl
@[simp] theorem startDecode_cand (s : State) : (startDecode s).cand = emptyCandidate := rfl
@[simp] theorem startDecode_inputs (s : State) : (startDecode s).inputs = s.inputs := rfl
@[simp] theorem startDecode_replies (s : State) : (startDecode s).replies = s.replies := rfl
@[simp] theorem startDecode_resets (s : State) : (startDecode s).resets = s.resets := rfl
@[simp] theorem startDecode_draws (s : State) : (startDecode s).draws = s.draws := rfl

@[simp] theorem emitSymbol_params (x : Nat) (s : State) : (emitSymbol x s).params = s.params := rfl
@[simp] theorem emitSymbol_irqEn (x : Nat) (s : State) : (emitSymbol x s).irqEn = s.irqEn := rfl
@[simp] theorem emitSymbol_done (x : Nat) (s : State) : (emitSymbol x s).done = s.done := rfl
@[simp] theorem emitSymbol_freqValid (x : Nat) (s : State) : (emitSymbol x s).freqValid = s.freqValid := rfl
@[simp] theorem emitSymbol_treeValid (x : Nat) (s : State) : (emitSymbol x s).treeValid = s.treeValid := rfl
@[simp] theorem emitSymbol_tableValid (x : Nat) (s : State) : (emitSymbol x s).tableValid = s.tableValid := rfl
@[simp] theorem emitSymbol_overrun (x : Nat) (s : State) : (emitSymbol x s).overrun = s.overrun := rfl
@[simp] theorem emitSymbol_errCode (x : Nat) (s : State) : (emitSymbol x s).errCode = s.errCode := rfl
@[simp] theorem emitSymbol_errInfo (x : Nat) (s : State) : (emitSymbol x s).errInfo = s.errInfo := rfl
@[simp] theorem emitSymbol_inLen (x : Nat) (s : State) : (emitSymbol x s).inLen = s.inLen := rfl
@[simp] theorem emitSymbol_outLen (x : Nat) (s : State) : (emitSymbol x s).outLen = s.outLen + 1 := rfl
@[simp] theorem emitSymbol_totalBits (x : Nat) (s : State) : (emitSymbol x s).totalBits = s.totalBits := rfl
@[simp] theorem emitSymbol_nodeCount (x : Nat) (s : State) : (emitSymbol x s).nodeCount = s.nodeCount := rfl
@[simp] theorem emitSymbol_root (x : Nat) (s : State) : (emitSymbol x s).root = s.root := rfl
@[simp] theorem emitSymbol_appLo (x : Nat) (s : State) : (emitSymbol x s).appLo = s.appLo := rfl
@[simp] theorem emitSymbol_appHi (x : Nat) (s : State) : (emitSymbol x s).appHi = s.appHi := rfl
@[simp] theorem emitSymbol_symMem (x : Nat) (s : State) : (emitSymbol x s).symMem = s.symMem := rfl
@[simp] theorem emitSymbol_freq (x : Nat) (s : State) : (emitSymbol x s).freq = s.freq := rfl
@[simp] theorem emitSymbol_node (x : Nat) (s : State) : (emitSymbol x s).node = s.node := rfl
@[simp] theorem emitSymbol_code (x : Nat) (s : State) : (emitSymbol x s).code = s.code := rfl
@[simp] theorem emitSymbol_pbuf (x : Nat) (s : State) : (emitSymbol x s).pbuf = s.pbuf := rfl
@[simp] theorem emitSymbol_outMem (x : Nat) (s : State) : (emitSymbol x s).outMem = Store.put s.outLen.toNat (BitVec.ofNat 8 x) s.outMem := rfl
@[simp] theorem emitSymbol_pending (x : Nat) (s : State) : (emitSymbol x s).pending = s.pending := rfl
@[simp] theorem emitSymbol_lq (x : Nat) (s : State) : (emitSymbol x s).lq = s.lq := rfl
@[simp] theorem emitSymbol_iq (x : Nat) (s : State) : (emitSymbol x s).iq = s.iq := rfl
@[simp] theorem emitSymbol_stack (x : Nat) (s : State) : (emitSymbol x s).stack = s.stack := rfl
@[simp] theorem emitSymbol_cand (x : Nat) (s : State) : (emitSymbol x s).cand = emptyCandidate := rfl
@[simp] theorem emitSymbol_inputs (x : Nat) (s : State) : (emitSymbol x s).inputs = s.inputs := rfl
@[simp] theorem emitSymbol_replies (x : Nat) (s : State) : (emitSymbol x s).replies = s.replies := rfl
@[simp] theorem emitSymbol_resets (x : Nat) (s : State) : (emitSymbol x s).resets = s.resets := rfl
@[simp] theorem emitSymbol_draws (x : Nat) (s : State) : (emitSymbol x s).draws = s.draws := rfl

@[simp] theorem buildLeaves_params (s : State) : (buildLeaves s).params = s.params := rfl
@[simp] theorem buildLeaves_irqEn (s : State) : (buildLeaves s).irqEn = s.irqEn := rfl
@[simp] theorem buildLeaves_done (s : State) : (buildLeaves s).done = s.done := rfl
@[simp] theorem buildLeaves_freqValid (s : State) : (buildLeaves s).freqValid = s.freqValid := rfl
@[simp] theorem buildLeaves_treeValid (s : State) : (buildLeaves s).treeValid = false := rfl
@[simp] theorem buildLeaves_tableValid (s : State) : (buildLeaves s).tableValid = s.tableValid := rfl
@[simp] theorem buildLeaves_overrun (s : State) : (buildLeaves s).overrun = s.overrun := rfl
@[simp] theorem buildLeaves_errCode (s : State) : (buildLeaves s).errCode = s.errCode := rfl
@[simp] theorem buildLeaves_errInfo (s : State) : (buildLeaves s).errInfo = s.errInfo := rfl
@[simp] theorem buildLeaves_inLen (s : State) : (buildLeaves s).inLen = s.inLen := rfl
@[simp] theorem buildLeaves_outLen (s : State) : (buildLeaves s).outLen = s.outLen := rfl
@[simp] theorem buildLeaves_totalBits (s : State) : (buildLeaves s).totalBits = s.totalBits := rfl
@[simp] theorem buildLeaves_nodeCount (s : State) : (buildLeaves s).nodeCount = 0 := rfl
@[simp] theorem buildLeaves_root (s : State) : (buildLeaves s).root = 0 := rfl
@[simp] theorem buildLeaves_appLo (s : State) : (buildLeaves s).appLo = s.appLo := rfl
@[simp] theorem buildLeaves_appHi (s : State) : (buildLeaves s).appHi = s.appHi := rfl
@[simp] theorem buildLeaves_symMem (s : State) : (buildLeaves s).symMem = s.symMem := rfl
@[simp] theorem buildLeaves_freq (s : State) : (buildLeaves s).freq = s.freq := rfl
@[simp] theorem buildLeaves_node (s : State) : (buildLeaves s).node = placeLeaves s.freq 0 (presentSymbols s.freq) s.node := rfl
@[simp] theorem buildLeaves_code (s : State) : (buildLeaves s).code = s.code := rfl
@[simp] theorem buildLeaves_pbuf (s : State) : (buildLeaves s).pbuf = s.pbuf := rfl
@[simp] theorem buildLeaves_outMem (s : State) : (buildLeaves s).outMem = s.outMem := rfl
@[simp] theorem buildLeaves_pending (s : State) : (buildLeaves s).pending = s.pending := rfl
@[simp] theorem buildLeaves_lq (s : State) : (buildLeaves s).lq = s.lq := rfl
@[simp] theorem buildLeaves_iq (s : State) : (buildLeaves s).iq = s.iq := rfl
@[simp] theorem buildLeaves_stack (s : State) : (buildLeaves s).stack = s.stack := rfl
@[simp] theorem buildLeaves_cand (s : State) : (buildLeaves s).cand = s.cand := rfl
@[simp] theorem buildLeaves_inputs (s : State) : (buildLeaves s).inputs = s.inputs := rfl
@[simp] theorem buildLeaves_replies (s : State) : (buildLeaves s).replies = s.replies := rfl
@[simp] theorem buildLeaves_resets (s : State) : (buildLeaves s).resets = s.resets := rfl
@[simp] theorem buildLeaves_draws (s : State) : (buildLeaves s).draws = s.draws := rfl

@[simp] theorem singleTree_params (s : State) : (singleTree s).params = s.params := rfl
@[simp] theorem singleTree_irqEn (s : State) : (singleTree s).irqEn = s.irqEn := rfl
@[simp] theorem singleTree_done (s : State) : (singleTree s).done = s.done := rfl
@[simp] theorem singleTree_freqValid (s : State) : (singleTree s).freqValid = s.freqValid := rfl
@[simp] theorem singleTree_treeValid (s : State) : (singleTree s).treeValid = true := rfl
@[simp] theorem singleTree_tableValid (s : State) : (singleTree s).tableValid = s.tableValid := rfl
@[simp] theorem singleTree_overrun (s : State) : (singleTree s).overrun = s.overrun := rfl
@[simp] theorem singleTree_errCode (s : State) : (singleTree s).errCode = s.errCode := rfl
@[simp] theorem singleTree_errInfo (s : State) : (singleTree s).errInfo = s.errInfo := rfl
@[simp] theorem singleTree_inLen (s : State) : (singleTree s).inLen = s.inLen := rfl
@[simp] theorem singleTree_outLen (s : State) : (singleTree s).outLen = s.outLen := rfl
@[simp] theorem singleTree_totalBits (s : State) : (singleTree s).totalBits = s.totalBits := rfl
@[simp] theorem singleTree_nodeCount (s : State) : (singleTree s).nodeCount = 1 := rfl
@[simp] theorem singleTree_root (s : State) : (singleTree s).root = 0 := rfl
@[simp] theorem singleTree_appLo (s : State) : (singleTree s).appLo = s.appLo := rfl
@[simp] theorem singleTree_appHi (s : State) : (singleTree s).appHi = s.appHi := rfl
@[simp] theorem singleTree_symMem (s : State) : (singleTree s).symMem = s.symMem := rfl
@[simp] theorem singleTree_freq (s : State) : (singleTree s).freq = s.freq := rfl
@[simp] theorem singleTree_node (s : State) : (singleTree s).node = s.node := rfl
@[simp] theorem singleTree_code (s : State) : (singleTree s).code = s.code := rfl
@[simp] theorem singleTree_pbuf (s : State) : (singleTree s).pbuf = s.pbuf := rfl
@[simp] theorem singleTree_outMem (s : State) : (singleTree s).outMem = s.outMem := rfl
@[simp] theorem singleTree_pending (s : State) : (singleTree s).pending = s.pending := rfl
@[simp] theorem singleTree_lq (s : State) : (singleTree s).lq = sortedLeaves s 1 := rfl
@[simp] theorem singleTree_iq (s : State) : (singleTree s).iq = [] := rfl
@[simp] theorem singleTree_stack (s : State) : (singleTree s).stack = s.stack := rfl
@[simp] theorem singleTree_cand (s : State) : (singleTree s).cand = s.cand := rfl
@[simp] theorem singleTree_inputs (s : State) : (singleTree s).inputs = s.inputs := rfl
@[simp] theorem singleTree_replies (s : State) : (singleTree s).replies = s.replies := rfl
@[simp] theorem singleTree_resets (s : State) : (singleTree s).resets = s.resets := rfl
@[simp] theorem singleTree_draws (s : State) : (singleTree s).draws = s.draws := rfl

@[simp] theorem mergedTree_params (s : State) (f : Forest) : (mergedTree s f).params = s.params := rfl
@[simp] theorem mergedTree_irqEn (s : State) (f : Forest) : (mergedTree s f).irqEn = s.irqEn := rfl
@[simp] theorem mergedTree_done (s : State) (f : Forest) : (mergedTree s f).done = s.done := rfl
@[simp] theorem mergedTree_freqValid (s : State) (f : Forest) : (mergedTree s f).freqValid = s.freqValid := rfl
@[simp] theorem mergedTree_treeValid (s : State) (f : Forest) : (mergedTree s f).treeValid = true := rfl
@[simp] theorem mergedTree_tableValid (s : State) (f : Forest) : (mergedTree s f).tableValid = s.tableValid := rfl
@[simp] theorem mergedTree_overrun (s : State) (f : Forest) : (mergedTree s f).overrun = s.overrun := rfl
@[simp] theorem mergedTree_errCode (s : State) (f : Forest) : (mergedTree s f).errCode = s.errCode := rfl
@[simp] theorem mergedTree_errInfo (s : State) (f : Forest) : (mergedTree s f).errInfo = s.errInfo := rfl
@[simp] theorem mergedTree_inLen (s : State) (f : Forest) : (mergedTree s f).inLen = s.inLen := rfl
@[simp] theorem mergedTree_outLen (s : State) (f : Forest) : (mergedTree s f).outLen = s.outLen := rfl
@[simp] theorem mergedTree_totalBits (s : State) (f : Forest) : (mergedTree s f).totalBits = s.totalBits := rfl
@[simp] theorem mergedTree_nodeCount (s : State) (f : Forest) : (mergedTree s f).nodeCount = BitVec.ofNat 32 f.next := rfl
@[simp] theorem mergedTree_root (s : State) (f : Forest) : (mergedTree s f).root = BitVec.ofNat 9 (f.iq.headD 0) := rfl
@[simp] theorem mergedTree_appLo (s : State) (f : Forest) : (mergedTree s f).appLo = s.appLo := rfl
@[simp] theorem mergedTree_appHi (s : State) (f : Forest) : (mergedTree s f).appHi = s.appHi := rfl
@[simp] theorem mergedTree_symMem (s : State) (f : Forest) : (mergedTree s f).symMem = s.symMem := rfl
@[simp] theorem mergedTree_freq (s : State) (f : Forest) : (mergedTree s f).freq = s.freq := rfl
@[simp] theorem mergedTree_node (s : State) (f : Forest) : (mergedTree s f).node = f.node := rfl
@[simp] theorem mergedTree_code (s : State) (f : Forest) : (mergedTree s f).code = s.code := rfl
@[simp] theorem mergedTree_pbuf (s : State) (f : Forest) : (mergedTree s f).pbuf = s.pbuf := rfl
@[simp] theorem mergedTree_outMem (s : State) (f : Forest) : (mergedTree s f).outMem = s.outMem := rfl
@[simp] theorem mergedTree_pending (s : State) (f : Forest) : (mergedTree s f).pending = s.pending := rfl
@[simp] theorem mergedTree_lq (s : State) (f : Forest) : (mergedTree s f).lq = f.lq := rfl
@[simp] theorem mergedTree_iq (s : State) (f : Forest) : (mergedTree s f).iq = f.iq := rfl
@[simp] theorem mergedTree_stack (s : State) (f : Forest) : (mergedTree s f).stack = s.stack := rfl
@[simp] theorem mergedTree_cand (s : State) (f : Forest) : (mergedTree s f).cand = s.cand := rfl
@[simp] theorem mergedTree_inputs (s : State) (f : Forest) : (mergedTree s f).inputs = s.inputs := rfl
@[simp] theorem mergedTree_replies (s : State) (f : Forest) : (mergedTree s f).replies = s.replies := rfl
@[simp] theorem mergedTree_resets (s : State) (f : Forest) : (mergedTree s f).resets = s.resets := rfl
@[simp] theorem mergedTree_draws (s : State) (f : Forest) : (mergedTree s f).draws = s.draws := rfl

@[simp] theorem applyReset_params (s : State) : (applyReset s).params = s.params := rfl
@[simp] theorem applyReset_irqEn (s : State) : (applyReset s).irqEn = false := rfl
@[simp] theorem applyReset_done (s : State) : (applyReset s).done = false := rfl
@[simp] theorem applyReset_freqValid (s : State) : (applyReset s).freqValid = false := rfl
@[simp] theorem applyReset_treeValid (s : State) : (applyReset s).treeValid = false := rfl
@[simp] theorem applyReset_tableValid (s : State) : (applyReset s).tableValid = false := rfl
@[simp] theorem applyReset_overrun (s : State) : (applyReset s).overrun = false := rfl
@[simp] theorem applyReset_errCode (s : State) : (applyReset s).errCode = .ok := rfl
@[simp] theorem applyReset_errInfo (s : State) : (applyReset s).errInfo = 0 := rfl
@[simp] theorem applyReset_inLen (s : State) : (applyReset s).inLen = 0 := rfl
@[simp] theorem applyReset_outLen (s : State) : (applyReset s).outLen = 0 := rfl
@[simp] theorem applyReset_totalBits (s : State) : (applyReset s).totalBits = 0 := rfl
@[simp] theorem applyReset_nodeCount (s : State) : (applyReset s).nodeCount = 0 := rfl
@[simp] theorem applyReset_root (s : State) : (applyReset s).root = 0 := rfl
@[simp] theorem applyReset_appLo (s : State) : (applyReset s).appLo = 0 := rfl
@[simp] theorem applyReset_appHi (s : State) : (applyReset s).appHi = 0 := rfl
@[simp] theorem applyReset_symMem (s : State) : (applyReset s).symMem = [] := rfl
@[simp] theorem applyReset_freq (s : State) : (applyReset s).freq = [] := rfl
@[simp] theorem applyReset_node (s : State) : (applyReset s).node = [] := rfl
@[simp] theorem applyReset_code (s : State) : (applyReset s).code = [] := rfl
@[simp] theorem applyReset_pbuf (s : State) : (applyReset s).pbuf = [] := rfl
@[simp] theorem applyReset_outMem (s : State) : (applyReset s).outMem = [] := rfl
@[simp] theorem applyReset_pending (s : State) : (applyReset s).pending = none := rfl
@[simp] theorem applyReset_lq (s : State) : (applyReset s).lq = [] := rfl
@[simp] theorem applyReset_iq (s : State) : (applyReset s).iq = [] := rfl
@[simp] theorem applyReset_stack (s : State) : (applyReset s).stack = [] := rfl
@[simp] theorem applyReset_cand (s : State) : (applyReset s).cand = emptyCandidate := rfl
@[simp] theorem applyReset_inputs (s : State) : (applyReset s).inputs = s.inputs := rfl
@[simp] theorem applyReset_replies (s : State) : (applyReset s).replies = s.replies := rfl
@[simp] theorem applyReset_resets (s : State) : (applyReset s).resets = s.resets + 1 := rfl
@[simp] theorem applyReset_draws (s : State) : (applyReset s).draws = s.draws := rfl

@[simp] theorem reset_params : State.reset.params = Params.default := rfl
@[simp] theorem reset_irqEn : State.reset.irqEn = false := rfl
@[simp] theorem reset_done : State.reset.done = false := rfl
@[simp] theorem reset_freqValid : State.reset.freqValid = false := rfl
@[simp] theorem reset_treeValid : State.reset.treeValid = false := rfl
@[simp] theorem reset_tableValid : State.reset.tableValid = false := rfl
@[simp] theorem reset_overrun : State.reset.overrun = false := rfl
@[simp] theorem reset_errCode : State.reset.errCode = .ok := rfl
@[simp] theorem reset_errInfo : State.reset.errInfo = 0 := rfl
@[simp] theorem reset_inLen : State.reset.inLen = 0 := rfl
@[simp] theorem reset_outLen : State.reset.outLen = 0 := rfl
@[simp] theorem reset_totalBits : State.reset.totalBits = 0 := rfl
@[simp] theorem reset_nodeCount : State.reset.nodeCount = 0 := rfl
@[simp] theorem reset_root : State.reset.root = 0 := rfl
@[simp] theorem reset_appLo : State.reset.appLo = 0 := rfl
@[simp] theorem reset_appHi : State.reset.appHi = 0 := rfl
@[simp] theorem reset_symMem : State.reset.symMem = [] := rfl
@[simp] theorem reset_freq : State.reset.freq = [] := rfl
@[simp] theorem reset_node : State.reset.node = [] := rfl
@[simp] theorem reset_code : State.reset.code = [] := rfl
@[simp] theorem reset_pbuf : State.reset.pbuf = [] := rfl
@[simp] theorem reset_outMem : State.reset.outMem = [] := rfl
@[simp] theorem reset_pending : State.reset.pending = none := rfl
@[simp] theorem reset_lq : State.reset.lq = [] := rfl
@[simp] theorem reset_iq : State.reset.iq = [] := rfl
@[simp] theorem reset_stack : State.reset.stack = [] := rfl
@[simp] theorem reset_cand : State.reset.cand = emptyCandidate := rfl
@[simp] theorem reset_inputs : State.reset.inputs = [] := rfl
@[simp] theorem reset_replies : State.reset.replies = [] := rfl
@[simp] theorem reset_resets : State.reset.resets = 0 := rfl
@[simp] theorem reset_draws : State.reset.draws = 0 := rfl

end Sys2Proof.Machine
end

