-- ==== Sys2Proof/Laws/Store.lean ====
section
/-! SUPPORT. The laws of sparse stores: read after write, the canonical form and what keeps it, and that a canonical store
is determined by what it reads as. -/

namespace Sys2Proof.Machine

variable {α : Type}

@[simp] theorem Store.find_nil (k : Nat) : Store.find ([] : Store α) k = none := rfl

theorem Store.find_cons (i : Nat) (v : α) (m : Store α) (k : Nat) :
    Store.find ((i, v) :: m) k = if k = i then some v else Store.find m k := rfl

@[simp] theorem Store.find_put_same (m : Store α) (k : Nat) (v : α) :
    Store.find (Store.put k v m) k = some v := by
  induction m with
  | nil => simp [Store.put, Store.find]
  | cons e m ih =>
    obtain ⟨i, w⟩ := e
    unfold Store.put
    split
    · simp [Store.find]
    · split
      · simp [Store.find]
      · simp_all [Store.find]

theorem Store.find_put_ne (m : Store α) {k j : Nat} (v : α) (h : j ≠ k) :
    Store.find (Store.put k v m) j = Store.find m j := by
  induction m with
  | nil => simp [Store.put, Store.find, h]
  | cons e m ih =>
    obtain ⟨i, w⟩ := e
    unfold Store.put
    split
    · simp [Store.find, h]
    · split
      · subst_vars; simp [Store.find, h]
      · simp [Store.find, ih]

theorem Store.find_put (m : Store α) (k j : Nat) (v : α) :
    Store.find (Store.put k v m) j = if j = k then some v else Store.find m j := by
  split
  · subst_vars; exact Store.find_put_same m _ v
  · exact Store.find_put_ne m v ‹_›

@[simp] theorem Store.find_del_same (m : Store α) (k : Nat) : Store.find (Store.del k m) k = none := by
  induction m with
  | nil => rfl
  | cons e m ih =>
    obtain ⟨i, w⟩ := e
    by_cases h : i = k
    · simpa [Store.del, h] using ih
    · have hk : k ≠ i := fun e => h e.symm
      simpa [Store.del, h, Store.find, hk] using ih

theorem Store.find_del_ne (m : Store α) {k j : Nat} (h : j ≠ k) :
    Store.find (Store.del k m) j = Store.find m j := by
  induction m with
  | nil => rfl
  | cons e m ih =>
    obtain ⟨i, w⟩ := e
    by_cases hi : i = k
    · subst hi; simpa [Store.del, Store.find, h] using ih
    · have : Store.del k ((i, w) :: m) = (i, w) :: Store.del k m := by simp [Store.del, hi]
      rw [this, Store.find_cons, Store.find_cons, ih]

theorem Store.mem_put {m : Store α} {k : Nat} {v : α} {e : Nat × α} (h : e ∈ Store.put k v m) :
    e = (k, v) ∨ e ∈ m := by
  induction m with
  | nil => simpa [Store.put] using h
  | cons x m ih =>
    obtain ⟨i, w⟩ := x
    unfold Store.put at h
    split at h
    · simpa using h
    · split at h
      · rcases List.mem_cons.1 h with h | h
        · exact .inl h
        · exact .inr (List.mem_cons_of_mem _ h)
      · rcases List.mem_cons.1 h with h | h
        · exact .inr (by simp [h])
        · exact (ih h).imp_right (List.mem_cons_of_mem _)

theorem Store.mem_of_find {m : Store α} {k : Nat} {v : α} (h : Store.find m k = some v) : (k, v) ∈ m := by
  induction m with
  | nil => simp at h
  | cons e m ih =>
    obtain ⟨i, w⟩ := e
    rw [Store.find_cons] at h
    split at h
    · simp_all
    · exact List.mem_cons_of_mem _ (ih h)

/-- The canonical form as a statement about the whole list of indices. -/
theorem Store.rising_iff (m : Store α) : Store.rising m = true ↔ (m.map Prod.fst).Pairwise (· < ·) := by
  induction m with
  | nil => simp [Store.rising]
  | cons e m ih =>
    obtain ⟨i, w⟩ := e
    cases m with
    | nil => simp [Store.rising]
    | cons f m =>
      obtain ⟨j, u⟩ := f
      simp only [Store.rising, Bool.and_eq_true, decide_eq_true_eq, ih, List.map_cons, List.pairwise_cons,
        List.mem_cons, forall_eq_or_imp]
      constructor
      · rintro ⟨hij, hj, hm⟩
        exact ⟨⟨hij, fun a ha => hij.trans (hj a ha)⟩, hj, hm⟩
      · rintro ⟨⟨hij, -⟩, hj, hm⟩
        exact ⟨hij, hj, hm⟩

theorem Store.rising_cons (i : Nat) (v : α) (m : Store α) :
    Store.rising ((i, v) :: m) = true ↔ (∀ e ∈ m, i < e.1) ∧ Store.rising m = true := by
  simp only [Store.rising_iff, List.map_cons, List.pairwise_cons, List.mem_map, forall_exists_index, and_imp,
    forall_apply_eq_imp_iff₂]

theorem Store.rising_put {m : Store α} (h : Store.rising m = true) (k : Nat) (v : α) :
    Store.rising (Store.put k v m) = true := by
  induction m with
  | nil => rfl
  | cons e m ih =>
    obtain ⟨i, w⟩ := e
    obtain ⟨hi, hm⟩ := (Store.rising_cons i w m).1 h
    unfold Store.put
    split
    · refine (Store.rising_cons _ _ _).2 ⟨fun e he => ?_, h⟩
      rcases List.mem_cons.1 he with rfl | he
      · assumption
      · have := hi e he; omega
    · split
      · subst_vars; exact (Store.rising_cons _ _ _).2 ⟨hi, hm⟩
      · refine (Store.rising_cons _ _ _).2 ⟨fun e he => ?_, ih hm⟩
        rcases Store.mem_put he with rfl | he
        · simp only; omega
        · exact hi e he

theorem Store.rising_del {m : Store α} (h : Store.rising m = true) (k : Nat) :
    Store.rising (Store.del k m) = true := by
  rw [Store.rising_iff] at *
  exact h.sublist ((List.filter_sublist (l := m)).map _)

theorem Store.within_iff (n : Nat) (m : Store α) : Store.within n m = true ↔ ∀ e ∈ m, e.1 < n := by
  simp [Store.within, List.all_eq_true]

theorem Store.within_put {m : Store α} {n k : Nat} (h : Store.within n m = true) (hk : k < n) (v : α) :
    Store.within n (Store.put k v m) = true := by
  rw [Store.within_iff] at *
  intro e he
  rcases Store.mem_put he with rfl | he
  · exact hk
  · exact h e he

theorem Store.within_del {m : Store α} {n : Nat} (h : Store.within n m = true) (k : Nat) :
    Store.within n (Store.del k m) = true := by
  rw [Store.within_iff] at *
  exact fun e he => h e (List.mem_of_mem_filter he)

theorem Store.noZero_iff (m : Store Word) : Store.noZero m = true ↔ ∀ e ∈ m, e.2 ≠ 0 := by
  simp [Store.noZero, List.all_eq_true]

theorem Store.rising_putCount {m : Store Word} (h : Store.rising m = true) (k : Nat) (c : Word) :
    Store.rising (Store.putCount k c m) = true := by
  unfold Store.putCount
  split
  · exact Store.rising_del h k
  · exact Store.rising_put h k c

theorem Store.within_putCount {m : Store Word} {n k : Nat} (h : Store.within n m = true) (hk : k < n) (c : Word) :
    Store.within n (Store.putCount k c m) = true := by
  unfold Store.putCount
  split
  · exact Store.within_del h k
  · exact Store.within_put h hk c

theorem Store.noZero_putCount {m : Store Word} (h : Store.noZero m = true) (k : Nat) (c : Word) :
    Store.noZero (Store.putCount k c m) = true := by
  rw [Store.noZero_iff] at *
  unfold Store.putCount
  split
  · exact fun e he => h e (List.mem_of_mem_filter he)
  · intro e he
    rcases Store.mem_put he with rfl | he
    · assumption
    · exact h e he

theorem Store.find_none_of_lt {m : Store α} {i : Nat} (h : ∀ e ∈ m, i < e.1) : Store.find m i = none := by
  cases hf : Store.find m i with
  | none => rfl
  | some v => exact absurd (h _ (Store.mem_of_find hf)) (lt_irrefl _)

/-- A canonical store lists an element exactly where it reads as one. -/
theorem Store.find_eq_some_iff {m : Store α} (h : Store.rising m = true) (k : Nat) (v : α) :
    Store.find m k = some v ↔ (k, v) ∈ m := by
  refine ⟨Store.mem_of_find, fun hm => ?_⟩
  induction m with
  | nil => simp at hm
  | cons e m ih =>
    obtain ⟨i, w⟩ := e
    obtain ⟨hi, hr⟩ := (Store.rising_cons i w m).1 h
    rw [Store.find_cons]
    rcases List.mem_cons.1 hm with hm | hm
    · simp_all
    · have : k ≠ i := by have := hi _ hm; simp only at this; omega
      rw [if_neg this]
      exact ih hr hm

/-- Equal memories are equal data: two canonical stores that read alike are the same list. -/
theorem Store.eq_of_find {m₁ m₂ : Store α} (h₁ : Store.rising m₁ = true) (h₂ : Store.rising m₂ = true)
    (h : ∀ k, Store.find m₁ k = Store.find m₂ k) : m₁ = m₂ := by
  induction m₁ generalizing m₂ with
  | nil =>
    cases m₂ with
    | nil => rfl
    | cons e m => obtain ⟨i, w⟩ := e; simpa [Store.find] using h i
  | cons e m ih =>
    obtain ⟨i, w⟩ := e
    obtain ⟨hi, hm⟩ := (Store.rising_cons i w m).1 h₁
    cases m₂ with
    | nil => simpa [Store.find] using h i
    | cons f n =>
      obtain ⟨j, u⟩ := f
      obtain ⟨hj, hn⟩ := (Store.rising_cons j u n).1 h₂
      have hij : i = j := by
        rcases Nat.lt_trichotomy i j with hlt | heq | hgt
        · have := h i
          rw [Store.find_cons, Store.find_cons, if_pos rfl, if_neg (by omega),
            Store.find_none_of_lt (fun e he => hlt.trans (hj e he))] at this
          simp at this
        · exact heq
        · have := h j
          rw [Store.find_cons, Store.find_cons, if_pos rfl, if_neg (by omega),
            Store.find_none_of_lt (fun e he => hgt.trans (hi e he))] at this
          simp at this
      subst hij
      have hwu : w = u := by simpa [Store.find] using h i
      subst hwu
      congr 1
      refine ih hm hn fun k => ?_
      have hk := h k
      rw [Store.find_cons, Store.find_cons] at hk
      by_cases hki : k = i
      · subst hki
        rw [Store.find_none_of_lt hi, Store.find_none_of_lt hj]
      · simpa [hki] using hk

end Sys2Proof.Machine
end

