-- ==== Sys2Proof/Laws/Ops.lean ====
section
/-! SUPPORT. What each shared operation can do, once: sequencing and `raise`, the bits of the packed stream under an
append, the queues, and one turn of the decoder. -/

namespace Sys2Proof.Machine

@[simp] theorem state_running (s : State) : (Progress.running s).state = s := rfl
@[simp] theorem state_ended (s : State) : (Progress.ended s).state = s := rfl
@[simp] theorem running_andThen (s : State) (f : State → Progress) : (Progress.running s).andThen f = f s := rfl
@[simp] theorem ended_andThen (s : State) (f : State → Progress) : (Progress.ended s).andThen f = .ended s := rfl
@[simp] theorem raise_andThen (e : ErrCode) (i : Word) (s : State) (f : State → Progress) :
    (raise e i s).andThen f = raise e i s := rfl
@[simp] theorem finish_eq (p : Progress) : finish p = .next p.state := rfl

/-- A sequence runs on only from a first part that was not ended. -/
theorem andThen_eq_running {p : Progress} {f : State → Progress} {t : State} (h : p.andThen f = .running t) :
    ∃ s, p = .running s ∧ f s = .running t := by
  cases p with
  | running s => exact ⟨s, rfl, h⟩
  | ended s => simp at h

/-! The bits of the packed stream. -/

theorem assignBit_getLsbD (h : Word) (b : Bool) {i : Nat} (hi : i < 32) (j : Nat) :
    (assignBit h i b).getLsbD j = if j = i then b else h.getLsbD j := by
  by_cases hj : j < 32
  · by_cases hji : j = i
    · subst hji; cases b <;> simp [assignBit, hj]
    · by_cases hlt : j < i
      · cases b <;> simp [assignBit, hj, hji, hlt]
      · have h0 : j - i ≠ 0 := by omega
        cases b <;> simp [assignBit, hj, hji, hlt, h0]
  · have : j ≠ i := by omega
    rw [if_neg this, BitVec.getLsbD_of_ge _ _ (by omega), BitVec.getLsbD_of_ge _ _ (by omega)]

theorem pbufHalf_putStreamBit (p : Nat) (b : Bool) (s : State) (k : Nat) :
    (putStreamBit p b s).pbufHalf k = if k = p / 32 then assignBit (s.pbufHalf k) (p % 32) b else s.pbufHalf k := by
  by_cases h : k = p / 32
  · subst h; simp [State.pbufHalf, appendedHalf]
  · simp [State.pbufHalf, Store.find_put_ne _ _ h, h]

theorem pbufMarks_putStreamBit (p : Nat) (b : Bool) (s : State) (k : Nat) :
    (putStreamBit p b s).pbufMarks k = if k = p / 32 then assignBit (s.pbufMarks k) (p % 32) true else s.pbufMarks k := by
  by_cases h : k = p / 32
  · subst h; simp [State.pbufMarks, appendedHalf]
  · simp [State.pbufMarks, Store.find_put_ne _ _ h, h]

/-- A bit assigned in one half, read at a stream position. -/
theorem getLsbD_assign_at (f : Nat → Word) (p q : Nat) (b : Bool) :
    (if q / 32 = p / 32 then assignBit (f (q / 32)) (p % 32) b else f (q / 32)).getLsbD (q % 32) =
      if q = p then b else (f (q / 32)).getLsbD (q % 32) := by
  by_cases hw : q / 32 = p / 32
  · rw [if_pos hw, assignBit_getLsbD _ _ (by omega)]
    by_cases hq : q = p
    · simp [hq]
    · rw [if_neg hq, if_neg (by omega)]
  · rw [if_neg hw, if_neg (by rintro rfl; exact hw rfl)]

theorem pbufBit_putStreamBit (p : Nat) (b : Bool) (s : State) (q : Nat) :
    (putStreamBit p b s).pbufBit q = if q = p then b else s.pbufBit q := by
  simp only [State.pbufBit, pbufHalf_putStreamBit]
  exact getLsbD_assign_at s.pbufHalf p q b

theorem pbufAppended_putStreamBit (p : Nat) (b : Bool) (s : State) (q : Nat) :
    (putStreamBit p b s).pbufAppended q = if q = p then true else s.pbufAppended q := by
  simp only [State.pbufAppended, pbufMarks_putStreamBit]
  exact getLsbD_assign_at s.pbufMarks p q true

theorem find_zeroWord (w : Nat) (m : Store PbufHalf) (k : Nat) :
    Store.find (zeroWord w m) k = if k / 2 = w then some zeroHalf else Store.find m k := by
  unfold zeroWord
  rw [Store.find_put, Store.find_put]
  by_cases h1 : k = 2 * w + 1
  · rw [if_pos h1, if_pos (by omega)]
  · by_cases h0 : k = 2 * w
    · rw [if_neg h1, if_pos h0, if_pos (by omega)]
    · rw [if_neg h1, if_neg h0, if_neg (by omega)]

theorem find_freshWord (p : Nat) (s : State) (k : Nat) :
    Store.find (freshWord p s).pbuf k =
      if p % 64 = 0 ∧ k / 2 = p / 64 then some zeroHalf else Store.find s.pbuf k := by
  rw [freshWord_pbuf]
  by_cases hp : p % 64 = 0
  · rw [if_pos hp, find_zeroWord]; simp only [hp, true_and]
  · rw [if_neg hp, if_neg (fun h => hp h.1)]

theorem pbufBit_freshWord (p : Nat) (s : State) (q : Nat) :
    (freshWord p s).pbufBit q = if p % 64 = 0 ∧ q / 64 = p / 64 then false else s.pbufBit q := by
  simp only [State.pbufBit, State.pbufHalf, find_freshWord, freshWord_resets, show q / 32 / 2 = q / 64 by omega]
  split <;> simp [zeroHalf]

theorem pbufAppended_freshWord (p : Nat) (s : State) (q : Nat) :
    (freshWord p s).pbufAppended q = if p % 64 = 0 ∧ q / 64 = p / 64 then true else s.pbufAppended q := by
  simp only [State.pbufAppended, State.pbufMarks, find_freshWord, show q / 32 / 2 = q / 64 by omega]
  split
  · show (BitVec.allOnes 32).getLsbD (q % 32) = true
    rw [BitVec.getLsbD_allOnes]; simp only [decide_eq_true_eq]; omega
  · rfl

/-- One turn of APPEND_BITS on the stream: the bit at the tail, zeros after it in a word it opens, every other bit kept. -/
theorem pbufBit_appendBit (b : Bool) (s : State) (q : Nat) :
    (appendBit b s).pbufBit q =
      if q = s.totalBits.toNat then b
      else if s.totalBits.toNat % 64 = 0 ∧ q / 64 = s.totalBits.toNat / 64 then false
      else s.pbufBit q := by
  rw [← pbufBit_freshWord, ← pbufBit_putStreamBit]
  simp [State.pbufBit, State.pbufHalf]

/-- One turn of APPEND_BITS on the marks: the tail's bit and, in a word it opens, every bit (log 19). -/
theorem pbufAppended_appendBit (b : Bool) (s : State) (q : Nat) :
    (appendBit b s).pbufAppended q =
      if q = s.totalBits.toNat then true
      else if s.totalBits.toNat % 64 = 0 ∧ q / 64 = s.totalBits.toNat / 64 then true
      else s.pbufAppended q := by
  rw [← pbufAppended_freshWord, ← pbufAppended_putStreamBit _ b]
  simp [State.pbufAppended, State.pbufMarks]

/-- APPEND_BITS changes PBUF and TOTAL_BITS only. -/
theorem appendLoop_frame (v : Dword) (j k : Nat) (s : State) :
    appendLoop v j k s =
      { s with pbuf := (appendLoop v j k s).pbuf, totalBits := s.totalBits + BitVec.ofNat 32 k } := by
  induction k generalizing j s with
  | zero => simp [appendLoop]
  | succ k ih =>
    rw [appendLoop, ih]
    have : BitVec.ofNat 32 (k + 1) = 1 + BitVec.ofNat 32 k := by
      apply BitVec.eq_of_toNat_eq; simp [Nat.add_comm]
    rw [this, ← BitVec.add_assoc]
    rfl

theorem appendLoop_totalBits (v : Dword) (j k : Nat) (s : State) :
    (appendLoop v j k s).totalBits = s.totalBits + BitVec.ofNat 32 k := by
  rw [appendLoop_frame]

theorem appendLoop_resets (v : Dword) (j k : Nat) (s : State) : (appendLoop v j k s).resets = s.resets := by
  rw [appendLoop_frame]

/-- The loop of APPEND_BITS on a view of the buffer by stream position that each turn changes at the tail (to `tail b`) and
in a word it opens (to `opened`): what the view is at every position afterwards (R140, R141). -/
theorem appendLoop_view (view : State → Nat → Bool) (tail : Bool → Bool) (opened : Bool)
    (turn : ∀ (b : Bool) (s : State) (q : Nat), view (appendBit b s) q =
      if q = s.totalBits.toNat then tail b
      else if s.totalBits.toNat % 64 = 0 ∧ q / 64 = s.totalBits.toNat / 64 then opened
      else view s q)
    (v : Dword) (j k : Nat) (s : State) (hk : s.totalBits.toNat + k < 2 ^ 32) (q : Nat) :
    view (appendLoop v j k s) q =
      if q < s.totalBits.toNat then view s q
      else if q < s.totalBits.toNat + k then tail (v.getLsbD (j + (q - s.totalBits.toNat)))
      else if ∃ p < s.totalBits.toNat + k, s.totalBits.toNat ≤ p ∧ p % 64 = 0 ∧ q / 64 = p / 64 then opened
      else view s q := by
  induction k generalizing j s with
  | zero =>
    have hno : ¬ ∃ p < s.totalBits.toNat + 0, s.totalBits.toNat ≤ p ∧ p % 64 = 0 ∧ q / 64 = p / 64 := by
      rintro ⟨p, h1, h2, -⟩; omega
    rw [if_neg hno]
    simp only [appendLoop, Nat.add_zero]
    split
    · rfl
    · rfl
  | succ k ih =>
    have ht : (appendBit (v.getLsbD j) s).totalBits.toNat = s.totalBits.toNat + 1 := by
      rw [appendBit_totalBits, BitVec.toNat_add, show (1 : Word).toNat = 1 from rfl]
      omega
    rw [appendLoop, ih (j + 1) _ (by omega), ht, turn]
    generalize s.totalBits.toNat = T at *
    by_cases h1 : q < T
    · rw [if_pos h1, if_pos (by omega), if_neg (by omega), if_neg (by omega)]
    · by_cases h2 : q = T
      · subst h2; simp
      · rw [if_neg h1, if_neg (by omega), if_neg h2]
        by_cases h3 : q < T + (k + 1)
        · rw [if_pos (by omega), if_pos h3]
          congr 2; omega
        · rw [if_neg (by omega), if_neg h3]
          by_cases h4 : ∃ p < T + (k + 1), T ≤ p ∧ p % 64 = 0 ∧ q / 64 = p / 64
          · rw [if_pos h4]
            obtain ⟨p, hp, hTp, hp0, hpq⟩ := h4
            by_cases h5 : p = T
            · subst h5
              rw [if_pos (show p % 64 = 0 ∧ q / 64 = p / 64 from ⟨hp0, hpq⟩)]; simp
            · have h6 : ∃ p < T + 1 + k, T + 1 ≤ p ∧ p % 64 = 0 ∧ q / 64 = p / 64 :=
                ⟨p, by omega, by omega, hp0, hpq⟩
              rw [if_pos h6]
          · rw [if_neg h4, if_neg, if_neg]
            · rintro ⟨h5, h6⟩; exact h4 ⟨T, by omega, le_refl _, h5, h6⟩
            · rintro ⟨p, hp, hTp, hr⟩; exact h4 ⟨p, by omega, by omega, hr⟩

/-- The stream after the loop of APPEND_BITS: the old bits before the tail, the appended bits at it, and after them zeros in
a word the loop opened and the old bits elsewhere (R140, R141). -/
theorem pbufBit_appendLoop (v : Dword) (j k : Nat) (s : State) (hk : s.totalBits.toNat + k < 2 ^ 32) (q : Nat) :
    (appendLoop v j k s).pbufBit q =
      if q < s.totalBits.toNat then s.pbufBit q
      else if q < s.totalBits.toNat + k then v.getLsbD (j + (q - s.totalBits.toNat))
      else if ∃ p < s.totalBits.toNat + k, s.totalBits.toNat ≤ p ∧ p % 64 = 0 ∧ q / 64 = p / 64 then false
      else s.pbufBit q :=
  appendLoop_view State.pbufBit id false pbufBit_appendBit v j k s hk q

/-- The marks after the loop of APPEND_BITS: the appended positions and every position of a word the loop opened are marked
(log 19). -/
theorem pbufAppended_appendLoop (v : Dword) (j k : Nat) (s : State) (hk : s.totalBits.toNat + k < 2 ^ 32) (q : Nat) :
    (appendLoop v j k s).pbufAppended q =
      if q < s.totalBits.toNat then s.pbufAppended q
      else if q < s.totalBits.toNat + k then true
      else if ∃ p < s.totalBits.toNat + k, s.totalBits.toNat ≤ p ∧ p % 64 = 0 ∧ q / 64 = p / 64 then true
      else s.pbufAppended q :=
  appendLoop_view State.pbufAppended (fun _ => true) true pbufAppended_appendBit v j k s hk q

/-- The halves of PBUF that an append does not touch (R141): those of words below the tail's and beyond the last bit's. -/
theorem find_appendLoop (v : Dword) (j k : Nat) (s : State) (hk : s.totalBits.toNat + k < 2 ^ 32) (w : Nat)
    (h : w / 2 < s.totalBits.toNat / 64 ∨ s.totalBits.toNat + k ≤ 64 * (w / 2)) :
    Store.find (appendLoop v j k s).pbuf w = Store.find s.pbuf w := by
  induction k generalizing j s with
  | zero => rfl
  | succ k ih =>
    have ht : (appendBit (v.getLsbD j) s).totalBits.toNat = s.totalBits.toNat + 1 := by
      rw [appendBit_totalBits, BitVec.toNat_add, show (1 : Word).toNat = 1 from rfl]
      omega
    rw [appendLoop, ih (j + 1) _ (by omega) (by rw [ht]; omega)]
    simp only [appendBit_pbuf, putStreamBit_pbuf, freshWord_pbuf]
    rw [Store.find_put_ne _ _ (by omega)]
    split
    · rw [find_zeroWord, if_neg (by omega)]
    · rfl

/-- The three ends of APPEND_BITS (R140): nothing to append, PBUF_OVERFLOW before any write, or the loop. -/
theorem appendBits_cases (v : Dword) (n : Nat) (info : Word) (s : State) :
    (n = 0 ∧ appendBits v n info s = .running s) ∨
    (0 < n ∧ 64 * s.params.wMax < s.totalBits.toNat + n ∧ appendBits v n info s = raise .pbufOverflow info s) ∨
    (0 < n ∧ s.totalBits.toNat + n ≤ 64 * s.params.wMax ∧ appendBits v n info s = .running (appendLoop v 0 n s)) := by
  unfold appendBits
  by_cases h0 : n = 0
  · exact .inl ⟨h0, by rw [if_pos h0]⟩
  · by_cases h1 : s.totalBits.toNat + n > 64 * s.params.wMax
    · exact .inr (.inl ⟨by omega, h1, by rw [if_neg h0, if_pos h1]⟩)
    · exact .inr (.inr ⟨by omega, by omega, by rw [if_neg h0, if_neg h1]⟩)

/-! The queues of BUILD. -/

/-- TAKE_MIN answers from the two queues whenever one of them holds a node (R117). -/
theorem takeMin_isSome (weight : Nat → Word) (lq iq : List Nat) (h : 0 < lq.length + iq.length) :
    (takeMin weight lq iq).isSome = true := by
  cases lq <;> cases iq <;> simp_all [takeMin]
  split <;> rfl

/-- What TAKE_MIN takes: the front of one queue, the other queue as it was (R113). -/
theorem takeMin_cases {weight : Nat → Word} {lq iq : List Nat} {n : Nat} {lq' iq' : List Nat}
    (h : takeMin weight lq iq = some (n, lq', iq')) :
    (lq = n :: lq' ∧ iq' = iq ∧ ∀ b ∈ iq.head?, (weight n).toNat < (weight b).toNat) ∨
    (iq = n :: iq' ∧ lq' = lq ∧ ∀ a ∈ lq.head?, (weight n).toNat ≤ (weight a).toNat) := by
  cases lq with
  | nil =>
    cases iq with
    | nil => simp [takeMin] at h
    | cons b iq =>
      simp only [takeMin, Option.some.injEq, Prod.mk.injEq] at h
      obtain ⟨rfl, rfl, rfl⟩ := h
      exact .inr ⟨rfl, rfl, by simp⟩
  | cons a lq =>
    cases iq with
    | nil =>
      simp only [takeMin, Option.some.injEq, Prod.mk.injEq] at h
      obtain ⟨rfl, rfl, rfl⟩ := h
      exact .inl ⟨rfl, rfl, by simp⟩
    | cons b iq =>
      simp only [takeMin, lessWeight, decide_eq_true_eq] at h
      split at h <;> (simp only [Option.some.injEq, Prod.mk.injEq] at h; obtain ⟨rfl, rfl, rfl⟩ := h)
      · exact .inl ⟨rfl, rfl, by simpa⟩
      · refine .inr ⟨rfl, rfl, ?_⟩
        simp only [List.head?_cons, Option.mem_def, Option.some.injEq, forall_eq']
        omega

/-- One turn of the merge loop: two TAKE_MINs and the new node behind IQ (R115, R116). -/
theorem mergeOnce_cases {r : Nat} {f g : Forest} (h : mergeOnce r f = some g) :
    ∃ a b lq₁ iq₁ lq₂ iq₂,
      takeMin (fun i => (arenaAt r f.node i).weight) f.lq f.iq = some (a, lq₁, iq₁) ∧
      takeMin (fun i => (arenaAt r f.node i).weight) lq₁ iq₁ = some (b, lq₂, iq₂) ∧
      g = { node := Store.put f.next (mergedNode (fun i => (arenaAt r f.node i).weight) a b) f.node
            lq := lq₂, iq := iq₂ ++ [f.next], next := f.next + 1 } := by
  unfold mergeOnce at h
  simp only at h
  split at h
  · simp at h
  · rename_i a lq₁ iq₁ h₁
    split at h
    · simp at h
    · rename_i b lq₂ iq₂ h₂
      exact ⟨a, b, lq₁, iq₁, lq₂, iq₂, h₁, h₂, (Option.some.inj h).symm⟩

/-! One turn of DECODE. -/

/-- The four ends of DECODE's turn for a bit: the candidate limit (R154), no match yet, OUT_OVERFLOW, a symbol (R150). -/
theorem decodeBit_cases (p : Nat) (s : State) :
    (s.cand.len = 64 ∧ decodeBit p s = raise .corruptBuffer (BitVec.ofNat 32 p) s) ∨
    (s.cand.len ≠ 64 ∧
      ((lookup s.code (growCandidate s.cand (s.pbufBit p)).value (s.cand.len + 1) = none ∧
          decodeBit p s = .running { s with cand := growCandidate s.cand (s.pbufBit p) }) ∨
        (∃ x, lookup s.code (growCandidate s.cand (s.pbufBit p)).value (s.cand.len + 1) = some x ∧
          ((s.outLen.toNat = s.params.nMax ∧
              decodeBit p s =
                raise .outOverflow (BitVec.ofNat 32 p) { s with cand := growCandidate s.cand (s.pbufBit p) }) ∨
            (s.outLen.toNat ≠ s.params.nMax ∧ decodeBit p s = .running (emitSymbol x s)))))) := by
  unfold decodeBit
  by_cases h0 : s.cand.len = Config.maxCodeLen
  · exact .inl ⟨h0, by rw [if_pos h0]⟩
  · refine .inr ⟨h0, ?_⟩
    rw [if_neg h0]
    have hl : (growCandidate s.cand (s.pbufBit p)).len = s.cand.len + 1 := rfl
    simp only [hl]
    cases hx : lookup s.code (growCandidate s.cand (s.pbufBit p)).value (s.cand.len + 1) with
    | none => exact .inl ⟨rfl, rfl⟩
    | some x =>
      refine .inr ⟨x, rfl, ?_⟩
      by_cases h1 : s.outLen.toNat = s.params.nMax
      · exact .inl ⟨h1, by simp [h1]⟩
      · exact .inr ⟨h1, by simp [h1]; rfl⟩

end Sys2Proof.Machine
end

