-- ==== Sys2Proof/Laws/Bus.lean ====
section
/-! SUPPORT. The address map and the host write, once: which location an address names, and what a write can do. -/

namespace Sys2Proof.Machine

/-- The register page names no entry of a window (R62). -/
theorem registerAt_ne (n k : Nat) : registerAt n ≠ .sym k ∧ registerAt n ≠ .out k ∧ registerAt n ≠ .pbuf k := by
  have hmem : registerAt n ∈ Loc.reserved :: registerPage := by
    unfold registerAt
    rw [List.getD_eq_getElem?_getD]
    cases h : registerPage[n]? with
    | none => exact List.mem_cons_self
    | some l => exact List.mem_cons_of_mem _ (List.mem_of_getElem? h)
  refine ⟨fun h => ?_, fun h => ?_, fun h => ?_⟩ <;> rw [h] at hmem <;> simp [registerPage] at hmem

/-- An `if` that comes to `z` does so on one of its sides. -/
theorem ite_eq_cases {α : Type} {c : Prop} [Decidable c] {x y z : α} (h : (if c then x else y) = z) :
    (c ∧ x = z) ∨ (¬ c ∧ y = z) := by
  split at h
  · exact .inl ⟨‹_›, h⟩
  · exact .inr ⟨‹_›, h⟩

/-- The address map, window by window (R62). -/
theorem locateByte_cases (p : Params) (b : Nat) :
    (b < 0x01000 ∧ locateByte p b = registerAt (b / 4)) ∨
    (0x01000 ≤ b ∧ b < 0x01400 ∧ locateByte p b = .freq ((b - 0x01000) / 4)) ∨
    (0x02000 ≤ b ∧ b < 0x03FF0 ∧ locateByte p b = .node ((b - 0x02000) / 16) ((b - 0x02000) / 4 % 4)) ∨
    (0x04000 ≤ b ∧ b < 0x05000 ∧ locateByte p b = .code ((b - 0x04000) / 16) ((b - 0x04000) / 4 % 4)) ∨
    (0x10000 ≤ b ∧ b < 0x20000 ∧ (b - 0x10000) / 4 < p.nMax ∧ locateByte p b = .sym ((b - 0x10000) / 4)) ∨
    (0x20000 ≤ b ∧ b < 0x30000 ∧ (b - 0x20000) / 4 < p.nMax ∧ locateByte p b = .out ((b - 0x20000) / 4)) ∨
    (0x40000 ≤ b ∧ b < 0x80000 ∧ (b - 0x40000) / 8 < p.wMax ∧ locateByte p b = .pbuf ((b - 0x40000) / 4)) ∨
    locateByte p b = .reserved := by
  generalize hl : locateByte p b = l
  unfold locateByte at hl
  obtain ⟨h, e⟩ | ⟨h0, hl⟩ := ite_eq_cases hl
  · exact .inl ⟨h, e.symm⟩
  obtain ⟨h, e⟩ | ⟨h0, hl⟩ := ite_eq_cases hl
  · exact .inr (.inl ⟨by omega, h, e.symm⟩)
  obtain ⟨h, e⟩ | ⟨h0, hl⟩ := ite_eq_cases hl
  · exact .inr (.inr (.inr (.inr (.inr (.inr (.inr (e.symm)))))))
  obtain ⟨h, e⟩ | ⟨h0, hl⟩ := ite_eq_cases hl
  · exact .inr (.inr (.inl ⟨by omega, h, e.symm⟩))
  obtain ⟨h, e⟩ | ⟨h0, hl⟩ := ite_eq_cases hl
  · exact .inr (.inr (.inr (.inr (.inr (.inr (.inr (e.symm)))))))
  obtain ⟨h, e⟩ | ⟨h0, hl⟩ := ite_eq_cases hl
  · exact .inr (.inr (.inr (.inl ⟨by omega, h, e.symm⟩)))
  obtain ⟨h, e⟩ | ⟨h0, hl⟩ := ite_eq_cases hl
  · exact .inr (.inr (.inr (.inr (.inr (.inr (.inr (e.symm)))))))
  obtain ⟨h, e⟩ | ⟨h0, hl⟩ := ite_eq_cases hl
  · obtain ⟨hc, e⟩ | ⟨-, e⟩ := ite_eq_cases e
    · exact .inr (.inr (.inr (.inr (.inl ⟨by omega, h, hc, e.symm⟩))))
    · exact .inr (.inr (.inr (.inr (.inr (.inr (.inr (e.symm)))))))
  obtain ⟨h, e⟩ | ⟨h0, hl⟩ := ite_eq_cases hl
  · obtain ⟨hc, e⟩ | ⟨-, e⟩ := ite_eq_cases e
    · exact .inr (.inr (.inr (.inr (.inr (.inl ⟨by omega, h, hc, e.symm⟩)))))
    · exact .inr (.inr (.inr (.inr (.inr (.inr (.inr (e.symm)))))))
  obtain ⟨h, e⟩ | ⟨h0, hl⟩ := ite_eq_cases hl
  · exact .inr (.inr (.inr (.inr (.inr (.inr (.inr (e.symm)))))))
  obtain ⟨h, e⟩ | ⟨h0, hl⟩ := ite_eq_cases hl
  · obtain ⟨hc, e⟩ | ⟨-, e⟩ := ite_eq_cases e
    · exact .inr (.inr (.inr (.inr (.inr (.inr (.inl ⟨by omega, h, hc, e.symm⟩))))))
    · exact .inr (.inr (.inr (.inr (.inr (.inr (.inr (e.symm)))))))
  exact .inr (.inr (.inr (.inr (.inr (.inr (.inr (hl.symm)))))))

/-- The entries the address map names exist (R62). -/
theorem locate_bounds (p : Params) (a : Addr) :
    (∀ i, locate p a = .sym i → i < p.nMax) ∧ (∀ i, locate p a = .out i → i < p.nMax) ∧
      (∀ k, locate p a = .pbuf k → k < 2 * p.wMax) := by
  unfold locate
  refine ⟨fun i h => ?_, fun i h => ?_, fun k h => ?_⟩ <;>
    obtain ⟨-, e⟩ | ⟨-, -, e⟩ | ⟨-, -, e⟩ | ⟨-, -, e⟩ | ⟨-, -, hb, e⟩ | ⟨-, -, hb, e⟩ | ⟨-, -, hb, e⟩ | e :=
      locateByte_cases p a.toNat <;> rw [e] at h
  all_goals first
    | exact absurd h (registerAt_ne _ _).1
    | exact absurd h (registerAt_ne _ _).2.1
    | exact absurd h (registerAt_ne _ _).2.2
    | (have := Loc.sym.inj h; omega)
    | (have := Loc.out.inj h; omega)
    | (have := Loc.pbuf.inj h; omega)
    | exact Loc.noConfusion h

/-- The three ends of a host write (R28, R30, R194): CTRL and STATUS at any time, a dropped write, or what the location
stores. -/
theorem hostWrite_cases (a : Addr) (v : Word) (s : State) :
    (locate s.params a = .ctrl ∧ hostWrite a v s = writeCtrl v s) ∨
    (locate s.params a = .status ∧ hostWrite a v s = writeStatus v s) ∨
    (droppedWhileBusy (locate s.params a) = true ∧ s.busy = true ∧ hostWrite a v s = dropWrite s) ∨
    (droppedWhileBusy (locate s.params a) = true ∧ s.busy = false ∧
      hostWrite a v s = storeLoc v s (locate s.params a)) ∨
    (droppedWhileBusy (locate s.params a) = false ∧ hostWrite a v s = s) := by
  unfold hostWrite
  cases hl : locate s.params a <;> cases hb : s.busy <;> simp [droppedWhileBusy, storeLoc]

/-- The three ends of a host read (R66, R194; 93 item 1): a read with open bits while BUSY = 1, the whole content, or the last
word of PBUF with open bits. -/
theorem hostRead_cases (a : Addr) (s : State) :
    (s.busy = true ∧ hostRead a s = replyFree (readLoc s (locate s.params a)) (stableMask (locate s.params a)) s) ∨
    (s.busy = false ∧ idleMask s (locate s.params a) = BitVec.allOnes 32 ∧
      hostRead a s = reply (readLoc s (locate s.params a)) s) ∨
    (∃ k, s.busy = false ∧ locate s.params a = .pbuf k ∧ s.pbufShown k ≠ BitVec.allOnes 32 ∧
      hostRead a s = replyFree (s.pbufHalf k) (s.pbufShown k) s) := by
  unfold hostRead
  cases hb : s.busy
  · by_cases hm : idleMask s (locate s.params a) = BitVec.allOnes 32
    · exact .inr (.inl ⟨rfl, hm, (if_neg Bool.false_ne_true).trans (if_pos hm)⟩)
    · cases hl : locate s.params a with
      | pbuf k =>
        rw [hl] at hm
        exact .inr (.inr ⟨k, rfl, rfl, hm, (if_neg Bool.false_ne_true).trans (if_neg hm)⟩)
      | _ => exact absurd (by rw [hl]; rfl) hm
  · exact .inl ⟨rfl, if_pos rfl⟩

/-- A bit of a reply with open bits: the content's where it is shown, and otherwise the free value's. -/
theorem replyFree_bit (v shown : Word) (s : State) (j : Nat) (hj : j < 32) :
    ((v &&& shown) ||| (Config.freeRead s.draws &&& ~~~shown)).getLsbD j =
      if shown.getLsbD j then v.getLsbD j else (Config.freeRead s.draws).getLsbD j := by
  rw [BitVec.getLsbD_or, BitVec.getLsbD_and, BitVec.getLsbD_and, BitVec.getLsbD_not]
  cases h : shown.getLsbD j <;> simp only [hj, decide_true, Bool.and_false, Bool.and_true, Bool.not_false, Bool.not_true,
    Bool.or_false, Bool.false_or, if_true, Bool.false_eq_true, if_false]

/-- The bits of a half of PBUF that an idle host read shows: a word other than the last whole, and of the last word the bits
below TOTAL_BITS and those an append wrote (93 item 1). -/
theorem pbufShown_getLsbD (s : State) (k j : Nat) (hj : j < 32) :
    (s.pbufShown k).getLsbD j =
      (decide (k / 2 + 1 ≠ s.wordCount) || decide (32 * k + j < s.totalBits.toNat) || (s.pbufMarks k).getLsbD j) := by
  unfold State.pbufShown
  by_cases h : k / 2 + 1 = s.wordCount
  · rw [if_pos h, BitVec.getLsbD_or, BitVec.getLsbD_ofNat, Nat.testBit_two_pow_sub_one]
    have : (j < min 32 (s.totalBits.toNat - 32 * k)) = (32 * k + j < s.totalBits.toNat) := propext ⟨by omega, by omega⟩
    simp [h, hj, this]
  · rw [if_neg h, BitVec.getLsbD_allOnes]; simp [h, hj]

end Sys2Proof.Machine
end

