-- ==== Sys2Proof/Laws/Commands.lean ====
section
/-! SUPPORT. The ends of each command's pseudocode and of its turns, once, for later proofs to cite. -/

namespace Sys2Proof.Machine

/-- One symbol counted: its count grows by one, every other count stays (R100). -/
theorem countAt_countSymbol (m : Store Word) (x : Byte) (y : Nat) :
    countAt (countSymbol m x) y = if y = x.toNat then countAt m x.toNat + 1 else countAt m y := by
  unfold countSymbol Store.putCount
  by_cases hy : y = x.toNat
  · subst hy
    rw [if_pos rfl]
    split
    · rename_i h; rw [h]; simp [countAt]
    · simp [countAt]
  · rw [if_neg hy]
    unfold countAt
    split
    · rw [Store.find_del_ne m hy]
    · rw [Store.find_put_ne m _ hy]

/-- The leaves placed from NODE[j] on, and every other element as it was (R114). -/
theorem find_placeLeaves (counts : Store Word) (j : Nat) (xs : List Nat) (m : Store Node) (i : Nat) :
    Store.find (placeLeaves counts j xs m) i =
      if j ≤ i ∧ i < j + xs.length then
        some (leaf (BitVec.ofNat 8 (xs.getD (i - j) 0)) (countAt counts (xs.getD (i - j) 0)))
      else Store.find m i := by
  induction xs generalizing j m with
  | nil =>
    have : ¬ (j ≤ i ∧ i < j + ([] : List Nat).length) := by simp
    rw [if_neg this]; rfl
  | cons x xs ih =>
    rw [placeLeaves, ih, Store.find_put]
    by_cases h0 : i = j
    · subst h0
      rw [if_neg (by omega), if_pos rfl, if_pos (by simp)]
      simp
    · by_cases h1 : j + 1 ≤ i ∧ i < j + 1 + xs.length
      · have h2 : j ≤ i ∧ i < j + (x :: xs).length := by simp only [List.length_cons]; omega
        obtain ⟨d, rfl⟩ : ∃ d, i = j + 1 + d := ⟨i - (j + 1), by omega⟩
        rw [if_pos h1, if_pos h2, show j + 1 + d - (j + 1) = d by omega, show j + 1 + d - j = d + 1 by omega,
          List.getD_cons_succ]
      · have h2 : ¬ (j ≤ i ∧ i < j + (x :: xs).length) := by simp only [List.length_cons]; omega
        rw [if_neg h1, if_neg h2, if_neg h0]

/-- The ends of BUILD (R115): NO_FREQ, INVALID_INPUT, the one-leaf tree, the merged tree. -/
theorem runBuild_cases (s : State) :
    (s.freqValid = false ∧ runBuild s = raise .noFreq 0 s) ∨
    (s.freqValid = true ∧
      ((s.numSyms = 0 ∧ runBuild s = raise .invalidInput 0 (buildLeaves s)) ∨
        (s.numSyms = 1 ∧ runBuild s = .running (singleTree (buildLeaves s))) ∨
        (2 ≤ s.numSyms ∧
          runBuild s = .running (mergedTree (buildLeaves s) (mergeAll (buildLeaves s) s.numSyms))))) := by
  unfold runBuild State.numSyms
  cases s.freqValid
  · exact .inl ⟨rfl, rfl⟩
  · refine .inr ⟨rfl, ?_⟩
    simp only [if_true]
    by_cases h0 : (presentSymbols s.freq).length = 0
    · exact .inl ⟨h0, by rw [if_pos h0]⟩
    · by_cases h1 : (presentSymbols s.freq).length = 1
      · exact .inr (.inl ⟨h1, by rw [if_neg h0, if_pos h1]⟩)
      · exact .inr (.inr ⟨by omega, by rw [if_neg h0, if_neg h1]⟩)

/-- The ends of GENCODE (R130): NO_TREE, the one-leaf tree, CODE_TOO_LONG, the table. -/
theorem runGencode_cases (s : State) :
    (s.treeValid = false ∧ runGencode s = raise .noTree 0 s) ∨
    (s.treeValid = true ∧
      (((s.nodeAt s.root.toNat).internal = false ∧
          runGencode s =
            .running { clearTable s with code := singleCode (s.nodeAt s.root.toNat).sym, tableValid := true }) ∨
        ((s.nodeAt s.root.toNat).internal = true ∧
          ((∃ n stack, walk s.nodeAt Config.maxCodeLen s.root.toNat 0 [] [] = .tooLong n stack ∧
              runGencode s = raise .codeTooLong (BitVec.ofNat 32 n) { clearTable s with stack := stack }) ∨
            (∃ table, walk s.nodeAt Config.maxCodeLen s.root.toNat 0 [] [] = .recorded table ∧
              runGencode s = .running { clearTable s with code := table, tableValid := true, stack := [] }))))) := by
  unfold runGencode
  cases s.treeValid
  · exact .inl ⟨rfl, rfl⟩
  · refine .inr ⟨rfl, ?_⟩
    simp only [if_true]
    cases (s.nodeAt s.root.toNat).internal
    · exact .inl ⟨rfl, rfl⟩
    · refine .inr ⟨rfl, ?_⟩
      simp only [if_true]
      cases walk s.nodeAt Config.maxCodeLen s.root.toNat 0 [] [] with
      | tooLong n stack => exact .inl ⟨n, stack, rfl, rfl⟩
      | recorded table => exact .inr ⟨table, rfl, rfl⟩

/-- PACK's turn (R144): LOOKUP_FAILURE, or APPEND_BITS of the symbol's code word. -/
theorem packSymbol_cases (i : Nat) (s : State) :
    (s.codeAt (s.symAt i).toNat = none ∧ packSymbol i s = raise .lookupFailure (BitVec.ofNat 32 i) s) ∨
    (∃ w, s.codeAt (s.symAt i).toNat = some w ∧
      packSymbol i s = appendBits w.value w.len.toNat (BitVec.ofNat 32 i) s) := by
  unfold packSymbol
  cases s.codeAt (s.symAt i).toNat with
  | none => exact .inl ⟨rfl, rfl⟩
  | some w => exact .inr ⟨w, rfl, rfl⟩

/-- The traversal at a leaf records the accumulated pair verbatim (R130). -/
theorem walk_leaf {nodes : Nat → Node} {n : Nat} (h : (nodes n).internal = false) (room : Nat) (v : Dword)
    (below : List Frame) (table : Store CodeWord) :
    walk nodes room n v below table =
      .recorded (Store.put (nodes n).sym.toNat { len := BitVec.ofNat 7 (64 - room), value := v } table) := by
  cases room <;> simp [walk, h, Config.maxCodeLen]

/-- The traversal at an internal node with room left: the left subtree, then the right one (R130). -/
theorem walk_internal {nodes : Nat → Node} {n : Nat} (h : (nodes n).internal = true) (room : Nat) (v : Dword)
    (below : List Frame) (table : Store CodeWord) :
    walk nodes (room + 1) n v below table =
      match walk nodes room (nodes n).left.toNat v
          ({ node := (nodes n).right.toNat, value := v ||| (1#64 <<< (64 - (room + 1))), len := 64 - (room + 1) + 1 }
            :: below) table with
      | .tooLong m stack => .tooLong m stack
      | .recorded table1 => walk nodes room (nodes n).right.toNat (v ||| (1#64 <<< (64 - (room + 1)))) below table1 := by
  rw [walk]
  simp only [h, if_true, Config.maxCodeLen] <;> rfl

/-- The traversal at an internal node of depth 64 (R133). -/
theorem walk_tooLong {nodes : Nat → Node} {n : Nat} (h : (nodes n).internal = true) (v : Dword) (below : List Frame)
    (table : Store CodeWord) : walk nodes 0 n v below table = .tooLong n below := by
  simp [walk, h]

end Sys2Proof.Machine
end

