-- ==== Sys2Proof/Laws/Memory.lean ====
section
/-! SUPPORT. Every memory operation keeps the canonical form of the array it writes, and the reset memory has it. -/

namespace Sys2Proof.Machine

/-- The canonical form, array by array. -/
theorem Memory.wf_iff (s : State) :
    Memory.wf s = true ↔
      (Store.rising s.symMem = true ∧ Store.within s.params.nMax s.symMem = true) ∧
      (Store.rising s.freq = true ∧ Store.within Config.kMax s.freq = true ∧ Store.noZero s.freq = true) ∧
      (Store.rising s.node = true ∧ Store.within Config.nodeMax s.node = true) ∧
      (Store.rising s.code = true ∧ Store.within Config.kMax s.code = true) ∧
      (Store.rising s.pbuf = true ∧ Store.within (2 * s.params.wMax) s.pbuf = true) ∧
      (Store.rising s.outMem = true ∧ Store.within s.params.nMax s.outMem = true) := by
  simp only [Memory.wf, Bool.and_eq_true, and_assoc]

/-- The memory after reset is canonical, for any capacities. -/
theorem Memory.wf_applyReset (s : State) : Memory.wf (applyReset s) = true := by
  simp [Memory.wf_iff, Store.rising, Store.within, Store.noZero]

/-- Counting keeps FREQ canonical (R100). -/
theorem frequencies_wf (xs : List Byte) :
    Store.rising (frequencies xs) = true ∧ Store.within Config.kMax (frequencies xs) = true ∧
      Store.noZero (frequencies xs) = true := by
  unfold frequencies
  have step : ∀ (m : Store Word) (xs : List Byte), Store.rising m = true → Store.within Config.kMax m = true →
      Store.noZero m = true → Store.rising (xs.foldl countSymbol m) = true ∧
        Store.within Config.kMax (xs.foldl countSymbol m) = true ∧ Store.noZero (xs.foldl countSymbol m) = true := by
    intro m xs
    induction xs generalizing m with
    | nil => exact fun h1 h2 h3 => ⟨h1, h2, h3⟩
    | cons x xs ih =>
      intro h1 h2 h3
      exact ih _ (Store.rising_putCount h1 _ _)
        (Store.within_putCount h2 (by have := x.isLt; simpa [Config.kMax] using this) _) (Store.noZero_putCount h3 _ _)
  exact step [] xs rfl rfl rfl

/-- A bit written to the stream keeps PBUF canonical (R140, R141). -/
theorem appendBit_wf (b : Bool) (s : State) (hr : Store.rising s.pbuf = true)
    (hw : Store.within (2 * s.params.wMax) s.pbuf = true) (ht : s.totalBits.toNat < 64 * s.params.wMax) :
    Store.rising (appendBit b s).pbuf = true ∧ Store.within (2 * s.params.wMax) (appendBit b s).pbuf = true := by
  have hf : Store.rising (freshWord s.totalBits.toNat s).pbuf = true ∧
      Store.within (2 * s.params.wMax) (freshWord s.totalBits.toNat s).pbuf = true := by
    rw [freshWord_pbuf]
    split
    · exact ⟨Store.rising_put (Store.rising_put hr _ _) _ _,
        Store.within_put (Store.within_put hw (by omega) _) (by omega) _⟩
    · exact ⟨hr, hw⟩
  simp only [appendBit_pbuf, putStreamBit_pbuf]
  exact ⟨Store.rising_put hf.1 _ _, Store.within_put hf.2 (by omega) _⟩

/-- APPEND_BITS keeps PBUF canonical (R140). -/
theorem appendLoop_wf (v : Dword) (j k : Nat) (s : State) (hr : Store.rising s.pbuf = true)
    (hw : Store.within (2 * s.params.wMax) s.pbuf = true) (ht : s.totalBits.toNat + k ≤ 64 * s.params.wMax)
    (hk : s.totalBits.toNat + k < 2 ^ 32) :
    Store.rising (appendLoop v j k s).pbuf = true ∧ Store.within (2 * s.params.wMax) (appendLoop v j k s).pbuf = true := by
  induction k generalizing j s with
  | zero => exact ⟨hr, hw⟩
  | succ k ih =>
    obtain ⟨h1, h2⟩ := appendBit_wf (v.getLsbD j) s hr hw (by omega)
    have h3 : (appendBit (v.getLsbD j) s).totalBits.toNat = s.totalBits.toNat + 1 := by
      rw [appendBit_totalBits, BitVec.toNat_add, show (1 : Word).toNat = 1 from rfl]
      omega
    rw [appendLoop]
    exact ih (j + 1) _ h1 h2 (by rw [h3, appendBit_params]; omega) (by rw [h3]; omega)

/-- A decoded symbol keeps OUT_MEM canonical (R150). -/
theorem emitSymbol_wf (x : Nat) (s : State) (hr : Store.rising s.outMem = true)
    (hw : Store.within s.params.nMax s.outMem = true) (ho : s.outLen.toNat < s.params.nMax) :
    Store.rising (emitSymbol x s).outMem = true ∧ Store.within s.params.nMax (emitSymbol x s).outMem = true :=
  ⟨Store.rising_put hr _ _, Store.within_put hw ho _⟩

/-- Placing leaves keeps the arena canonical (R114). -/
theorem placeLeaves_wf (counts : Store Word) (j : Nat) (xs : List Nat) (m : Store Node) (hr : Store.rising m = true)
    (hw : Store.within Config.nodeMax m = true) (hj : j + xs.length ≤ Config.nodeMax) :
    Store.rising (placeLeaves counts j xs m) = true ∧ Store.within Config.nodeMax (placeLeaves counts j xs m) = true := by
  induction xs generalizing j m with
  | nil => exact ⟨hr, hw⟩
  | cons x xs ih =>
    simp only [List.length_cons] at hj
    exact ih (j + 1) _ (Store.rising_put hr _ _) (Store.within_put hw (by omega) _) (by omega)

/-- A merge keeps the arena canonical (R115). -/
theorem mergeOnce_wf {r : Nat} {f g : Forest} (h : mergeOnce r f = some g) (hr : Store.rising f.node = true)
    (hw : Store.within Config.nodeMax f.node = true) (hn : f.next < Config.nodeMax) :
    Store.rising g.node = true ∧ Store.within Config.nodeMax g.node = true := by
  obtain ⟨a, b, _, _, _, _, -, -, rfl⟩ := mergeOnce_cases h
  exact ⟨Store.rising_put hr _ _, Store.within_put hw hn _⟩

/-- The traversal records a canonical table (R130). -/
theorem walk_wf (nodes : Nat → Node) (room n : Nat) (v : Dword) (below : List Frame) (m m' : Store CodeWord)
    (hr : Store.rising m = true) (hw : Store.within Config.kMax m = true)
    (h : walk nodes room n v below m = .recorded m') :
    Store.rising m' = true ∧ Store.within Config.kMax m' = true := by
  have hsym : ∀ n, (nodes n).sym.toNat < Config.kMax := fun n => by
    have := (nodes n).sym.isLt; simpa [Config.kMax] using this
  induction room generalizing n v below m m' with
  | zero =>
    unfold walk at h
    split at h
    · simp at h
    · obtain rfl := Walk.recorded.inj h
      exact ⟨Store.rising_put hr _ _, Store.within_put hw (hsym n) _⟩
  | succ room ih =>
    unfold walk at h
    simp only at h
    split at h
    · split at h
      · simp at h
      · rename_i m₁ h₁
        obtain ⟨hr₁, hw₁⟩ := ih _ _ _ _ _ hr hw h₁
        exact ih _ _ _ _ _ hr₁ hw₁ h
    · obtain rfl := Walk.recorded.inj h
      exact ⟨Store.rising_put hr _ _, Store.within_put hw (hsym n) _⟩

/-- What a location stores keeps every array canonical (R66). -/
theorem storeLoc_wf (v : Word) (s : State) (l : Loc) (hs : ∀ i, l = .sym i → i < s.params.nMax)
    (hp : ∀ k, l = .pbuf k → k < 2 * s.params.wMax) (h : Memory.wf s = true) : Memory.wf (storeLoc v s l) = true := by
  cases l with
  | sym i =>
    rw [Memory.wf_iff] at h ⊢
    exact ⟨⟨Store.rising_put h.1.1 _ _, Store.within_put h.1.2 (hs i rfl) _⟩, h.2⟩
  | pbuf k =>
    rw [Memory.wf_iff] at h ⊢
    obtain ⟨h1, h2, h3, h4, ⟨h5, h6⟩, h7⟩ := h
    exact ⟨h1, h2, h3, h4, ⟨Store.rising_put h5 _ _, Store.within_put h6 (hp k rfl) _⟩, h7⟩
  | _ => exact h

/-- A host write keeps every array canonical (R66). -/
theorem hostWrite_wf (a : Addr) (v : Word) (s : State) (h : Memory.wf s = true) :
    Memory.wf (hostWrite a v s) = true := by
  obtain ⟨hs, -, hp⟩ := locate_bounds s.params a
  obtain ⟨-, e⟩ | ⟨-, e⟩ | ⟨-, -, e⟩ | ⟨-, -, e⟩ | ⟨-, e⟩ := hostWrite_cases a v s
  · rw [e]; exact h
  · rw [e]; exact h
  · rw [e]; exact h
  · rw [e]; exact storeLoc_wf v s _ hs hp h
  · rw [e]; exact h

end Sys2Proof.Machine
end

