-- ==== Sys2Proof/Laws/PerInstr.lean ====
section
/-! SUPPORT. What holds of every command as syntax, one lemma per constructor: the three fields of its encoding. -/

namespace Sys2Proof.Laws.EncodedFields

/-- The word of a command has RSVD 0, its LEN in bits [14:8] and its opcode in bits [7:0] (R80). -/
def Statement (i : Instr) : Prop :=
  rsvdField (encode i) = 0 ∧ lenField (encode i) = lenOf i ∧ opcodeField (encode i) = opcodeOf i

theorem nop : Statement .nop := by unfold Statement; decide
theorem clear : Statement .clear := by unfold Statement; decide
theorem count : Statement .count := by unfold Statement; decide
theorem build : Statement .build := by unfold Statement; decide
theorem gencode : Statement .gencode := by unfold Statement; decide
theorem pack : Statement .pack := by unfold Statement; decide
theorem encode : Statement .encode := by unfold Statement; decide
theorem decode : Statement .decode := by unfold Statement; decide
theorem append (len : BitVec 7) : Statement (.append len) := by
  revert len; unfold Statement; decide
theorem pbclr : Statement .pbclr := by unfold Statement; decide

end Sys2Proof.Laws.EncodedFields
end

