-- ==== Sys2Proof/Laws/Step.lean ====
section
/-! SUPPORT. The step, once: which event it handles, and what the ENGINE's turn is for a pending word. -/

namespace Sys2Proof.Machine

theorem step_of_nil {s : State} (h : s.inputs = []) : step s = engineStep s := by
  unfold step; rw [h]

theorem step_of_cons {s : State} {e : Event} {rest : List Event} (h : s.inputs = e :: rest) :
    step s = handle e { s with inputs := rest } := by
  unfold step; rw [h]

theorem engineStep_of_none {s : State} (h : s.pending = none) : engineStep s = .next s := by
  unfold engineStep; rw [h]

theorem engineStep_of_some {s : State} {c : Word} (h : s.pending = some c) :
    engineStep s = thenComplete (perform c s) := by
  unfold engineStep; rw [h]

theorem perform_of_ok {c : Word} {i : Instr} (h : decode c = .ok i) (s : State) : perform c s = exec i s := by
  unfold perform; rw [h]

theorem perform_of_error {c : Word} {e : Illegal} (h : decode c = .error e) (s : State) :
    perform c s = .next { s with errCode := .illegalCmd, errInfo := c } := by
  unfold perform; rw [h]; rfl

@[simp] theorem thenComplete_next (t : State) : thenComplete (.next t) = .next (complete t) := rfl

/-- A step that gives a next state handled the first event, or was the ENGINE's turn with none left: the one case split that
every invariant needs. -/
theorem step_cases {s t : State} (h : step s = .next t) :
    (∃ a rest, s.inputs = .read a :: rest ∧ t = hostRead a { s with inputs := rest }) ∨
    (∃ a v rest, s.inputs = .write a v :: rest ∧ t = hostWrite a v { s with inputs := rest }) ∨
    (∃ rest, s.inputs = .reset :: rest ∧ t = applyReset { s with inputs := rest }) ∨
    (∃ u, engineStep u = .next t ∧ ((s.inputs = [] ∧ u = s) ∨ (∃ rest, s.inputs = .engine :: rest ∧
      u = { s with inputs := rest }))) := by
  cases hi : s.inputs with
  | nil => rw [step_of_nil hi] at h; exact .inr (.inr (.inr ⟨s, h, .inl ⟨rfl, rfl⟩⟩))
  | cons e rest =>
    rw [step_of_cons hi] at h
    cases e with
    | read a => exact .inl ⟨a, rest, rfl, (Host.Outcome.next.inj h).symm⟩
    | write a v => exact .inr (.inl ⟨a, v, rest, rfl, (Host.Outcome.next.inj h).symm⟩)
    | reset => exact .inr (.inr (.inl ⟨rest, rfl, (Host.Outcome.next.inj h).symm⟩))
    | engine => exact .inr (.inr (.inr ⟨_, h, .inr ⟨rest, rfl, rfl⟩⟩))

/-- The ENGINE's turn: nothing pending, an illegal word reported, or a command performed; then it completes. -/
theorem engineStep_cases {s t : State} (h : engineStep s = .next t) :
    (s.pending = none ∧ t = s) ∨
    (∃ c e, s.pending = some c ∧ decode c = .error e ∧
      t = complete { s with errCode := .illegalCmd, errInfo := c }) ∨
    (∃ c i u, s.pending = some c ∧ decode c = .ok i ∧ exec i s = .next u ∧ t = complete u) := by
  cases hp : s.pending with
  | none => rw [engineStep_of_none hp] at h; exact .inl ⟨rfl, (Host.Outcome.next.inj h).symm⟩
  | some c =>
    rw [engineStep_of_some hp] at h
    cases hd : decode c with
    | error e =>
      rw [perform_of_error hd] at h
      exact .inr (.inl ⟨c, e, rfl, hd, (Host.Outcome.next.inj h).symm⟩)
    | ok i =>
      rw [perform_of_ok hd] at h
      cases hx : exec i s with
      | next u => rw [hx] at h; exact .inr (.inr ⟨c, i, u, rfl, hd, hx, (Host.Outcome.next.inj h).symm⟩)
      | fault r => exact nomatch r
      | refused r => rw [hx] at h; exact nomatch h

end Sys2Proof.Machine
end

