-- ==== Sys2Proof/Tests/Slice0.lean ====
section
/-! SUPPORT. Small tests, each of one step or one operation, with the expected value taken from the spec's own vectors (their
ids stand in the docstrings). The witnesses of the statements are in Tests/Witnesses.lean. -/

namespace Sys2Proof.Tests

open Sys2Proof.Machine

/-- The reset state with a text in SYM_MEM and IN_LEN its length. -/
def load (text : List Nat) : State :=
  { State.reset with
    symMem := text.zipIdx.map (fun e => (e.2, BitVec.ofNat 8 e.1)), inLen := BitVec.ofNat 32 text.length }

/-- The state an outcome gives. -/
def nextOf (o : Host.Outcome State Fault Refusal) : State :=
  match o with
  | .next t => t
  | .fault _ => State.reset
  | .refused _ => State.reset

/-- One step that runs the command word `w`. -/
def run (w : Nat) (s : State) : State := nextOf (step (s.withFetchWord 32 w))

/-- "aab". -/
def aab : List Nat := [0x61, 0x61, 0x62]

/-- "hello alex". -/
def helloAlex : List Nat := [0x68, 0x65, 0x6C, 0x6C, 0x6F, 0x20, 0x61, 0x6C, 0x65, 0x78]

/-- The reset state with the table of "aab" stored: a = (1,1), b = (0,1) (V4.1). -/
def tableAab : State :=
  { State.reset with
    tableValid := true
    code := [(0x61, { len := 1, value := 1 }), (0x62, { len := 1, value := 0 })] }

/-- The reset state with the one-bit table of a single symbol stored: a = (0,1) (V4.8). -/
def tableOneBit : State :=
  { State.reset with tableValid := true, code := [(0x61, { len := 1, value := 0 })] }

/-- PBUF with its first halves as the host wrote them. -/
def hostHalves (halves : List Word) : Store PbufHalf :=
  halves.zipIdx.map (fun e => (e.2, { bits := e.1, appended := 0 }))

/-- ERR_CODE, ERR_INFO and OUT_LEN. -/
def errorOf (s : State) : ErrCode × Word × Word := (s.errCode, s.errInfo, s.outLen)

/-! The check on commands refuses ill-formed terms (R83 item 3). -/

theorem test_wf_refuses_append_65 : Instr.wf (.append 65) = false := by decide
theorem test_wf_refuses_append_127 : Instr.wf (.append 127) = false := by decide
theorem test_wf_accepts_append_64 : Instr.wf (.append 64) = true := by decide

/-! Decoding: each command's word written out from R82, bit 31 first, and the four kinds of illegal word (R84, V8.1 to V8.4,
V5.14). -/

theorem test_decode_nop : decode 0b00000000000000000_0000000_00000000#32 = .ok .nop := by decide
theorem test_decode_clear : decode 0b00000000000000000_0000000_00000001#32 = .ok .clear := by decide
theorem test_decode_count : decode 0b00000000000000000_0000000_00000010#32 = .ok .count := by decide
theorem test_decode_build : decode 0b00000000000000000_0000000_00000011#32 = .ok .build := by decide
theorem test_decode_gencode : decode 0b00000000000000000_0000000_00000100#32 = .ok .gencode := by decide
theorem test_decode_pack : decode 0b00000000000000000_0000000_00000101#32 = .ok .pack := by decide
theorem test_decode_encode : decode 0b00000000000000000_0000000_00000110#32 = .ok .encode := by decide
theorem test_decode_decode : decode 0b00000000000000000_0000000_00000111#32 = .ok .decode := by decide
theorem test_decode_append_60 : decode 0b00000000000000000_0111100_00001000#32 = .ok (.append 60) := by decide
theorem test_decode_append_64 : decode 0b00000000000000000_1000000_00001000#32 = .ok (.append 64) := by decide
theorem test_decode_pbclr : decode 0b00000000000000000_0000000_00001001#32 = .ok .pbclr := by decide
theorem test_decode_refuses_opcode_0A : decode 0x0000000A#32 = .error .unknownOpcode := by decide
theorem test_decode_refuses_nop_with_len : decode 0x00000100#32 = .error .lenNotZero := by decide
theorem test_decode_refuses_rsvd : decode 0x00008000#32 = .error .reservedNotZero := by decide
theorem test_decode_refuses_append_65 : decode 0x00004108#32 = .error .lenTooLong := by decide
theorem test_decodeTableWord_append : decodeTableWord 32 0x3C08 = some (.append 60) := by decide

/-! One step per command. -/

/-- V8.5. -/
theorem test_nop_status : (run 0x00 State.reset).statusWord = 0x02#32 := by decide
/-- V8.1. -/
theorem test_illegal_word :
    (run 0x0A State.reset).errCode = .illegalCmd ∧ (run 0x0A State.reset).errInfo = 0x0A#32 ∧
      (run 0x0A State.reset).statusWord = 0x06#32 := by decide
/-- V8.6: CLEAR drops the table and keeps IN_LEN. -/
theorem test_clear_table :
    (run 0x01 { tableAab with inLen := 2, totalBits := 2 }).statusWord = 0x02#32 ∧
      (run 0x01 { tableAab with inLen := 2, totalBits := 2 }).codeAt 0x61 = none ∧
      (run 0x01 { tableAab with inLen := 2, totalBits := 2 }).inLen = 2 := by decide
/-- V1.1. -/
theorem test_count_hello_alex :
    ([0x6C, 0x68, 0x65, 0x6D].map (run 0x02 (load helloAlex)).freqAt) = [3, 1, 2, 0] ∧
      (run 0x02 (load helloAlex)).numSyms = 7 := by decide +kernel
/-- V1.2. -/
theorem test_count_empty : (run 0x02 State.reset).freq = [] ∧ (run 0x02 State.reset).statusWord = 0x0A#32 := by decide
/-- V2.2: equal weights, so the order is the partition's. -/
theorem test_qsort_equal_weights : qsort (fun _ => 1) 4 [0, 1, 2, 3] = [2, 3, 1, 0] := by decide
/-- V2.4. -/
theorem test_qsort_hello_alex :
    qsort (fun i => [1, 1, 2, 1, 3, 1, 1].getD i 0) 7 [0, 1, 2, 3, 4, 5, 6] = [3, 6, 0, 1, 5, 2, 4] := by decide +kernel
/-- V3.1. -/
theorem test_build_aab :
    (run 0x03 { State.reset with freqValid := true, freq := [(0x61, 2), (0x62, 1)] }).nodeAt 2 =
        { internal := true, sym := 0, weight := 3, left := 1, right := 0 } ∧
      (run 0x03 { State.reset with freqValid := true, freq := [(0x61, 2), (0x62, 1)] }).nodeCount = 3 := by
  decide +kernel
/-- V3.2: the tie of leaf r and node 5 goes to the internal queue. -/
theorem test_build_tie :
    (run 0x03 { State.reset with
      freqValid := true, freq := [(0x61, 5), (0x68, 2), (0x6D, 4), (0x72, 3), (0x74, 1)] }).nodeAt 6 =
      { internal := true, sym := 0, weight := 6, left := 5, right := 3 } := by decide +kernel
/-- V4.1's table from V3.1's tree. -/
theorem test_gencode_aab :
    (run 0x04 { State.reset with
      treeValid := true, nodeCount := 3, root := 2
      node := [(0, leaf 0x61 2), (1, leaf 0x62 1),
        (2, { internal := true, sym := 0, weight := 3, left := 1, right := 0 })] }).code = tableAab.code := by
  decide +kernel
/-- V4.8: a one-leaf tree. -/
theorem test_gencode_one_leaf :
    (run 0x04 { State.reset with treeValid := true, nodeCount := 1, node := [(0, leaf 0x61 3)] }).codeAt 0x61 =
      some { len := 1, value := 0 } := by decide
/-- V6.1 with V4.1's table: "ac" stops at 'c' with 'a' packed. -/
theorem test_pack_stale_table :
    (run 0x05 { tableAab with symMem := [(0, 0x61), (1, 0x63)], inLen := 2 }).errCode = .lookupFailure ∧
      (run 0x05 { tableAab with symMem := [(0, 0x61), (1, 0x63)], inLen := 2 }).errInfo = 1 ∧
      (run 0x05 { tableAab with symMem := [(0, 0x61), (1, 0x63)], inLen := 2 }).totalBits = 1 := by decide +kernel
/-- V6.2, over a buffer the host filled with ones: the result does not depend on what PBUF held (R144). -/
theorem test_pack_ba :
    (run 0x05 { tableAab with
      symMem := [(0, 0x62), (1, 0x61)], inLen := 2, pbuf := hostHalves [0xFFFFFFFF, 0xFFFFFFFF] }).pbufWord 0 = 2 := by decide +kernel
/-- V4.3. -/
theorem test_encode_hello_alex :
    (run 0x06 (load helloAlex)).totalBits = 27 ∧ (run 0x06 (load helloAlex)).pbufWord 0 = 0x0000000006DC07E5#64 := by
  decide +kernel
/-- V4.10. -/
theorem test_encode_empty : (run 0x06 State.reset).errCode = .invalidInput := by decide
/-- V7.3's buffer, whole: a, a, b. -/
theorem test_decode_aab :
    (run 0x07 { tableAab with pbuf := hostHalves [3, 0], totalBits := 3 }).outputSymbols = [0x61, 0x61, 0x62] := by
  decide +kernel
/-- V7.4 (a candidate left over), V7.5 (the candidate limit), and OUT_OVERFLOW where R150 puts it, with N_MAX 2 for V7.6's 4096:
the third symbol completes at bit 2. -/
theorem test_decode_errors :
    errorOf (run 0x07 { tableOneBit with pbuf := hostHalves [1, 0], totalBits := 1 }) = (.corruptBuffer, 1, 0) ∧
    errorOf (run 0x07 { tableOneBit with pbuf := hostHalves [0xFFFFFFFF, 0xFFFFFFFF, 0, 0], totalBits := 70 }) =
      (.corruptBuffer, 64, 0) ∧
    errorOf (run 0x07 { tableOneBit with
      params := { nMax := 2, wMax := 2 }, pbuf := hostHalves [0, 0], totalBits := 4 }) = (.outOverflow, 2, 2) := by
  decide +kernel
/-- V5.7: 64 bits at offset 4 are split over two words. -/
theorem test_append_split :
    (run 0x4008 { State.reset with
      appLo := 0x89ABCDEF, appHi := 0xF1234567, pbuf := hostHalves [0xF, 0], totalBits := 4 }).pbuf.map
      (fun e => (e.1, e.2.bits)) = [(0, 0x9ABCDEFF), (1, 0x12345678), (2, 0xF), (3, 0)] := by decide +kernel
/-- V5.11. -/
theorem test_append_overflow :
    (run 0x0808 { State.reset with totalBits := 262140 }).errCode = .pbufOverflow ∧
      (run 0x0808 { State.reset with totalBits := 262140 }).totalBits = 262140 := by decide
/-- V5.10. -/
theorem test_pbclr :
    (run 0x09 { State.reset with pbuf := hostHalves [7, 0], totalBits := 4 }).totalBits = 0 ∧
      (run 0x09 { State.reset with pbuf := hostHalves [7, 0], totalBits := 4 }).pbuf = hostHalves [7, 0] := by decide

/-! The host interface: one host transaction each. -/

/-- V8.9. -/
theorem test_read_id : (hostRead 0x00000#20 State.reset).replies = [0x48554646#32] := by decide
/-- V8.10. -/
theorem test_read_reserved : (hostRead 0x00050#20 State.reset).replies = [0] := by decide
/-- V1.4. -/
theorem test_write_in_len_clamps : (hostWrite 0x00028#20 5000 State.reset).inLen = 4096 := by decide
/-- V5.13. -/
theorem test_write_total_bits_clamps : (hostWrite 0x00030#20 300000 State.reset).totalBits = 262144 := by decide
/-- V8.7 (a): a second command is dropped. -/
theorem test_command_dropped_while_busy :
    (hostWrite 0x00018#20 7 (accept 6 State.reset)).pending = some 6 ∧
      (hostWrite 0x00018#20 7 (accept 6 State.reset)).overrun = true := by decide
/-- V8.8: ACK. -/
theorem test_ack_clears_irq :
    (complete { State.reset with irqEn := true }).irq = true ∧
      (hostWrite 0x0001C#20 2 (complete { State.reset with irqEn := true })).irq = false := by decide
/-- P2: CODE[0x68].W2 stands at 0x04688 and shows VALID and LEN. -/
theorem test_read_code_window :
    (hostRead 0x04688#20 { State.reset with code := [(0x68, { len := 4, value := 5 })] }).replies = [0x104] := by decide
/-- P5: NODE[6].W3 stands at 0x0206C. -/
theorem test_read_node_window :
    (hostRead 0x0206C#20 { State.reset with
      nodeCount := 9, node := [(6, { internal := true, sym := 0, weight := 6, left := 5, right := 3 })] }).replies =
      [3] := by decide
/-- 93 item 1: after V5.1 the last word is the append's, and a read shows it whole; written by the host with TOTAL_BITS 1, a read
takes a draw; and with TOTAL_BITS 0 (V5.10) no word is the last. -/
theorem test_read_last_word :
    (hostRead 0x40000#20 (run 0x0208 { State.reset with appLo := 3 })).replies = [3] ∧
    (hostRead 0x40000#20 { State.reset with pbuf := hostHalves [7, 0], totalBits := 1 }).draws = 1 ∧
    (hostRead 0x40000#20 { State.reset with pbuf := hostHalves [7, 0] }).replies = [7] := by decide +kernel
/-- The last entries of the capacity exist, and the next ones are reserved (R62). -/
theorem test_address_map_edges :
    locate Params.default 0x13FFC#20 = .sym 4095 ∧ locate Params.default 0x14000#20 = .reserved ∧
    locate Params.default 0x23FFF#20 = .out 4095 ∧ locate Params.default 0x24000#20 = .reserved ∧
    locate Params.default 0x47FFC#20 = .pbuf 8191 ∧ locate Params.default 0x48000#20 = .reserved ∧
    locate Params.default 0x03FEC#20 = .node 510 3 ∧ locate Params.default 0x03FF0#20 = .reserved ∧
    locate Params.default 0x013FC#20 = .freq 255 ∧ locate Params.default 0x01400#20 = .reserved ∧
    locate Params.default 0x04FFC#20 = .code 255 3 ∧ locate Params.default 0x05000#20 = .reserved ∧
    locate Params.default 0x00048#20 = .appHi ∧ locate Params.default 0x0004C#20 = .reserved := by decide +kernel

/-- APPENDV of R91, as the transactions P1 lists. -/
theorem test_appendv_events :
    Stmt.events (.appendV 0x0800000000000000#64 60 0) =
      [.write 0x00044#20 0x00000000, .write 0x00048#20 0x08000000, .write 0x00018#20 0x00003C08, .engine,
        .read 0x0001C#20] := by decide

end Sys2Proof.Tests
end

