-- ==== Sys2Proof/Tests/Witnesses.lean ====
section
/-! SUPPORT. For every statement that has hypotheses, a state and operands that meet all of them together, clause by clause
(the clause's boundary values where it ranges over an input). The names are the statements' own. -/

namespace Sys2Proof.Tests

open Sys2Proof.Machine

/-! States the witnesses share. -/

/-- The tree of "aab" as V3.1 gives it. -/
def treeAab : State :=
  { State.reset with
    freqValid := true, treeValid := true, freq := [(0x61, 2), (0x62, 1)], nodeCount := 3, root := 2
    node := [(0, leaf 0x61 2), (1, leaf 0x62 1),
      (2, { internal := true, sym := 0, weight := 3, left := 1, right := 0 })] }

/-- V4.1's table with its packed buffer. -/
def packedAab : State := { tableAab with pbuf := hostHalves [3, 0], totalBits := 3 }

/-- A busy state: NOP accepted. -/
def busyNop : State := accept 0 State.reset

/-- A node that is its own two children: an internal node at every depth. -/
def selfLoop : State :=
  { State.reset with
    treeValid := true, node := [(0, { internal := true, sym := 0, weight := 0, left := 0, right := 0 })] }

theorem bounds_load_aab : Bounds (load aab) := ⟨by decide, by decide, by decide, by decide, by decide⟩

theorem bounds_tableAab : Bounds { tableAab with symMem := [(0, 0x61), (1, 0x63)], inLen := 2 } :=
  ⟨by decide, by decide, by decide, by decide, by decide⟩

theorem tableOk_tableAab : TableOk tableAab where
  unset := by decide
  lengths := by decide
  prefixFree := by unfold isPrefixOf; decide

theorem treeShape_treeAab : TreeShape treeAab where
  size := by decide +kernel
  root := by decide
  leaves := by decide +kernel
  inner := by decide +kernel
  owned := by decide +kernel

theorem freqOk_treeAab : FreqOk treeAab := ⟨by decide, by decide +kernel⟩

theorem bounds_treeAab : Bounds treeAab := ⟨by decide, by decide, by decide, by decide, by decide⟩

/-! Command words, the step and the lifecycle. -/

theorem witness_IllegalWordOnlyReports :
    legal 0x4108#32 = false ∧ (accept 0x4108#32 State.reset).pending = some 0x4108#32 ∧
      (accept 0x4108#32 State.reset).inputs = [] ∧
      { accept 0x4108#32 State.reset with inputs := [.engine] }.inputs = .engine :: [] := by decide

theorem witness_StepRunsDecodedCommand :
    (accept 9 State.reset).pending = some 9 ∧ decode 9#32 = .ok .pbclr ∧ (accept 9 State.reset).inputs = [] ∧
      exec .pbclr (accept 9 State.reset) = .next (nextOf (exec .pbclr (accept 9 State.reset))) :=
  ⟨rfl, by decide, rfl, rfl⟩

theorem witness_StepRunsDecodedCommand_engine :
    (State.reset.withFetchWord 32 9).pending = some 9 ∧
      (State.reset.withFetchWord 32 9).inputs = .engine :: [] := by decide

theorem witness_StepRunsDecodedCommand_fetch :
    Instr.wf (.append 64) = true ∧
      ∃ t, exec (.append 64) { State.reset with pending := some (encode (.append 64)) } = .next t :=
  ⟨by decide, _, rfl⟩

theorem witness_EventsHappenInOrder :
    { State.reset with inputs := [.read 0] }.inputs = .read 0 :: [] ∧
    { State.reset with inputs := [.write 0 0] }.inputs = .write 0 0 :: [] ∧
    { State.reset with inputs := [.reset] }.inputs = .reset :: [] ∧
    State.reset.pending = none ∧ { State.reset with inputs := [.engine] }.inputs = .engine :: [] ∧
    State.reset.inputs = [] := by decide

theorem witness_CommandWriteIsAccepted :
    (0x00018#20).toNat / 4 = 0x018 / 4 ∧ (0x0001B#20).toNat / 4 = 0x018 / 4 ∧
      State.busy { State.reset with inputs := [.write 0x0001B#20 6] } = false ∧
      State.busy { busyNop with inputs := [.write 0x00018#20 6] } = true := by decide

theorem witness_EveryCommandCompletes :
    busyNop.pending = some 0 ∧ busyNop.inputs = [] ∧ (State.reset.withFetchWord 32 0).pending = some 0 ∧
      (State.reset.withFetchWord 32 0).inputs.head? = some .engine := by decide

theorem witness_PendingCommandEventuallyCompletes :
    { busyNop with inputs := [.read 0x0001C#20, .write 0x00018#20 7] }.pending = some 0 ∧
      ∀ e ∈ { busyNop with inputs := [.read 0x0001C#20, .write 0x00018#20 7] }.inputs, e.isAccess = true := by decide

theorem witness_BusyCommandIgnoresTheHost :
    (accept 6 (load aab)).busy = true ∧ ∃ t, exec .encode (accept 6 (load aab)) = .next t := ⟨by decide, _, rfl⟩

theorem witness_InterruptIsTheDoneLevel :
    (0x0001C#20).toNat / 4 = 0x01C / 4 ∧ (0x2#32).getLsbD 1 = true ∧ (0x00014#20).toNat / 4 = 0x014 / 4 ∧
      (0x0#32).getLsbD 0 = false := by decide

theorem witness_ResetAbandonsThePendingCommand :
    { busyNop with inputs := [.reset] }.inputs = .reset :: [] ∧ { busyNop with inputs := [.reset] }.pending = some 0 := by
  decide

/-! The host interface. -/

theorem witness_AddressMapNamesEachLocation :
    Params.default.legal = true ∧ Loc.sym 4095 ≠ .reserved ∧ locate Params.default 0x13FFF#20 = .sym 4095 ∧
      (Loc.sym 4095).existsIn Params.default = true ∧ (Loc.sym 4095).offset = 4 * ((0x13FFF#20).toNat / 4) ∧
      locate Params.default 0x00048#20 = .appHi ∧ locate Params.default 0x013FF#20 = .freq 255 ∧
      locate Params.default 0x03FEF#20 = .node 510 3 ∧ locate Params.default 0x04FFF#20 = .code 255 3 ∧
      locate Params.default 0x23FFF#20 = .out 4095 ∧ locate Params.default 0x47FFF#20 = .pbuf 8191 := by decide +kernel

theorem witness_IdleRegisterReads :
    ∀ e ∈ [ErrCode.ok, .illegalCmd, .invalidInput, .lookupFailure, .corruptBuffer, .noTable, .noFreq, .noTree,
      .pbufOverflow, .outOverflow, .codeTooLong], State.busy { State.reset with errCode := e } = false := by decide

theorem witness_IdleWindowReads :
    State.reset.busy = false ∧ State.reset.params.legal = true ∧ 255 < 256 ∧ 510 < 511 ∧
      tableAab.busy = false ∧ tableAab.codeAt 0x61 = some { len := 1, value := 1 } ∧ tableAab.codeAt 0 = none ∧
      4095 < State.reset.params.nMax ∧ 8191 < 2 * State.reset.params.wMax := by decide

/-- The last word with TOTAL_BITS 1: bit 0 is shown, bit 1 is not unless an append wrote it, and word 1 is shown. -/
theorem witness_IdleWindowReads_lastWord :
    let s := { tableAab with pbuf := [(0, { bits := 7, appended := 4 })], totalBits := 1 }
    s.busy = false ∧ s.params.legal = true ∧ 0 / 2 + 1 = s.wordCount ∧ 0 < s.totalBits.toNat ∧
      ¬ (1 < s.totalBits.toNat ∨ s.pbufAppended 1 = true) ∧ s.pbufAppended 2 = true ∧ 2 / 2 + 1 ≠ s.wordCount := by
  decide

theorem witness_BusyReadsAreFree :
    busyNop.busy = true ∧ (0x00017#20).toNat / 4 ≤ 5 ∧ (0x0001C#20).toNat / 4 = 7 ∧ 6 ≤ (0x00018#20).toNat / 4 ∧
      6 ≤ (0x0001C#20).toNat / 4 ∧ ¬ (2 = 0 ∨ 2 = 1 ∨ 2 = 6) := by decide

theorem witness_BusyWritesAreDropped :
    busyNop.busy = true ∧ (0x00018#20).toNat / 4 = 0x018 / 4 ∧ (0x00028#20).toNat / 4 = 0x028 / 4 ∧
      (0x00030#20).toNat / 4 = 0x030 / 4 ∧ (0x00044#20).toNat / 4 = 0x044 / 4 ∧ (0x00048#20).toNat / 4 = 0x048 / 4 ∧
      (0x10000 ≤ (0x13FFC#20).toNat ∧ (0x13FFC#20).toNat < 0x20000 ∧
        ((0x13FFC#20).toNat - 0x10000) / 4 < busyNop.params.nMax) ∧
      (0x40000 ≤ (0x47FFC#20).toNat ∧ (0x47FFC#20).toNat < 0x80000 ∧
        ((0x47FFC#20).toNat - 0x40000) / 8 < busyNop.params.wMax) := by decide +kernel

theorem witness_BusyWritesAreDropped_cleared :
    ∃ t, { State.reset with overrun := true, inputs := [.write 0x0001C#20 0x40] }.overrun = true ∧
      step { State.reset with overrun := true, inputs := [.write 0x0001C#20 0x40] } = .next t ∧ t.overrun = false :=
  ⟨_, rfl, rfl, by decide⟩

theorem witness_ControlAndStatusWrites :
    (0x00014#20).toNat / 4 = 0x014 / 4 ∧ (0x0001F#20).toNat / 4 = 0x01C / 4 := by decide

theorem witness_IdleRegisterWritesStore :
    State.reset.busy = false ∧ State.reset.params.legal = true ∧ (0x0002B#20).toNat / 4 = 0x028 / 4 ∧
      (0x00030#20).toNat / 4 = 0x030 / 4 ∧ (0x00044#20).toNat / 4 = 0x044 / 4 ∧ (0x0004B#20).toNat / 4 = 0x048 / 4 := by
  decide

theorem witness_IdleWindowWritesStore :
    State.reset.busy = false ∧ State.reset.params.legal = true ∧ 4095 < State.reset.params.nMax ∧
      4095 < State.reset.params.wMax := by decide

theorem witness_ReadOnlyAndReservedAddresses :
    (locate State.reset.params 0x00040#20).readOnly = true ∧ State.reset.busy = false ∧
      locate State.reset.params 0xFFFFF#20 = .reserved ∧ locate State.reset.params 0x0004C#20 = .reserved := by
  decide +kernel

theorem witness_LoadSymsLoadsTheText :
    State.busy { State.reset with inputs := (Stmt.loadSyms [0x61, 0x62]).events } = false ∧
      State.reset.params.legal = true ∧ [0x61#8, 0x62#8].length ≤ State.reset.params.nMax ∧
      { State.reset with inputs := (Stmt.loadSyms [0x61, 0x62]).events }.inputs =
        (Stmt.loadSyms [0x61, 0x62]).events := by decide

/-! The commands. -/

theorem witness_CommandsKeepTheHostsState : ∃ t, exec .encode (load aab) = .next t := ⟨_, rfl⟩

theorem witness_CommandErrorsAndFlags :
    (load aab).errCode = .ok ∧ (∃ t, exec .encode (load aab) = .next t ∧ t.errCode = .ok) ∧
      (∃ t, exec .build State.reset = .next t ∧ t.errCode = .noFreq) ∧
      (∃ t, exec .build { State.reset with freqValid := true } = .next t ∧ t.errCode = .invalidInput) ∧
      (∃ t, exec .build treeAab = .next t ∧ t.errCode = .ok) ∧
      (∃ t, exec .gencode treeAab = .next t ∧ t.errCode = .ok) ∧
      (∃ t, exec .gencode State.reset = .next t ∧ t.errCode = .noTree) ∧
      (∃ t, exec .gencode selfLoop = .next t ∧ t.errCode = .codeTooLong) :=
  ⟨by decide, ⟨_, rfl, by decide +kernel⟩, ⟨_, rfl, by decide⟩, ⟨_, rfl, by decide +kernel⟩,
    ⟨_, rfl, by decide +kernel⟩, ⟨_, rfl, by decide +kernel⟩, ⟨_, rfl, by decide⟩, ⟨_, rfl, by decide +kernel⟩⟩

theorem witness_PreconditionErrorsChangeNothingElse :
    State.reset.freqValid = false ∧ State.reset.treeValid = false ∧ State.reset.tableValid = false ∧
      State.reset.inLen = 0 := by decide

theorem witness_NopDoesNothing :
    (0x00018#20).toNat / 4 = 0x018 / 4 ∧ State.busy { State.reset with inputs := [.write 0x00018#20 0] } = false ∧
      State.busy { busyNop with inputs := [.write 0x00018#20 0] } = true := by decide

theorem witness_CountsSumToInputLength : ∃ t, exec .count (load aab) = .next t := ⟨_, rfl⟩

theorem witness_TakeMinPrefersTheInternalQueue :
    ((fun i => BitVec.ofNat 32 i : Nat → Word) 1).toNat < ((fun i => BitVec.ofNat 32 i : Nat → Word) 2).toNat ∧
      ((fun _ => 1 : Nat → Word) 2).toNat ≤ ((fun _ => 1 : Nat → Word) 1).toNat := by decide

theorem witness_MergeMakesAnInternalNode :
    ∃ (f : Forest) (a b : Nat) (p q : List Nat × List Nat),
      takeMin (fun i => (arenaAt 0 f.node i).weight) f.lq f.iq = some (a, p) ∧
      takeMin (fun i => (arenaAt 0 f.node i).weight) p.1 p.2 = some (b, q) ∧ a < 511 ∧ b < 511 ∧
      (arenaAt 0 f.node a).weight.toNat + (arenaAt 0 f.node b).weight.toNat < 2 ^ 32 :=
  ⟨{ node := [(0, leaf 0x61 2), (1, leaf 0x62 1)], lq := [1, 0], iq := [], next := 2 }, 1, 0, ([0], []), ([], []),
    by decide, by decide, by decide, by decide, by decide⟩

theorem witness_QueuesStayNonDecreasing :
    2 ≤ treeAab.numSyms ∧ totalCount treeAab.freq < 2 ^ 32 ∧
      ∃ f, (fun o : Option Forest => o.bind (mergeOnce treeAab.resets))^[1]
        (some { node := (buildLeaves treeAab).node, lq := sortedLeaves (buildLeaves treeAab) treeAab.numSyms, iq := []
                next := treeAab.numSyms }) = some f :=
  ⟨by decide +kernel, by decide +kernel, Option.isSome_iff_exists.1 (by decide +kernel)⟩

theorem witness_QueuesStayNonDecreasing_take :
    (takeMin (fun i => BitVec.ofNat 32 i) [0, 1] []).isSome = true ∧ 2 ≤ [0, 1].length + ([] : List Nat).length := by
  decide

theorem witness_BuildRejectsTheEmptyMap :
    { State.reset with freqValid := true }.freqValid = true ∧
      State.numSyms { State.reset with freqValid := true } = 0 := by decide +kernel

theorem witness_BuildOfOneSymbol :
    { State.reset with freqValid := true, freq := [(0xFF, 3)] }.freqValid = true ∧
      presentSymbols [(0xFF, 3)] = [0xFF] := by decide +kernel

theorem witness_BuildMakesTheTree :
    treeAab.freqValid = true ∧ 2 ≤ treeAab.numSyms ∧ totalCount treeAab.freq < 2 ^ 32 := by decide +kernel

theorem witness_GencodeOfOneLeaf :
    { State.reset with treeValid := true, nodeCount := 1, node := [(0, leaf 0x61 3)] }.treeValid = true ∧
      (State.nodeAt { State.reset with treeValid := true, nodeCount := 1, node := [(0, leaf 0x61 3)] } 0).internal =
        false := by decide

theorem witness_GencodeRecordsThePaths :
    treeAab.treeValid = true ∧ TreeShape treeAab ∧ (treeAab.nodeAt treeAab.root.toNat).internal = true ∧
      (∀ v n, follow treeAab.nodeAt v 0 64 treeAab.root.toNat = some n → (treeAab.nodeAt n).internal = false) := by
  refine ⟨rfl, treeShape_treeAab, by decide, fun v n h => ?_⟩
  have h2 : (treeAab.nodeAt treeAab.root.toNat).internal = true := by decide
  have hl : (treeAab.nodeAt treeAab.root.toNat).left.toNat = 1 := by decide
  have hr : (treeAab.nodeAt treeAab.root.toNat).right.toNat = 0 := by decide
  have h0 : (treeAab.nodeAt 0).internal = false := by decide
  have h1 : (treeAab.nodeAt 1).internal = false := by decide
  rw [follow, if_pos h2, hl, hr] at h
  cases hv : v.getLsbD 0 <;> rw [hv] at h <;> simp [follow, h0, h1] at h

theorem follow_selfLoop (v : Dword) (j k : Nat) : follow selfLoop.nodeAt v j k 0 = some 0 := by
  have hi : (selfLoop.nodeAt 0).internal = true := by decide
  have hl : (selfLoop.nodeAt 0).left.toNat = 0 := by decide
  have hr : (selfLoop.nodeAt 0).right.toNat = 0 := by decide
  induction k generalizing j with
  | zero => rfl
  | succ k ih => rw [follow, if_pos hi, hl, hr, ite_self]; exact ih (j + 1)

theorem witness_GencodeRejectsDeepTrees :
    selfLoop.treeValid = true ∧ follow selfLoop.nodeAt 0 0 64 selfLoop.root.toNat = some 0 ∧
      (selfLoop.nodeAt 0).internal = true ∧
      (∀ v' n', follow selfLoop.nodeAt v' 0 64 selfLoop.root.toNat = some n' → (selfLoop.nodeAt n').internal = true →
        v' ≠ 0 → ∃ k < 64, (∀ j < k, (0 : Dword).getLsbD j = v'.getLsbD j) ∧ (0 : Dword).getLsbD k = false ∧
          v'.getLsbD k = true) := by
  refine ⟨rfl, follow_selfLoop 0 0 64, by decide, fun v' n' _ _ hv => ?_⟩
  have hex : ∃ k, v'.getLsbD k = true := by
    by_contra hno
    refine hv (BitVec.eq_of_getLsbD_eq fun i _ => ?_)
    cases hb : v'.getLsbD i
    · simp
    · exact absurd ⟨i, hb⟩ hno
  classical
  refine ⟨Nat.find hex, ?_, fun j hj => ?_, by simp, Nat.find_spec hex⟩
  · by_contra hge
    have := Nat.find_spec hex
    rw [BitVec.getLsbD_of_ge _ _ (by omega)] at this
    simp at this
  · have := Nat.find_min hex hj
    simpa using this

theorem witness_KraftEquality :
    treeAab.treeValid = true ∧ TreeShape treeAab ∧ 2 ≤ treeAab.numSyms ∧
      ∃ t, exec .gencode treeAab = .next t ∧ t.tableValid = true :=
  ⟨rfl, treeShape_treeAab, by decide +kernel, _, rfl, by decide +kernel⟩

theorem witness_FrequentSymbolsHaveShorterCodes :
    ∃ b t, exec .build treeAab = .next b ∧ exec .gencode b = .next t ∧ t.tableValid = true ∧
      (∃ w, t.codeAt 0x61 = some w) ∧ (∃ u, t.codeAt 0x62 = some u) ∧
      (treeAab.freqAt 0x62).toNat < (treeAab.freqAt 0x61).toNat :=
  ⟨nextOf (exec .build treeAab), nextOf (exec .gencode (nextOf (exec .build treeAab))), rfl, rfl, by decide +kernel,
    Option.isSome_iff_exists.1 (by decide +kernel), Option.isSome_iff_exists.1 (by decide +kernel), by decide⟩

/-! The packed buffer. -/

theorem witness_AppendAddsTheLowBits :
    State.reset.params.legal = true ∧ (0 : BitVec 7).toNat = 0 ∧ (64 : BitVec 7).toNat ≤ 64 ∧
      64 * State.reset.params.wMax < { State.reset with totalBits := 262081 }.totalBits.toNat + (64 : BitVec 7).toNat ∧
      { State.reset with totalBits := 262080 }.totalBits.toNat + (64 : BitVec 7).toNat ≤ 64 * State.reset.params.wMax := by
  decide +kernel

theorem witness_AppendWordForm :
    0 < (64 : BitVec 7).toNat ∧ { State.reset with totalBits := 0 }.totalBits.toNat % 64 = 0 ∧
      { State.reset with totalBits := 4 }.totalBits.toNat % 64 ≠ 0 ∧
      64 < { State.reset with totalBits := 4 }.totalBits.toNat % 64 + (64 : BitVec 7).toNat ∧
      { State.reset with totalBits := 4 }.totalBits.toNat + (64 : BitVec 7).toNat ≤ 64 * State.reset.params.wMax := by
  decide +kernel

theorem witness_PackConcatenatesCodeWords :
    Bounds { tableAab with symMem := [(0, 0x61), (1, 0x61)], inLen := 2 } ∧
      TableOk { tableAab with symMem := [(0, 0x61), (1, 0x61)], inLen := 2 } ∧ tableAab.tableValid = true ∧
      (∀ i < 2, (State.codeAt { tableAab with symMem := [(0, 0x61), (1, 0x61)], inLen := 2 }
        (State.symAt { tableAab with symMem := [(0, 0x61), (1, 0x61)], inLen := 2 } i).toNat).isSome = true) :=
  ⟨⟨by decide, by decide, by decide, by decide, by decide⟩,
    ⟨tableOk_tableAab.unset, tableOk_tableAab.lengths, tableOk_tableAab.prefixFree⟩, by decide, by decide⟩

/-- Both PACK statements' clause on the last word, at its boundary positions: "aa" packs 2 bits and "ac" one. -/
theorem witness_PackConcatenatesCodeWords_tail :
    (run 0x05 { tableAab with symMem := [(0, 0x61), (1, 0x61)], inLen := 2 }).totalBits.toNat ≤ 2 ∧
      63 / 64 * 64 < (run 0x05 { tableAab with symMem := [(0, 0x61), (1, 0x61)], inLen := 2 }).totalBits.toNat ∧
      (run 0x05 { tableAab with symMem := [(0, 0x61), (1, 0x63)], inLen := 2 }).totalBits.toNat ≤ 1 ∧
      63 / 64 * 64 < (run 0x05 { tableAab with symMem := [(0, 0x61), (1, 0x63)], inLen := 2 }).totalBits.toNat := by
  decide +kernel

theorem witness_PackStopsAtTheFirstUnknownSymbol :
    Bounds { tableAab with symMem := [(0, 0x61), (1, 0x63)], inLen := 2 } ∧
      TableOk { tableAab with symMem := [(0, 0x61), (1, 0x63)], inLen := 2 } ∧ tableAab.tableValid = true ∧
      1 < { tableAab with inLen := 2 }.inLen.toNat ∧
      (∀ j < 1, (State.codeAt { tableAab with symMem := [(0, 0x61), (1, 0x63)], inLen := 2 }
        (State.symAt { tableAab with symMem := [(0, 0x61), (1, 0x63)], inLen := 2 } j).toNat).isSome = true) ∧
      State.codeAt { tableAab with symMem := [(0, 0x61), (1, 0x63)], inLen := 2 }
        (State.symAt { tableAab with symMem := [(0, 0x61), (1, 0x63)], inLen := 2 } 1).toNat = none :=
  ⟨bounds_tableAab, ⟨tableOk_tableAab.unset, tableOk_tableAab.lengths, tableOk_tableAab.prefixFree⟩, by decide,
    by decide, by decide, by decide⟩

theorem witness_EncodeRunsTheStages :
    ∃ a b c, (load aab).errCode = .ok ∧ (load aab).inLen ≠ 0 ∧ exec .count (load aab) = .next a ∧
      exec .build a = .next b ∧ exec .gencode b = .next c ∧ b.errCode = .ok ∧ c.errCode = .ok :=
  ⟨nextOf (exec .count (load aab)), nextOf (exec .build (nextOf (exec .count (load aab)))),
    nextOf (exec .gencode (nextOf (exec .build (nextOf (exec .count (load aab)))))), by decide, by decide, rfl, rfl, rfl,
    by decide +kernel, by decide +kernel⟩

theorem witness_EncodeSucceeds : Bounds (load aab) ∧ (load aab).errCode = .ok ∧ (load aab).inLen ≠ 0 :=
  ⟨bounds_load_aab, by decide, by decide⟩

theorem witness_DecodeSpellsTheStream :
    packedAab.params.legal = true ∧ Memory.wf packedAab = true ∧ TableOk packedAab ∧ packedAab.tableValid = true ∧
      packedAab.errCode = .ok :=
  ⟨by decide, by decide +kernel, ⟨tableOk_tableAab.unset, tableOk_tableAab.lengths, tableOk_tableAab.prefixFree⟩,
    by decide, by decide⟩

theorem witness_DecodeReadsCodeWords :
    packedAab.params.legal = true ∧ Memory.wf packedAab = true ∧ TableOk packedAab ∧ packedAab.tableValid = true ∧
      [0x61#8, 0x61#8, 0x62#8].length ≤ packedAab.params.nMax ∧
      (∀ x ∈ [0x61#8, 0x61#8, 0x62#8], (packedAab.codeAt x.toNat).isSome = true) ∧
      packedAab.stream = [0x61#8, 0x61#8, 0x62#8].flatMap (codeBits packedAab) :=
  ⟨by decide, by decide +kernel, ⟨tableOk_tableAab.unset, tableOk_tableAab.lengths, tableOk_tableAab.prefixFree⟩,
    by decide, by decide, by decide, by decide +kernel⟩

theorem tableOk_tableOneBit : TableOk tableOneBit where
  unset := by decide
  lengths := by decide
  prefixFree := by unfold isPrefixOf; decide

theorem witness_DecodeFrameAndErrors :
    packedAab.params.legal = true ∧ Memory.wf packedAab = true ∧ TableOk packedAab ∧ packedAab.tableValid = true ∧
      packedAab.errCode = .ok ∧ ∃ t, exec .decode packedAab = .next t ∧ t.errCode = .ok :=
  ⟨by decide, by decide +kernel, ⟨tableOk_tableAab.unset, tableOk_tableAab.lengths, tableOk_tableAab.prefixFree⟩,
    by decide, by decide, _, rfl, by decide +kernel⟩

/-- V7.4's buffer: a candidate left over. -/
def oneBitEnd : State := { tableOneBit with pbuf := hostHalves [1, 0], totalBits := 1 }

/-- V7.5's buffer: the candidate limit. -/
def oneBitLimit : State := { tableOneBit with pbuf := hostHalves [0xFFFFFFFF, 0xFFFFFFFF, 0, 0], totalBits := 70 }

/-- More symbols in the stream than OUT_MEM holds. -/
def oneBitOverflow : State :=
  { tableOneBit with params := { nMax := 2, wMax := 2 }, pbuf := hostHalves [0, 0], totalBits := 4 }

/-- What DecodeFrameAndErrors asks of `s`, and the error DECODE ends with there. -/
def DecodeEndsWith (s : State) (e : ErrCode) : Prop :=
  s.params.legal = true ∧ Memory.wf s = true ∧ TableOk s ∧ s.tableValid = true ∧ s.errCode = .ok ∧
    ∃ t, exec .decode s = .next t ∧ t.errCode = e

theorem witness_DecodeFrameAndErrors_end : DecodeEndsWith oneBitEnd .corruptBuffer :=
  ⟨by decide, by decide +kernel, ⟨nofun, tableOk_tableOneBit.lengths, tableOk_tableOneBit.prefixFree⟩, rfl, rfl,
    nextOf (exec .decode oneBitEnd), rfl, by decide +kernel⟩

theorem witness_DecodeFrameAndErrors_limit : DecodeEndsWith oneBitLimit .corruptBuffer :=
  ⟨by decide, by decide +kernel, ⟨nofun, tableOk_tableOneBit.lengths, tableOk_tableOneBit.prefixFree⟩, rfl, rfl,
    nextOf (exec .decode oneBitLimit), rfl, by decide +kernel⟩

theorem witness_DecodeFrameAndErrors_overflow : DecodeEndsWith oneBitOverflow .outOverflow :=
  ⟨by decide, by decide +kernel, ⟨nofun, tableOk_tableOneBit.lengths, tableOk_tableOneBit.prefixFree⟩, rfl, rfl,
    nextOf (exec .decode oneBitOverflow), rfl, by decide +kernel⟩

theorem witness_RoundTrip :
    ∃ a, Bounds (load aab) ∧ (load aab).errCode = .ok ∧ (load aab).inLen ≠ 0 ∧ exec .encode (load aab) = .next a ∧
      a.errCode = .ok ∧ (accept 7 (complete a)).params = a.params ∧ (accept 7 (complete a)).code = a.code ∧
      (accept 7 (complete a)).tableValid = a.tableValid ∧ (accept 7 (complete a)).pbuf = a.pbuf ∧
      (accept 7 (complete a)).totalBits = a.totalBits ∧ (accept 7 (complete a)).resets = a.resets ∧
      (accept 7 (complete a)).errCode = .ok :=
  ⟨nextOf (exec .encode (load aab)), bounds_load_aab, by decide, by decide, rfl, by decide +kernel, rfl, rfl, rfl, rfl, rfl,
    rfl, rfl⟩

/-! The invariants. -/

theorem witness_StepKeepsBoundsAndMemory :
    Bounds treeAab ∧ Memory.wf treeAab = true ∧ ∃ t, step treeAab = .next t :=
  ⟨bounds_treeAab, by decide +kernel, _, rfl⟩

theorem witness_StepKeepsTheLifecycle : Lifecycle busyNop ∧ ∃ t, step busyNop = .next t :=
  ⟨⟨by decide, by decide, by decide⟩, _, rfl⟩

theorem witness_StepKeepsTheTree :
    Bounds treeAab ∧ FreqOk treeAab ∧ TreeOk treeAab ∧ ∃ t, step (treeAab.withFetchWord 32 3) = .next t :=
  ⟨bounds_treeAab, freqOk_treeAab, fun _ => treeShape_treeAab, _, rfl⟩

theorem witness_StepKeepsTheTablePrefixFree :
    Bounds treeAab ∧ FreqOk treeAab ∧ TreeOk treeAab ∧ TableOk treeAab ∧
      ∃ t, step (treeAab.withFetchWord 32 4) = .next t :=
  ⟨bounds_treeAab, freqOk_treeAab, fun _ => treeShape_treeAab, ⟨fun _ => rfl, nofun, nofun⟩, _, rfl⟩

end Sys2Proof.Tests
end

section
/-! The queues and the merge loop of BUILD: what a sort and a TAKE_MIN keep of the nodes they are given, and
the invariant of the merge loop from which the tree's shape follows (R111 to R121). -/

namespace Sys2Proof.Machine

/-! The sort permutes its sequence. -/

theorem swap_perm {v : List Nat} {i j : Nat} (hi : i < v.length) (hj : j < v.length) : (swap v i j).Perm v := by
  unfold swap
  rw [List.getD_eq_getElem _ _ hi, List.getD_eq_getElem _ _ hj]
  exact List.set_set_perm hi hj

/-- The scan of PARTITION permutes the sequence, and its store index never passes the scanning index (R112). -/
theorem scan_perm (weight : Nat → Word) {last i k : Nat} {v : List Nat} {store : Nat} (hk : i + k ≤ v.length)
    (hs : store ≤ i) :
    (scan weight last i k v store).1.Perm v ∧ (scan weight last i k v store).2 ≤ i + k := by
  induction k generalizing i v store with
  | zero => exact ⟨.refl _, hs⟩
  | succ k ih =>
    rw [scan]
    split
    · have hswap : (swap v i store).Perm v := swap_perm (by omega) (by omega)
      obtain ⟨hperm, hle⟩ := ih (i := i + 1) (v := swap v i store) (store := store + 1)
        (by rw [hswap.length_eq]; omega) (by omega)
      exact ⟨hperm.trans hswap, by omega⟩
    · obtain ⟨hperm, hle⟩ := ih (i := i + 1) (v := v) (store := store) (by omega) (by omega)
      exact ⟨hperm, by omega⟩

theorem partition_perm (weight : Nat → Word) {v : List Nat} (hv : v ≠ []) :
    (partition weight v).1.Perm v ∧ (partition weight v).2 < v.length := by
  have hpos : 0 < v.length := List.length_pos_of_ne_nil hv
  have hpark : (swap v (v.length / 2) (v.length - 1)).Perm v := swap_perm (by omega) (by omega)
  obtain ⟨hscan, hstore⟩ := scan_perm weight (last := v.length - 1) (i := 0) (k := v.length - 1)
    (v := swap v (v.length / 2) (v.length - 1)) (store := 0) (by rw [hpark.length_eq]; omega) le_rfl
  have hall := hscan.trans hpark
  unfold partition
  exact ⟨(swap_perm (by rw [hall.length_eq]; omega) (by rw [hall.length_eq]; omega)).trans hall,
    Nat.lt_of_le_of_lt hstore (by omega)⟩

/-- QSORT permutes its sequence, whatever bounds its recursion (R111). -/
theorem qsort_perm (weight : Nat → Word) (fuel : Nat) (v : List Nat) : (qsort weight fuel v).Perm v := by
  induction fuel generalizing v with
  | zero => exact .refl _
  | succ fuel ih =>
    rw [qsort]
    split
    · exact .refl _
    · rename_i hlen
      obtain ⟨hperm, hlt⟩ := partition_perm weight (v := v) (by rintro rfl; simp at hlen)
      have hp : (partition weight v).2 < (partition weight v).1.length := by rw [hperm.length_eq]; exact hlt
      have hjoin : (partition weight v).1.take (partition weight v).2 ++
          (partition weight v).1.getD (partition weight v).2 0 ::
            (partition weight v).1.drop ((partition weight v).2 + 1) = (partition weight v).1 := by
        rw [List.getD_eq_getElem _ _ hp, List.getElem_cons_drop, List.take_append_drop]
      refine List.Perm.trans ?_ (hjoin ▸ hperm)
      exact (ih _).append ((ih _).cons _)

theorem sortedLeaves_perm (s : State) (k : Nat) : (sortedLeaves s k).Perm (List.range k) := qsort_perm _ _ _

/-! What a merge does to the two queues. -/

/-- The nodes that still wait to be merged: those of LQ, then those of IQ. -/
def Forest.waiting (f : Forest) : List Nat := f.lq ++ f.iq

/-- TAKE_MIN takes one node out of the two queues (R113). -/
theorem takeMin_perm {weight : Nat → Word} {lq iq lq' iq' : List Nat} {n : Nat}
    (h : takeMin weight lq iq = some (n, lq', iq')) : (lq ++ iq).Perm (n :: (lq' ++ iq')) := by
  obtain ⟨rfl, rfl, -⟩ | ⟨rfl, rfl, -⟩ := takeMin_cases h
  · exact .refl _
  · exact List.perm_middle

/-- A merge that takes `a` and `b` out of the waiting nodes, leaves `rest`, and puts the node made of the two, NODE[M],
behind IQ (R115). -/
structure Merged (r : Nat) (f g : Forest) (a b : Nat) (rest : List Nat) : Prop where
  /-- The two taken nodes have been waiting. -/
  before : f.waiting.Perm (a :: b :: rest)
  /-- The new node waits instead of them. -/
  after : g.waiting.Perm (f.next :: rest)
  /-- It waits last in IQ. -/
  youngest : g.iq.getLast? = some f.next
  /-- M grows by 1. -/
  next : g.next = f.next + 1
  /-- The new node is written and no other. -/
  node : g.node = Store.put f.next (mergedNode (fun i => (arenaAt r f.node i).weight) a b) f.node

theorem merged_of_mergeOnce {r : Nat} {f g : Forest} (h : mergeOnce r f = some g) :
    ∃ a b rest, Merged r f g a b rest := by
  obtain ⟨a, b, lq₁, iq₁, lq₂, iq₂, h₁, h₂, rfl⟩ := mergeOnce_cases h
  refine ⟨a, b, lq₂ ++ iq₂, (takeMin_perm h₁).trans ((takeMin_perm h₂).cons a), ?_, by simp, rfl, rfl⟩
  simpa [Forest.waiting] using List.perm_append_singleton f.next (lq₂ ++ iq₂)

theorem mergeOnce_isSome {r : Nat} {f : Forest} (h : 2 ≤ f.waiting.length) : (mergeOnce r f).isSome = true := by
  simp only [Forest.waiting, List.length_append] at h
  obtain ⟨⟨a, lq₁, iq₁⟩, h₁⟩ := Option.isSome_iff_exists.1
    (takeMin_isSome (fun i => (arenaAt r f.node i).weight) f.lq f.iq (by omega))
  have hlen := (takeMin_perm h₁).length_eq
  simp only [List.length_append, List.length_cons] at hlen
  obtain ⟨⟨b, lq₂, iq₂⟩, h₂⟩ := Option.isSome_iff_exists.1
    (takeMin_isSome (fun i => (arenaAt r f.node i).weight) lq₁ iq₁ (by omega))
  simp [mergeOnce, h₁, h₂]

/-- What every merge keeps, the whole loop keeps (R115). -/
theorem mergeLoop_keeps {P : Forest → Prop} {r : Nat} (turn : ∀ f g, mergeOnce r f = some g → P f → P g) (fuel : Nat)
    {f : Forest} (h : P f) : P (mergeLoop r fuel f) := by
  induction fuel generalizing f with
  | zero => exact h
  | succ fuel ih =>
    rw [mergeLoop]
    split
    · split
      · exact h
      · rename_i g hg; exact ih (turn f g hg h)
    · exact h

/-- How far the merging of `k` leaves has come: NODE holds M nodes, every merge makes one of two, and the youngest node
waits last in IQ (R117, R119). -/
structure MergeCount (k : Nat) (f : Forest) : Prop where
  /-- Each merge makes one node and leaves one node fewer waiting. -/
  total : f.next + f.waiting.length = 2 * k
  /-- One node is always left. -/
  nonempty : 1 ≤ f.waiting.length
  /-- Before the first merge no node waits in IQ; afterwards the youngest is its last. -/
  youngest : k < f.next → f.iq.getLast? = some (f.next - 1)

theorem MergeCount.mergeOnce {r k : Nat} {f g : Forest} (hg : mergeOnce r f = some g) (hf : MergeCount k f) :
    MergeCount k g ∧ f.next + 2 ≤ 2 * k := by
  obtain ⟨a, b, rest, hm⟩ := merged_of_mergeOnce hg
  have hbefore := hm.before.length_eq
  have hafter := hm.after.length_eq
  have htotal := hf.total
  have hnext := hm.next
  simp only [List.length_cons] at hbefore hafter
  exact ⟨⟨by omega, by omega, fun _ => by rw [hm.youngest, hnext]; rfl⟩, by omega⟩

theorem mergeCount_start {s : State} {k : Nat} (hk : 1 ≤ k) :
    MergeCount k { node := s.node, lq := sortedLeaves s k, iq := [], next := k } := by
  have hlen : (sortedLeaves s k).length = k := by rw [(sortedLeaves_perm s k).length_eq, List.length_range]
  exact ⟨by simp [Forest.waiting, hlen]; omega, by simp [Forest.waiting, hlen]; omega, fun h => absurd h (lt_irrefl k)⟩

/-- The last node left waits in IQ (R117). -/
theorem MergeCount.last_waits {k : Nat} {f : Forest} (hf : MergeCount k f) (hk : 2 ≤ k) (hone : f.waiting.length = 1) :
    f.lq = [] ∧ f.iq.length = 1 := by
  have hiq : f.iq ≠ [] := by
    intro hnil
    have := hf.youngest (by have := hf.total; omega)
    simp [hnil] at this
  have := List.length_pos_of_ne_nil hiq
  simp only [Forest.waiting, List.length_append] at hone
  exact ⟨List.length_eq_zero_iff.1 (by omega), by omega⟩

/-- With as many turns as leaves, the loop ends with one node left, in IQ (R117). -/
theorem mergeLoop_ends {r k : Nat} (hk : 2 ≤ k) (fuel : Nat) {f : Forest} (hf : MergeCount k f)
    (hfuel : f.waiting.length ≤ fuel + 1) :
    (mergeLoop r fuel f).lq = [] ∧ (mergeLoop r fuel f).iq.length = 1 := by
  have hpos := hf.nonempty
  induction fuel generalizing f with
  | zero => exact hf.last_waits hk (by omega)
  | succ fuel ih =>
    rw [mergeLoop]
    split
    · rename_i hgo
      have htwo : 2 ≤ f.waiting.length := by
        by_contra hlt
        obtain ⟨hl, hi⟩ := hf.last_waits hk (by omega)
        rw [hl, hi] at hgo
        simp at hgo
      obtain ⟨g, hg⟩ := Option.isSome_iff_exists.1 (mergeOnce_isSome (r := r) htwo)
      obtain ⟨hcount, -⟩ := hf.mergeOnce hg
      obtain ⟨_, _, _, hm⟩ := merged_of_mergeOnce hg
      have hnext := hm.next
      have htotal := hf.total
      have htotal' := hcount.total
      rw [hg]
      exact ih hcount (by omega) hcount.nonempty
    · simp only [Forest.waiting, List.length_append] at hpos
      exact ⟨List.length_eq_zero_iff.1 (by omega), by omega⟩

/-! The tree the merges make. -/

/-- `i` is an internal node of the arena with child `c`. -/
def parentIn (nodes : Nat → Node) (c i : Nat) : Bool :=
  (nodes i).internal && (decide ((nodes i).left.toNat = c) || decide ((nodes i).right.toNat = c))

theorem isParent_eq (s : State) : isParent s = parentIn s.nodeAt := rfl

/-- NODE[i] is an internal node after its two distinct children, with the sum of their weights (R45, R50). -/
structure InnerNode (nodes : Nat → Node) (i : Nat) : Prop where
  /-- INTERNAL 1. -/
  internal : (nodes i).internal = true
  /-- SYM 0. -/
  sym : (nodes i).sym = 0
  /-- LEFT was made before it. -/
  left_lt : (nodes i).left.toNat < i
  /-- RIGHT was made before it. -/
  right_lt : (nodes i).right.toNat < i
  /-- The children are two nodes. -/
  distinct : (nodes i).left ≠ (nodes i).right
  /-- WEIGHT, with no overflow (R120). -/
  weight :
    (nodes i).weight.toNat = (nodes (nodes i).left.toNat).weight.toNat + (nodes (nodes i).right.toNat).weight.toNat

theorem InnerNode.congr {nodes nodes' : Nat → Node} {i : Nat} (h : InnerNode nodes i)
    (heq : ∀ j ≤ i, nodes' j = nodes j) : InnerNode nodes' i := by
  have hi := heq i le_rfl
  have hl := heq _ h.left_lt.le
  have hr := heq _ h.right_lt.le
  exact ⟨by rw [hi, h.internal], by rw [hi, h.sym], by rw [hi]; exact h.left_lt, by rw [hi]; exact h.right_lt,
    by rw [hi]; exact h.distinct, by rw [hi, hl, hr]; exact h.weight⟩

/-- The merge loop's invariant: `k` leaves in the arena `leaves` and `total` the sum of their weights, the merged nodes
after them, every node but the waiting ones owned once (R50, R115, R119, R120). -/
structure Growing (r k total : Nat) (leaves : Store Node) (f : Forest) : Prop where
  /-- How far the merging has come. -/
  count : MergeCount k f
  /-- No leaf is overwritten. -/
  started : k ≤ f.next
  /-- No node waits twice. -/
  nodup : f.waiting.Nodup
  /-- The waiting nodes have been made. -/
  below : ∀ i ∈ f.waiting, i < f.next
  /-- The waiting nodes carry all the weight. -/
  weights : (f.waiting.map fun i => (arenaAt r f.node i).weight.toNat).sum = total
  /-- The leaves and the free nodes are as they were. -/
  kept : ∀ i, i < k ∨ f.next ≤ i → Store.find f.node i = Store.find leaves i
  /-- The nodes made by a merge. -/
  inner : ∀ i, k ≤ i → i < f.next →
    Store.find f.node i = some (arenaAt r f.node i) ∧ InnerNode (arenaAt r f.node) i
  /-- A waiting node has no parent, every other node one. -/
  owned : ∀ c < f.next,
    ((List.range f.next).filter (parentIn (arenaAt r f.node) c)).length = if c ∈ f.waiting then 0 else 1

theorem arenaAt_put (r : Nat) (m : Store Node) (k i : Nat) (n : Node) :
    arenaAt r (Store.put k n m) i = if i = k then n else arenaAt r m i := by
  unfold arenaAt
  rw [Store.find_put]
  split <;> rfl

theorem arenaAt_congr {r : Nat} {m m' : Store Node} {i : Nat} (h : Store.find m i = Store.find m' i) :
    arenaAt r m i = arenaAt r m' i := by
  unfold arenaAt; rw [h]

/-- The node of a merge is an inner node, when its children come before it and their weights do not overflow
(R10, R116, R120). -/
theorem innerNode_mergedNode {nodes nodes' : Nat → Node} {a b m : Nat} (ha : a < m) (hb : b < m) (hab : a ≠ b)
    (hm : m < 512) (hw : (nodes a).weight.toNat + (nodes b).weight.toNat < 2 ^ 32)
    (hnew : nodes' m = mergedNode (fun i => (nodes i).weight) a b) (hold : ∀ j < m, nodes' j = nodes j) :
    InnerNode nodes' m ∧ (nodes' m).left.toNat = a ∧ (nodes' m).right.toNat = b := by
  have hl : (nodes' m).left.toNat = a := by rw [hnew]; simp [mergedNode]; omega
  have hr : (nodes' m).right.toNat = b := by rw [hnew]; simp [mergedNode]; omega
  have hsum : (nodes' m).weight.toNat = (nodes a).weight.toNat + (nodes b).weight.toNat := by
    rw [hnew]; simp only [mergedNode, BitVec.toNat_add]; omega
  refine ⟨⟨by rw [hnew]; rfl, by rw [hnew]; rfl, by omega, by omega, fun h => ?_, ?_⟩, hl, hr⟩
  · rw [h, hr] at hl; exact hab hl.symm
  · rw [hl, hr, hold a ha, hold b hb, hsum]

/-- Among nodes that come after their children, none before `m` has `m` as a child. -/
theorem parentIn_eq_false {nodes : Nat → Node} {k m : Nat} (hleaf : ∀ i < k, (nodes i).internal = false)
    (hinner : ∀ i, k ≤ i → i < m → InnerNode nodes i) : ∀ i < m, parentIn nodes m i = false := by
  intro i hi
  by_cases hk : i < k
  · simp [parentIn, hleaf i hk]
  · have h := hinner i (by omega) hi
    have := h.left_lt
    have := h.right_lt
    simp [parentIn, h.internal]
    omega

/-- How many parents a node has once a node over `a` and `b` is made at `m`. -/
theorem parents_succ {nodes nodes' : Nat → Node} {a b m : Nat} (hold : ∀ j < m, nodes' j = nodes j)
    (hnew : InnerNode nodes' m) (ha : (nodes' m).left.toNat = a) (hb : (nodes' m).right.toNat = b) (c : Nat) :
    ((List.range (m + 1)).filter (parentIn nodes' c)).length =
      ((List.range m).filter (parentIn nodes c)).length + if c = a ∨ c = b then 1 else 0 := by
  have hlow : (List.range m).filter (parentIn nodes' c) = (List.range m).filter (parentIn nodes c) :=
    List.filter_congr fun i hi => by simp only [parentIn, hold i (List.mem_range.1 hi)]
  have hm : parentIn nodes' c m = decide (c = a ∨ c = b) := by
    simp [parentIn, hnew.internal, ha, hb, eq_comm]
  rw [List.range_succ, List.filter_append, List.length_append, hlow, List.filter_singleton, hm]
  by_cases hc : c = a ∨ c = b <;> simp [hc]

/-! One turn of the merge loop keeps the invariant (R115, R116). -/

section
variable {r k total : Nat} {leaves : Store Node} {f g : Forest} {a b : Nat} {rest : List Nat}

theorem Merged.arenaAt_next (hm : Merged r f g a b rest) :
    arenaAt r g.node f.next = mergedNode (fun i => (arenaAt r f.node i).weight) a b := by
  rw [hm.node, arenaAt_put, if_pos rfl]

theorem Merged.arenaAt_ne (hm : Merged r f g a b rest) {j : Nat} (hj : j ≠ f.next) :
    arenaAt r g.node j = arenaAt r f.node j := by
  rw [hm.node, arenaAt_put, if_neg hj]

theorem Merged.mem_before (hm : Merged r f g a b rest) (i : Nat) : i ∈ f.waiting ↔ i = a ∨ i = b ∨ i ∈ rest := by
  rw [hm.before.mem_iff]; simp

theorem Merged.mem_after (hm : Merged r f g a b rest) (i : Nat) : i ∈ g.waiting ↔ i = f.next ∨ i ∈ rest := by
  rw [hm.after.mem_iff]; simp

/-- The taken nodes are two made nodes, and neither waits any longer. -/
theorem Growing.taken (hf : Growing r k total leaves f) (hm : Merged r f g a b rest) :
    a < f.next ∧ b < f.next ∧ a ≠ b ∧ a ∉ rest ∧ b ∉ rest := by
  have hnodup := hm.before.nodup_iff.1 hf.nodup
  simp only [List.nodup_cons, List.mem_cons, not_or] at hnodup
  obtain ⟨⟨hab, har⟩, hbr, -⟩ := hnodup
  exact ⟨hf.below a ((hm.mem_before a).2 (.inl rfl)), hf.below b ((hm.mem_before b).2 (.inr (.inl rfl))), hab, har, hbr⟩

theorem Growing.rest_lt (hf : Growing r k total leaves f) (hm : Merged r f g a b rest) : ∀ i ∈ rest, i < f.next :=
  fun i hi => hf.below i ((hm.mem_before i).2 (.inr (.inr hi)))

theorem Growing.weights_before (hf : Growing r k total leaves f) (hm : Merged r f g a b rest) :
    (arenaAt r f.node a).weight.toNat + ((arenaAt r f.node b).weight.toNat +
      (rest.map fun i => (arenaAt r f.node i).weight.toNat).sum) = total := by
  have hweights := hf.weights
  rwa [(hm.before.map _).sum_eq, List.map_cons, List.map_cons, List.sum_cons, List.sum_cons] at hweights

/-- The new node is an inner node over the taken ones: their weights are part of the total (R120). -/
theorem Growing.innerNode_next (hf : Growing r k total leaves f) (hm : Merged r f g a b rest) (hfit : f.next < 512)
    (htotal : total < 2 ^ 32) :
    InnerNode (arenaAt r g.node) f.next ∧ (arenaAt r g.node f.next).left.toNat = a ∧
      (arenaAt r g.node f.next).right.toNat = b := by
  obtain ⟨ha, hb, hab, -, -⟩ := hf.taken hm
  have hweights := hf.weights_before hm
  exact innerNode_mergedNode ha hb hab hfit (by omega) hm.arenaAt_next fun j hj => hm.arenaAt_ne hj.ne

theorem Growing.weights_after (hf : Growing r k total leaves f) (hm : Merged r f g a b rest) (hfit : f.next < 512)
    (htotal : total < 2 ^ 32) : (g.waiting.map fun i => (arenaAt r g.node i).weight.toNat).sum = total := by
  obtain ⟨ha, hb, -⟩ := hf.taken hm
  obtain ⟨hinner, hl, hr⟩ := hf.innerNode_next hm hfit htotal
  have hsame : rest.map (fun i => (arenaAt r g.node i).weight.toNat) =
      rest.map (fun i => (arenaAt r f.node i).weight.toNat) :=
    List.map_congr_left fun i hi => by rw [hm.arenaAt_ne (hf.rest_lt hm i hi).ne]
  have hweights := hf.weights_before hm
  rw [(hm.after.map _).sum_eq, List.map_cons, List.sum_cons, hsame, hinner.weight, hl, hr, hm.arenaAt_ne ha.ne,
    hm.arenaAt_ne hb.ne]
  omega

/-- The new node has no parent yet, the taken nodes have one, and no other node's parents change (R50). -/
theorem Growing.owned_after (hf : Growing r k total leaves f) (hm : Merged r f g a b rest) (hfit : f.next < 512)
    (htotal : total < 2 ^ 32) (hleaf : ∀ i < k, (arenaAt r leaves i).internal = false) :
    ∀ c < g.next,
      ((List.range g.next).filter (parentIn (arenaAt r g.node) c)).length = if c ∈ g.waiting then 0 else 1 := by
  intro c hc
  obtain ⟨ha, hb, -, har, hbr⟩ := hf.taken hm
  obtain ⟨hinner, hl, hr⟩ := hf.innerNode_next hm hfit htotal
  rw [hm.next] at hc ⊢
  rw [parents_succ (fun j hj => hm.arenaAt_ne hj.ne) hinner hl hr c]
  by_cases hcn : c = f.next
  · have hfresh := parentIn_eq_false (nodes := arenaAt r f.node) (k := k) (m := f.next)
      (fun i hi => by rw [arenaAt_congr (hf.kept i (.inl hi))]; exact hleaf i hi) fun i h1 h2 => (hf.inner i h1 h2).2
    have hnone : (List.range f.next).filter (parentIn (arenaAt r f.node) c) = [] := by
      rw [List.filter_eq_nil_iff]
      intro i hi
      rw [hcn, hfresh i (List.mem_range.1 hi)]
      exact Bool.false_ne_true
    rw [hnone, if_neg (by omega), if_pos ((hm.mem_after c).2 (.inl hcn))]; rfl
  · rw [hf.owned c (by omega)]
    by_cases hca : c = a ∨ c = b
    · have hcr : c ∉ rest := by rcases hca with rfl | rfl <;> assumption
      rw [if_pos ((hm.mem_before c).2 (by tauto)), if_pos hca, if_neg fun h => ((hm.mem_after c).1 h).elim hcn hcr]
    · have hiff : c ∈ f.waiting ↔ c ∈ g.waiting := by rw [hm.mem_before, hm.mem_after]; tauto
      simp only [hiff, if_neg hca, Nat.add_zero]

theorem Growing.mergeOnce (hf : Growing r k total leaves f) (hk : k ≤ 256) (htotal : total < 2 ^ 32)
    (hleaf : ∀ i < k, (arenaAt r leaves i).internal = false) (hg : mergeOnce r f = some g) :
    Growing r k total leaves g := by
  obtain ⟨a, b, rest, hm⟩ := merged_of_mergeOnce hg
  obtain ⟨hcount, hroom⟩ := hf.count.mergeOnce hg
  have hfit : f.next < 512 := by omega
  have hnext := hm.next
  have hstarted := hf.started
  have hrest := hf.rest_lt hm
  refine ⟨hcount, by omega, ?_, fun i hi => ?_, hf.weights_after hm hfit htotal, fun i hi => ?_, fun i hki hi => ?_,
    hf.owned_after hm hfit htotal hleaf⟩
  · have hnodup := hm.before.nodup_iff.1 hf.nodup
    rw [hm.after.nodup_iff, List.nodup_cons]
    exact ⟨fun h => absurd (hrest _ h) (lt_irrefl _), hnodup.of_cons.of_cons⟩
  · rcases (hm.mem_after i).1 hi with rfl | hi
    · omega
    · have := hrest i hi; omega
  · rw [hm.node, Store.find_put_ne _ _ (by omega), hf.kept i (by omega)]
  · by_cases hi' : i = f.next
    · subst hi'
      exact ⟨by rw [hm.arenaAt_next, hm.node, Store.find_put_same], (hf.innerNode_next hm hfit htotal).1⟩
    · obtain ⟨hfind, hin⟩ := hf.inner i hki (by omega)
      refine ⟨?_, hin.congr fun j hj => hm.arenaAt_ne (by omega)⟩
      rw [hm.arenaAt_ne hi', ← hfind, hm.node, Store.find_put_ne _ _ hi']

end

/-! The leaves BUILD starts from, and the tree it ends with. -/

/-- The counts of the present symbols are all the counts (R49, R114). -/
theorem sum_presentSymbols (m : Store Word) :
    ((presentSymbols m).map fun x => (countAt m x).toNat).sum = totalCount m := by
  have hpresent : (presentSymbols m).map (fun x => (countAt m x).toNat) =
      ((List.range Config.kMax).map fun x => (countAt m x).toNat).filter (· != 0) := by
    rw [presentSymbols, List.filter_map]
    refine congrArg _ (List.filter_congr fun x _ => ?_)
    rw [Bool.eq_iff_iff]
    simp [← BitVec.toNat_inj]
  rw [hpresent, List.sum_filter_bne_zero, totalCount]

theorem numSyms_le (s : State) : s.numSyms ≤ 256 :=
  (List.length_filter_le _ _).trans (by simp [Config.kMax])

/-- The leaf BUILD places at NODE[j], and the elements it does not write (R114, R115). -/
theorem find_buildLeaves (s : State) (i : Nat) :
    Store.find (buildLeaves s).node i =
      if i < s.numSyms then
        some (leaf (BitVec.ofNat 8 ((presentSymbols s.freq).getD i 0)) (s.freqAt ((presentSymbols s.freq).getD i 0)))
      else Store.find s.node i := by
  rw [buildLeaves_node, find_placeLeaves]
  simp only [Nat.zero_le, true_and, Nat.zero_add, Nat.sub_zero]
  rfl

theorem arenaAt_buildLeaves (s : State) (r : Nat) {i : Nat} (hi : i < s.numSyms) :
    arenaAt r (buildLeaves s).node i =
      leaf (BitVec.ofNat 8 ((presentSymbols s.freq).getD i 0)) (s.freqAt ((presentSymbols s.freq).getD i 0)) := by
  rw [arenaAt, find_buildLeaves, if_pos hi]; rfl

/-- The sum of the leaves' weights is the sum of the counts (R120). -/
theorem sum_leafWeights (s : State) (r : Nat) :
    ((List.range s.numSyms).map fun i => (arenaAt r (buildLeaves s).node i).weight.toNat).sum = totalCount s.freq := by
  rw [← sum_presentSymbols]
  refine congrArg List.sum (List.ext_getElem (by simp [State.numSyms]) fun i h₁ h₂ => ?_)
  have hi : i < s.numSyms := by simpa using h₁
  have hget : (presentSymbols s.freq).getD i 0 = (presentSymbols s.freq)[i]'hi := List.getD_eq_getElem _ _ hi
  rw [List.getElem_map, List.getElem_map, List.getElem_range, arenaAt_buildLeaves s r hi, hget]
  rfl

/-- The merge loop starts within its invariant (R115). -/
theorem growing_start (s : State) (hk : 1 ≤ s.numSyms) :
    Growing s.resets s.numSyms (totalCount s.freq) (buildLeaves s).node
      { node := (buildLeaves s).node, lq := sortedLeaves (buildLeaves s) s.numSyms, iq := [], next := s.numSyms } := by
  have hperm : (Forest.waiting
      { node := (buildLeaves s).node, lq := sortedLeaves (buildLeaves s) s.numSyms, iq := [], next := s.numSyms }).Perm
      (List.range s.numSyms) := by
    simpa [Forest.waiting] using sortedLeaves_perm (buildLeaves s) s.numSyms
  refine ⟨mergeCount_start hk, le_rfl, hperm.nodup_iff.2 List.nodup_range, fun i hi => ?_, ?_, fun i _ => rfl,
    fun i h1 h2 => absurd h2 (not_lt.2 h1), fun c hc => ?_⟩
  · exact List.mem_range.1 (hperm.mem_iff.1 hi)
  · rw [(hperm.map _).sum_eq]; exact sum_leafWeights s s.resets
  · rw [if_pos (hperm.mem_iff.2 (List.mem_range.2 hc)), List.length_eq_zero_iff, List.filter_eq_nil_iff]
    intro i hi
    rw [parentIn, arenaAt_buildLeaves s s.resets (List.mem_range.1 hi)]
    exact Bool.false_ne_true

/-- The forest BUILD ends with: the invariant holds of it, and ROOT alone waits, in IQ (R115, R117, R119). -/
theorem mergeAll_grown {s : State} (hk : 2 ≤ s.numSyms) (htotal : totalCount s.freq < 2 ^ 32) :
    ∃ f, mergeAll (buildLeaves s) s.numSyms = f ∧
      Growing s.resets s.numSyms (totalCount s.freq) (buildLeaves s).node f ∧
      f.lq = [] ∧ f.iq = [2 * s.numSyms - 2] ∧ f.next = 2 * s.numSyms - 1 := by
  refine ⟨_, rfl, ?_⟩
  have hleaf : ∀ i < s.numSyms, (arenaAt s.resets (buildLeaves s).node i).internal = false := fun i hi => by
    rw [arenaAt_buildLeaves s _ hi]; rfl
  have hstart := growing_start s (by omega)
  have hlen := hstart.count.total
  have hgrown : Growing s.resets s.numSyms (totalCount s.freq) (buildLeaves s).node
      (mergeAll (buildLeaves s) s.numSyms) :=
    mergeLoop_keeps (fun _ _ hg hf => hf.mergeOnce (numSyms_le s) htotal hleaf hg) s.numSyms hstart
  obtain ⟨hlq, hiq⟩ : (mergeAll (buildLeaves s) s.numSyms).lq = [] ∧
      (mergeAll (buildLeaves s) s.numSyms).iq.length = 1 :=
    mergeLoop_ends hk s.numSyms hstart.count (by simp only at hlen; omega)
  obtain ⟨x, hx⟩ := List.length_eq_one_iff.1 hiq
  have htot := hgrown.count.total
  have hyoung := hgrown.count.youngest
  simp only [Forest.waiting, hlq, hx, List.nil_append, List.length_singleton, List.getLast?_singleton,
    Option.some.injEq] at htot hyoung
  have hroot := hyoung (by omega)
  exact ⟨hgrown, hlq, by rw [hx, hroot]; congr 1; omega, by omega⟩

/-- A grown forest with one node left is the tree of the symbols (R50, R119). -/
theorem treeShape_mergedTree {s : State} (hk : 2 ≤ s.numSyms) (htotal : totalCount s.freq < 2 ^ 32) :
    TreeShape (mergedTree (buildLeaves s) (mergeAll (buildLeaves s) s.numSyms)) := by
  obtain ⟨f, hf, hgrown, hlq, hiq, hnext⟩ := mergeAll_grown hk htotal
  have hmax := numSyms_le s
  rw [hf]
  have hcount : (mergedTree (buildLeaves s) f).nodeCount.toNat = 2 * s.numSyms - 1 := by
    rw [mergedTree_nodeCount, hnext, BitVec.toNat_ofNat]; omega
  have hroot : (mergedTree (buildLeaves s) f).root.toNat = 2 * s.numSyms - 2 := by
    rw [mergedTree_root, hiq, List.headD_cons, BitVec.toNat_ofNat]; omega
  have hnum : (mergedTree (buildLeaves s) f).numSyms = s.numSyms := rfl
  have hnodes : (mergedTree (buildLeaves s) f).nodeAt = arenaAt s.resets f.node := rfl
  refine ⟨by rw [hcount, hnum]; omega, by rw [hcount, hroot]; omega, fun j hj => ?_, fun i hi hki => ?_,
    fun c hc hcr => ?_⟩
  · have := hgrown.kept j (.inl hj)
    rw [find_buildLeaves, if_pos (show j < s.numSyms from hj)] at this
    exact this
  · rw [hcount] at hi
    obtain ⟨hfind, hin⟩ := hgrown.inner i hki (by omega)
    exact ⟨hfind, hin.internal, hin.sym, hin.left_lt, hin.right_lt, hin.distinct, hin.weight⟩
  · rw [hcount] at hc
    rw [hroot] at hcr
    have howned := hgrown.owned c (by omega)
    rw [if_neg (by simp only [Forest.waiting, hlq, hiq, List.nil_append, List.mem_singleton]; exact hcr)] at howned
    rw [isParent_eq, hnodes, hcount, ← hnext]
    exact howned

/-- The tree of one symbol is its leaf (R118). -/
theorem treeShape_singleTree {s : State} (hk : s.numSyms = 1) : TreeShape (singleTree (buildLeaves s)) := by
  have hnum : (singleTree (buildLeaves s)).numSyms = 1 := hk
  refine ⟨by rw [hnum]; rfl, rfl, fun j hj => ?_, fun i hi hki => ?_, fun c hc hcr => ?_⟩
  · have := find_buildLeaves s j
    rw [if_pos (show j < s.numSyms from hj)] at this
    exact this
  · have : i < 1 := hi
    omega
  · have hc1 : c < 1 := hc
    have hc0 : c ≠ 0 := hcr
    omega

end Sys2Proof.Machine

open Sys2Proof Sys2Proof.Machine

/-- Settles O40: the merge loop keeps the invariant `Growing`, and ends with one node waiting. -/
theorem buildMakesTheTree : Obligations.BuildMakesTheTree := by
  intro s hfreq hk htotal
  obtain ⟨f, hf, hgrown, hlq, hiq, hnext⟩ := mergeAll_grown hk htotal
  have hmax := numSyms_le s
  have hshape := treeShape_mergedTree hk htotal
  have hrun : exec .build s = .next (mergedTree (buildLeaves s) f) := by
    obtain ⟨h, -⟩ | ⟨-, ⟨h, -⟩ | ⟨h, -⟩ | ⟨-, h⟩⟩ := runBuild_cases s
    · rw [hfreq] at h; exact Bool.noConfusion h
    · omega
    · omega
    · rw [hf] at h
      exact congrArg finish h
  rw [hf] at hshape
  have hroot : (mergedTree (buildLeaves s) f).root.toNat = 2 * s.numSyms - 2 := by
    rw [mergedTree_root, hiq, List.headD_cons, BitVec.toNat_ofNat]; omega
  have hcount : (mergedTree (buildLeaves s) f).nodeCount.toNat = 2 * s.numSyms - 1 := by
    have := hshape.root; omega
  refine ⟨_, hrun, ?_, hshape, ?_, ?_, fun i hi => ?_⟩
  · rw [hroot, ← hiq, ← hlq]; rfl
  · have hw := hgrown.weights
    simp only [Forest.waiting, hlq, hiq, List.nil_append, List.map_singleton, List.sum_singleton] at hw
    rw [hroot]; exact hw
  · rw [hroot]
    exact (hgrown.inner _ (by omega) (by omega)).2.internal
  · rw [hcount] at hi
    refine arenaAt_congr ?_
    have hkept := hgrown.kept i (.inr (by omega))
    rwa [find_buildLeaves, if_neg (by omega)] at hkept
end

section
/-! What every command leaves as it was, and which errors it can end with: the loops once, then a frame for each command
(R17, R173, R175, R176). -/

namespace Sys2Proof.Machine

/-! What a command comes to. -/

/-- What CLEAR discards (R161). -/
def discardAll (s : State) : State :=
  { s with
    freq := [], code := [], nodeCount := 0, root := 0, totalBits := 0, outLen := 0
    freqValid := false, treeValid := false, tableValid := false }

/-- The pseudocode of each command (R85). -/
def pseudocode : Instr → State → Progress
  | .nop, s => .running s
  | .clear, s => .running (discardAll s)
  | .count, s => runCount s
  | .build, s => runBuild s
  | .gencode, s => runGencode s
  | .pack, s => runPack s
  | .encode, s => runEncode s
  | .decode, s => runDecode s
  | .append len, s => appendBits s.appValue len.toNat 0 s
  | .pbclr, s => .running (emptyBuffer s)

theorem exec_eq (i : Instr) (s : State) : exec i s = .next (pseudocode i s).state := by
  cases i <;> rfl

/-- A command's next state is what its pseudocode comes to (R170). -/
theorem eq_of_exec {i : Instr} {s t : State} (h : exec i s = .next t) : t = (pseudocode i s).state := by
  rw [exec_eq] at h
  exact (Host.Outcome.next.inj h).symm

/-! Sequences and loops keep what their parts keep. -/

theorem andThen_keeps {P : State → Prop} {p : Progress} {f : State → Progress} (hp : P p.state)
    (hf : ∀ s, P s → P (f s).state) : P (p.andThen f).state := by
  cases p with
  | running s => exact hf s hp
  | ended s => exact hp

theorem packLoop_keeps {P : State → Prop} (turn : ∀ i s, P s → P (packSymbol i s).state) (i k : Nat) {s : State}
    (h : P s) : P (packLoop i k s).state := by
  induction k generalizing i s with
  | zero => exact h
  | succ k ih => exact andThen_keeps (turn i s h) fun _ hu => ih (i + 1) hu

theorem decodeLoop_keeps {P : State → Prop} (turn : ∀ p s, P s → P (decodeBit p s).state) (p k : Nat) {s : State}
    (h : P s) : P (decodeLoop p k s).state := by
  induction k generalizing p s with
  | zero => exact h
  | succ k ih => exact andThen_keeps (turn p s h) fun _ hu => ih (p + 1) hu

/-- What PACK keeps: by its precondition error, by the empty buffer and by each turn (R144). -/
theorem runPack_keeps {P : State → Prop} {s : State} (hraise : P (raise .noTable 0 s).state) (hstart : P (emptyBuffer s))
    (turn : ∀ i u, P u → P (packSymbol i u).state) : P (runPack s).state := by
  unfold runPack
  split
  · exact packLoop_keeps turn 0 _ hstart
  · exact hraise

/-- What DECODE keeps: by its precondition error, by its first statements, by each turn and by its end (R150). -/
theorem runDecode_keeps {P : State → Prop} {s : State} (hraise : P (raise .noTable 0 s).state)
    (hstart : P (startDecode s)) (turn : ∀ p u, P u → P (decodeBit p u).state)
    (hend : ∀ u, P u → P (raise .corruptBuffer u.totalBits u).state) : P (runDecode s).state := by
  unfold runDecode
  split
  · refine andThen_keeps (decodeLoop_keeps turn 0 _ hstart) fun u hu => ?_
    unfold decodeEnd
    split
    · exact hu
    · exact hend u hu
  · exact hraise

/-- What the four stages keep, ENCODE keeps (R145). -/
theorem runEncode_keeps {P : State → Prop} (hraise : ∀ s, P s → P (raise .invalidInput 0 s).state)
    (hcount : ∀ s, P s → P (runCount s).state) (hbuild : ∀ s, P s → P (runBuild s).state)
    (hgencode : ∀ s, P s → P (runGencode s).state) (hpack : ∀ s, P s → P (runPack s).state) {s : State} (h : P s) :
    P (runEncode s).state := by
  unfold runEncode
  split
  · exact hraise s h
  · exact andThen_keeps (andThen_keeps (andThen_keeps (hcount s h) hbuild) hgencode) hpack

/-! The frame of each command. -/

/-- Only PBUF, TOTAL_BITS and the error differ. -/
def PackFrame (s t : State) : Prop :=
  t = { s with pbuf := t.pbuf, totalBits := t.totalBits, errCode := t.errCode, errInfo := t.errInfo }

/-- Only OUT_MEM, OUT_LEN, the candidate and the error differ. -/
def DecodeFrame (s t : State) : Prop :=
  t = { s with outMem := t.outMem, outLen := t.outLen, cand := t.cand, errCode := t.errCode, errInfo := t.errInfo }

/-- Only the tree, BUILD's queues and the error differ. -/
def BuildFrame (s t : State) : Prop :=
  t = { s with treeValid := t.treeValid, node := t.node, nodeCount := t.nodeCount, root := t.root, lq := t.lq,
               iq := t.iq, errCode := t.errCode, errInfo := t.errInfo }

/-- Only the table, GENCODE's stack and the error differ. -/
def GencodeFrame (s t : State) : Prop :=
  t = { s with code := t.code, tableValid := t.tableValid, stack := t.stack, errCode := t.errCode, errInfo := t.errInfo }

/-- What holds whatever PACK may have written holds after it. -/
theorem PackFrame.elim {P : State → Prop} {s t : State} (h : PackFrame s t)
    (hall : ∀ pbuf bits code info, P { s with pbuf := pbuf, totalBits := bits, errCode := code, errInfo := info }) :
    P t := by
  unfold PackFrame at h; rw [h]; exact hall _ _ _ _

/-- What holds whatever DECODE may have written holds after it. -/
theorem DecodeFrame.elim {P : State → Prop} {s t : State} (h : DecodeFrame s t)
    (hall : ∀ mem len cand code info,
      P { s with outMem := mem, outLen := len, cand := cand, errCode := code, errInfo := info }) : P t := by
  unfold DecodeFrame at h; rw [h]; exact hall _ _ _ _ _

/-- What holds whatever BUILD may have written holds after it. -/
theorem BuildFrame.elim {P : State → Prop} {s t : State} (h : BuildFrame s t)
    (hall : ∀ valid node count root lq iq code info,
      P { s with treeValid := valid, node := node, nodeCount := count, root := root, lq := lq, iq := iq, errCode := code
                 errInfo := info }) : P t := by
  unfold BuildFrame at h; rw [h]; exact hall _ _ _ _ _ _ _ _

/-- What holds whatever GENCODE may have written holds after it. -/
theorem GencodeFrame.elim {P : State → Prop} {s t : State} (h : GencodeFrame s t)
    (hall : ∀ table valid stack code info,
      P { s with code := table, tableValid := valid, stack := stack, errCode := code, errInfo := info }) : P t := by
  unfold GencodeFrame at h; rw [h]; exact hall _ _ _ _ _

theorem PackFrame.trans {s t u : State} (h₁ : PackFrame s t) (h₂ : PackFrame t u) : PackFrame s u := by
  unfold PackFrame at *; rw [h₂, h₁]

theorem DecodeFrame.trans {s t u : State} (h₁ : DecodeFrame s t) (h₂ : DecodeFrame t u) : DecodeFrame s u := by
  unfold DecodeFrame at *; rw [h₂, h₁]

theorem appendBits_frame (v : Dword) (n : Nat) (info : Word) (s : State) :
    PackFrame s (appendBits v n info s).state := by
  obtain ⟨-, h⟩ | ⟨-, -, h⟩ | ⟨-, -, h⟩ := appendBits_cases v n info s <;> rw [h]
  · rfl
  · rfl
  · rw [PackFrame, state_running, appendLoop_frame]

theorem packSymbol_frame (i : Nat) (s : State) : PackFrame s (packSymbol i s).state := by
  obtain ⟨-, h⟩ | ⟨w, -, h⟩ := packSymbol_cases i s <;> rw [h]
  · rfl
  · exact appendBits_frame _ _ _ s

theorem runPack_frame (s : State) : PackFrame s (runPack s).state :=
  runPack_keeps (P := PackFrame s) rfl rfl fun i u hu => hu.trans (packSymbol_frame i u)

theorem decodeBit_frame (p : Nat) (s : State) : DecodeFrame s (decodeBit p s).state := by
  obtain ⟨-, h⟩ | ⟨-, ⟨-, h⟩ | ⟨x, -, ⟨-, h⟩ | ⟨-, h⟩⟩⟩ := decodeBit_cases p s <;> rw [h] <;> rfl

theorem runDecode_frame (s : State) : DecodeFrame s (runDecode s).state :=
  runDecode_keeps (P := DecodeFrame s) rfl rfl (fun p u hu => hu.trans (decodeBit_frame p u)) fun _ hu => hu.trans rfl

theorem runBuild_frame (s : State) : BuildFrame s (runBuild s).state := by
  obtain ⟨-, h⟩ | ⟨-, ⟨-, h⟩ | ⟨-, h⟩ | ⟨-, h⟩⟩ := runBuild_cases s <;> rw [h] <;> rfl

theorem runGencode_frame (s : State) : GencodeFrame s (runGencode s).state := by
  obtain ⟨-, h⟩ | ⟨-, ⟨-, h⟩ | ⟨-, ⟨n, stack, -, h⟩ | ⟨table, -, h⟩⟩⟩ := runGencode_cases s <;> rw [h] <;> rfl

/-! The errors of each command. -/

/-- The error registers stay as they were, or one of `errors` has been raised. -/
def ErrorsIn (errors : List ErrCode) (s t : State) : Prop :=
  (t.errCode = s.errCode ∧ t.errInfo = s.errInfo) ∨ t.errCode ∈ errors

theorem ErrorsIn.of_eq {errors : List ErrCode} {s t : State} (hcode : t.errCode = s.errCode)
    (hinfo : t.errInfo = s.errInfo) : ErrorsIn errors s t := .inl ⟨hcode, hinfo⟩

theorem ErrorsIn.raise {errors : List ErrCode} {e : ErrCode} (he : e ∈ errors) (info : Word) (s u : State) :
    ErrorsIn errors s (raise e info u).state := .inr he

theorem ErrorsIn.trans {errors : List ErrCode} {s t u : State} (h₁ : ErrorsIn errors s t) (h₂ : ErrorsIn errors t u) :
    ErrorsIn errors s u := by
  obtain ⟨hcode, hinfo⟩ | he := h₂
  · unfold ErrorsIn; rw [hcode, hinfo]; exact h₁
  · exact .inr he

theorem ErrorsIn.mono {errors errors' : List ErrCode} (hsub : errors ⊆ errors') {s t : State} (h : ErrorsIn errors s t) :
    ErrorsIn errors' s t := h.imp_right fun he => hsub he

theorem appendBits_errors (v : Dword) (n : Nat) (info : Word) (s : State) :
    ErrorsIn [.pbufOverflow] s (appendBits v n info s).state := by
  obtain ⟨-, h⟩ | ⟨-, -, h⟩ | ⟨-, -, h⟩ := appendBits_cases v n info s <;> rw [h]
  · exact .of_eq rfl rfl
  · exact .raise (by decide) _ _ _
  · exact .of_eq (by rw [state_running, appendLoop_frame]) (by rw [state_running, appendLoop_frame])

theorem packSymbol_errors (i : Nat) (s : State) : ErrorsIn (errorsOf .pack) s (packSymbol i s).state := by
  obtain ⟨-, h⟩ | ⟨w, -, h⟩ := packSymbol_cases i s <;> rw [h]
  · exact .raise (by decide) _ _ _
  · exact (appendBits_errors _ _ _ s).mono (by decide)

theorem runPack_errors (s : State) : ErrorsIn (errorsOf .pack) s (runPack s).state :=
  runPack_keeps (.raise (by decide) _ _ _) (.of_eq rfl rfl) fun i u hu => hu.trans (packSymbol_errors i u)

theorem decodeBit_errors (p : Nat) (s : State) : ErrorsIn (errorsOf .decode) s (decodeBit p s).state := by
  obtain ⟨-, h⟩ | ⟨-, ⟨-, h⟩ | ⟨x, -, ⟨-, h⟩ | ⟨-, h⟩⟩⟩ := decodeBit_cases p s <;> rw [h]
  · exact .raise (by decide) _ _ _
  · exact .of_eq rfl rfl
  · exact .raise (by decide) _ _ _
  · exact .of_eq rfl rfl

theorem runDecode_errors (s : State) : ErrorsIn (errorsOf .decode) s (runDecode s).state :=
  runDecode_keeps (.raise (by decide) _ _ _) (.of_eq rfl rfl) (fun p u hu => hu.trans (decodeBit_errors p u))
    fun _ _ => .raise (by decide) _ _ _

theorem runBuild_errors (s : State) : ErrorsIn (errorsOf .build) s (runBuild s).state := by
  obtain ⟨-, h⟩ | ⟨-, ⟨-, h⟩ | ⟨-, h⟩ | ⟨-, h⟩⟩ := runBuild_cases s <;> rw [h]
  · exact .raise (by decide) _ _ _
  · exact .raise (by decide) _ _ _
  · exact .of_eq rfl rfl
  · exact .of_eq rfl rfl

theorem runGencode_errors (s : State) : ErrorsIn (errorsOf .gencode) s (runGencode s).state := by
  obtain ⟨-, h⟩ | ⟨-, ⟨-, h⟩ | ⟨-, ⟨n, stack, -, h⟩ | ⟨table, -, h⟩⟩⟩ := runGencode_cases s <;> rw [h]
  · exact .raise (by decide) _ _ _
  · exact .of_eq rfl rfl
  · exact .raise (by decide) _ _ _
  · exact .of_eq rfl rfl

theorem runEncode_errors (s : State) : ErrorsIn (errorsOf .encode) s (runEncode s).state :=
  runEncode_keeps (P := ErrorsIn (errorsOf .encode) s) (fun _ _ => .raise (by decide) _ _ _)
    (fun _ hu => hu.trans (.of_eq rfl rfl)) (fun u hu => hu.trans ((runBuild_errors u).mono (by decide)))
    (fun u hu => hu.trans ((runGencode_errors u).mono (by decide)))
    (fun u hu => hu.trans ((runPack_errors u).mono (by decide))) (.of_eq rfl rfl)

/-- A command leaves the error registers as they were or raises one of its errors (R173). -/
theorem exec_errors {i : Instr} {s t : State} (h : exec i s = .next t) : ErrorsIn (errorsOf i) s t := by
  rw [eq_of_exec h]
  cases i with
  | nop => exact .of_eq rfl rfl
  | clear => exact .of_eq rfl rfl
  | count => exact .of_eq rfl rfl
  | build => exact runBuild_errors s
  | gencode => exact runGencode_errors s
  | pack => exact runPack_errors s
  | encode => exact runEncode_errors s
  | decode => exact runDecode_errors s
  | append len => exact appendBits_errors _ _ _ s
  | pbclr => exact .of_eq rfl rfl

end Sys2Proof.Machine
end

section
/-! The state no command writes, and the lifecycle: what a step keeps, command by command and event by event
(R13, R28 to R43, R87 to R89). -/

namespace Sys2Proof.Machine

/-! The host's own state. -/

/-- The parameters, the host's registers and memory, the lifecycle's bits and the model's own fields. -/
def hostPart (s : State) :=
  (s.params, s.irqEn, s.done, s.overrun, s.inLen, s.appLo, s.appHi, s.symMem, s.pending, s.inputs, s.replies, s.resets,
    s.draws)

theorem PackFrame.hostPart {s t : State} (h : PackFrame s t) : hostPart t = hostPart s :=
  h.elim (P := fun t => Machine.hostPart t = Machine.hostPart s) fun _ _ _ _ => rfl

theorem DecodeFrame.hostPart {s t : State} (h : DecodeFrame s t) : hostPart t = hostPart s :=
  h.elim (P := fun t => Machine.hostPart t = Machine.hostPart s) fun _ _ _ _ _ => rfl

theorem BuildFrame.hostPart {s t : State} (h : BuildFrame s t) : hostPart t = hostPart s :=
  h.elim (P := fun t => Machine.hostPart t = Machine.hostPart s) fun _ _ _ _ _ _ _ _ => rfl

theorem GencodeFrame.hostPart {s t : State} (h : GencodeFrame s t) : hostPart t = hostPart s :=
  h.elim (P := fun t => Machine.hostPart t = Machine.hostPart s) fun _ _ _ _ _ => rfl

theorem runEncode_hostPart (s : State) : hostPart (runEncode s).state = hostPart s :=
  runEncode_keeps (P := fun t => hostPart t = hostPart s) (fun _ hu => hu) (fun _ hu => hu)
    (fun u hu => (runBuild_frame u).hostPart.trans hu) (fun u hu => (runGencode_frame u).hostPart.trans hu)
    (fun u hu => (runPack_frame u).hostPart.trans hu) rfl

theorem exec_hostPart {i : Instr} {s t : State} (h : exec i s = .next t) : hostPart t = hostPart s := by
  rw [eq_of_exec h]
  cases i with
  | nop => rfl
  | clear => rfl
  | count => rfl
  | build => exact (runBuild_frame s).hostPart
  | gencode => exact (runGencode_frame s).hostPart
  | pack => exact (runPack_frame s).hostPart
  | encode => exact runEncode_hostPart s
  | decode => exact (runDecode_frame s).hostPart
  | append len => exact (appendBits_frame _ _ _ s).hostPart
  | pbclr => rfl

/-! A step, event by event. -/

/-- An invariant of the step: kept by each kind of event, and by a performed command with its completion (R13, R88). -/
theorem step_keeps {P : State → Prop} (hqueue : ∀ s rest, P s → P { s with inputs := rest })
    (hread : ∀ a s, P s → P (hostRead a s)) (hwrite : ∀ a v s, P s → P (hostWrite a v s))
    (hreset : ∀ s, P s → P (applyReset s))
    (hillegal : ∀ c s, P s → P (complete { s with errCode := .illegalCmd, errInfo := c }))
    (hexec : ∀ i s t, s.busy = true → exec i s = .next t → P s → P (complete t)) {s t : State} (hs : P s)
    (h : step s = .next t) : P t := by
  have hengine : ∀ u, P u → engineStep u = .next t → P t := by
    intro u hu h
    obtain ⟨-, rfl⟩ | ⟨c, e, -, -, rfl⟩ | ⟨c, i, w, hp, -, hw, rfl⟩ := engineStep_cases h
    · exact hu
    · exact hillegal c u hu
    · exact hexec i u w (by rw [State.busy, hp]; rfl) hw hu
  obtain ⟨a, rest, -, rfl⟩ | ⟨a, v, rest, -, rfl⟩ | ⟨rest, -, rfl⟩ | ⟨u, hu, ⟨-, rfl⟩ | ⟨rest, -, rfl⟩⟩ := step_cases h
  · exact hread a _ (hqueue s rest hs)
  · exact hwrite a v _ (hqueue s rest hs)
  · exact hreset _ (hqueue s rest hs)
  · exact hengine u hs hu
  · exact hengine _ (hqueue s rest hs) hu

/-- A read changes the model's own fields only (R70). -/
theorem hostRead_frame (a : Addr) (s : State) :
    hostRead a s = { s with replies := (hostRead a s).replies, draws := (hostRead a s).draws } := by
  obtain ⟨-, h⟩ | ⟨-, -, h⟩ | ⟨k, -, -, -, h⟩ := hostRead_cases a s <;> rw [h] <;> rfl

/-- What a host write can do: clear or set bits of CTRL and STATUS, or, while BUSY = 0, what its location stores. -/
theorem hostWrite_keeps {P : State → Prop} (hctrl : ∀ v s, P s → P (writeCtrl v s))
    (hstatus : ∀ v s, P s → P (writeStatus v s)) (hdrop : ∀ s, P s → P (dropWrite s))
    (hstore : ∀ v s l, s.busy = false → P s → P (storeLoc v s l)) (a : Addr) (v : Word) (s : State) (h : P s) :
    P (hostWrite a v s) := by
  obtain ⟨-, e⟩ | ⟨-, e⟩ | ⟨-, -, e⟩ | ⟨-, hb, e⟩ | ⟨-, e⟩ := hostWrite_cases a v s <;> rw [e]
  · exact hctrl v s h
  · exact hstatus v s h
  · exact hdrop s h
  · exact hstore v s _ hb h
  · exact h

/-- Only what the host may write differs, with the lifecycle of an issued command. -/
def WriteFrame (s t : State) : Prop :=
  t = { s with irqEn := t.irqEn, done := t.done, overrun := t.overrun, pending := t.pending, errCode := t.errCode,
               errInfo := t.errInfo, inLen := t.inLen, totalBits := t.totalBits, appLo := t.appLo, appHi := t.appHi,
               symMem := t.symMem, pbuf := t.pbuf }

/-- What holds whatever the host may have written holds after it. -/
theorem WriteFrame.elim {P : State → Prop} {s t : State} (h : WriteFrame s t)
    (hall : ∀ irqEn done overrun pending code info len bits lo hi symMem pbuf,
      P { s with irqEn := irqEn, done := done, overrun := overrun, pending := pending, errCode := code, errInfo := info
                 inLen := len, totalBits := bits, appLo := lo, appHi := hi, symMem := symMem, pbuf := pbuf }) : P t := by
  unfold WriteFrame at h; rw [h]; exact hall _ _ _ _ _ _ _ _ _ _ _ _

theorem storeLoc_frame (v : Word) (s : State) (l : Loc) : WriteFrame s (storeLoc v s l) := by
  cases l <;> rfl

/-- No host write reaches what the commands have made (R63, R67). -/
theorem hostWrite_frame (a : Addr) (v : Word) (s : State) : WriteFrame s (hostWrite a v s) := by
  obtain ⟨-, e⟩ | ⟨-, e⟩ | ⟨-, -, e⟩ | ⟨-, -, e⟩ | ⟨-, e⟩ := hostWrite_cases a v s <;> rw [e]
  · rfl
  · rfl
  · rfl
  · exact storeLoc_frame v s _
  · rfl

/-! The lifecycle. -/

theorem lifecycle_congr {s t : State} (h : Lifecycle s) (hpending : t.pending = s.pending)
    (hdone : t.done = true → s.done = true) (hcode : t.errCode = s.errCode) (hinfo : t.errInfo = s.errInfo) :
    Lifecycle t := by
  have hbusy : t.busy = s.busy := by rw [State.busy, hpending]; rfl
  refine ⟨fun hb => ?_, fun hb => ?_, fun he => ?_⟩
  · have hnot := h.notDone (hbusy ▸ hb)
    exact Bool.eq_false_iff.2 fun hd => absurd (hdone hd) (Bool.eq_false_iff.1 hnot)
  · rw [hcode, h.noError (hbusy ▸ hb)]
  · rw [hinfo, h.infoZero (hcode ▸ he)]

/-- A block with nothing pending is within the lifecycle once ERR_INFO is (R32). -/
theorem lifecycle_of_idle {s : State} (hidle : s.pending = none) (hinfo : s.errCode = .ok → s.errInfo = 0) :
    Lifecycle s := by
  have hb : s.busy ≠ true := by rw [State.busy, hidle]; exact Bool.false_ne_true
  exact ⟨fun h => absurd h hb, fun h => absurd h hb, hinfo⟩

theorem ok_notMem_errorsOf (i : Instr) : ErrCode.ok ∉ errorsOf i := by
  cases i <;> simp [errorsOf]

theorem lifecycle_hostWrite (a : Addr) (v : Word) (s : State) (h : Lifecycle s) : Lifecycle (hostWrite a v s) := by
  refine hostWrite_keeps (P := Lifecycle) (fun v s h => lifecycle_congr h rfl id rfl rfl)
    (fun v s h => lifecycle_congr h rfl (fun hd => ?_) rfl rfl) (fun s h => lifecycle_congr h rfl id rfl rfl)
    (fun v s l _ h => ?_) a v s h
  · rw [writeStatus_done, Bool.and_eq_true] at hd
    exact hd.1
  · cases l with
    | cmd => exact ⟨fun _ => rfl, fun _ => rfl, fun _ => rfl⟩
    | _ => exact lifecycle_congr h rfl id rfl rfl

/-- A command completes with ERR_INFO 0 unless it raised an error (R32, R89). -/
theorem lifecycle_exec {i : Instr} {s t : State} (hbusy : s.busy = true) (h : exec i s = .next t) (hs : Lifecycle s) :
    Lifecycle (complete t) := by
  refine lifecycle_of_idle rfl fun hok => ?_
  rw [complete_errCode] at hok
  obtain ⟨-, hinfo⟩ | he := exec_errors h
  · rw [complete_errInfo, hinfo, hs.infoZero (hs.noError hbusy)]
  · rw [hok] at he; exact absurd he (ok_notMem_errorsOf i)

end Sys2Proof.Machine

open Sys2Proof Sys2Proof.Machine

/-- Settles O26: every command keeps the host's part of the state. -/
theorem commandsKeepTheHostsState : Obligations.CommandsKeepTheHostsState := by
  intro i s t h
  simpa only [hostPart, Prod.mk.injEq] using exec_hostPart h

/-- Settles O58: each event keeps the lifecycle. -/
theorem stepKeepsTheLifecycle : Obligations.StepKeepsTheLifecycle := by
  intro s t hs h
  refine step_keeps (P := Lifecycle) (fun s rest h => lifecycle_congr h rfl id rfl rfl) (fun a s h => ?_)
    lifecycle_hostWrite (fun s _ => lifecycle_of_idle rfl fun _ => rfl)
    (fun c s _ => lifecycle_of_idle rfl fun he => ErrCode.noConfusion he)
    (fun i s t hb h hs => lifecycle_exec hb h hs) hs h
  rw [hostRead_frame]
  exact lifecycle_congr h rfl id rfl rfl
end

section
/-! The Frequency Map of a symbol sequence (R44, R49, R100). -/

namespace Sys2Proof.Machine

/-- The count of a symbol is how often it occurs, as long as a word can hold it (R11, R100). -/
theorem countAt_foldl (xs : List Byte) (m : Store Word) (y : Nat) (h : (countAt m y).toNat + xs.length < 2 ^ 32) :
    (countAt (xs.foldl countSymbol m) y).toNat = (countAt m y).toNat + (xs.map BitVec.toNat).count y := by
  induction xs generalizing m with
  | nil => simp
  | cons x xs ih =>
    rw [List.length_cons] at h
    have hx : (countAt (countSymbol m x) y).toNat = (countAt m y).toNat + if x.toNat = y then 1 else 0 := by
      rw [countAt_countSymbol]
      by_cases hy : y = x.toNat
      · subst hy
        rw [if_pos rfl, if_pos rfl, BitVec.toNat_add, show (1 : Word).toNat = 1 from rfl]
        omega
      · rw [if_neg hy, if_neg (Ne.symm hy), Nat.add_zero]
    have hle : (if x.toNat = y then 1 else 0) ≤ 1 := by split <;> simp
    rw [List.foldl_cons, ih _ (by omega), hx, List.map_cons, List.count_cons]
    simp only [beq_iff_eq]
    omega

theorem countAt_frequencies {xs : List Byte} (h : xs.length < 2 ^ 32) (y : Nat) :
    (countAt (frequencies xs) y).toNat = (xs.map BitVec.toNat).count y := by
  rw [frequencies, countAt_foldl xs [] y (by simpa [countAt] using h)]
  simp [countAt]

theorem sum_count_range {l : List Nat} {n : Nat} (h : ∀ a ∈ l, a < n) :
    ((List.range n).map fun x => l.count x).sum = l.length := by
  rw [← List.sum_toFinset _ List.nodup_range, List.toFinset_range, ← Multiset.coe_card,
    ← Multiset.sum_count_eq_card fun a ha => Finset.mem_range.2 (h a ha)]
  simp only [Multiset.coe_count]

/-- The counts of a sequence sum to its length (R49). -/
theorem totalCount_frequencies {xs : List Byte} (h : xs.length < 2 ^ 32) : totalCount (frequencies xs) = xs.length := by
  have hall : ∀ a ∈ xs.map BitVec.toNat, a < Config.kMax := by
    intro a ha
    obtain ⟨x, -, rfl⟩ := List.mem_map.1 ha
    exact x.isLt
  simp only [totalCount, countAt_frequencies h]
  rw [sum_count_range hall, List.length_map]

theorem length_inputSymbols (s : State) : s.inputSymbols.length = s.inLen.toNat := by
  simp [State.inputSymbols]

theorem length_inputSymbols_lt (s : State) : s.inputSymbols.length < 2 ^ 32 := by
  rw [length_inputSymbols]; exact s.inLen.isLt

/-- The counts COUNT leaves sum to IN_LEN (R49). -/
theorem totalCount_runCount (s : State) : totalCount (runCount s).state.freq = s.inLen.toNat := by
  rw [← length_inputSymbols]; exact totalCount_frequencies (length_inputSymbols_lt s)

/-- A symbol has a count after COUNT exactly when it occurs in the input (R49). -/
theorem one_le_freqAt_runCount (s : State) (x : Nat) :
    1 ≤ ((runCount s).state.freqAt x).toNat ↔ ∃ i < s.inLen.toNat, (s.symAt i).toNat = x := by
  have hcount : ((runCount s).state.freqAt x).toNat = (s.inputSymbols.map BitVec.toNat).count x :=
    countAt_frequencies (length_inputSymbols_lt s) x
  rw [hcount]
  exact List.count_pos_iff.trans (by simp [State.inputSymbols])

end Sys2Proof.Machine

open Sys2Proof Sys2Proof.Machine

/-- Settles O33: the counts are those of the input sequence. -/
theorem countsSumToInputLength : Obligations.CountsSumToInputLength := by
  intro s t h
  rw [show t = (runCount s).state from eq_of_exec h]
  exact ⟨totalCount_runCount s, fun x _ => one_le_freqAt_runCount s x⟩
end

section
/-! The code table: every recorded code word is the path to a leaf of its symbol, so that no code word begins
another (R51, R130, R131). -/

namespace Sys2Proof.Machine

/-! Paths. -/

theorem follow_succ_internal {nodes : Nat → Node} {n : Nat} (h : (nodes n).internal = true) (v : Dword) (j k : Nat) :
    follow nodes v j (k + 1) n =
      follow nodes v (j + 1) k (if v.getLsbD j then (nodes n).right.toNat else (nodes n).left.toNat) := by
  rw [follow, if_pos h]

theorem follow_succ_leaf {nodes : Nat → Node} {n : Nat} (h : (nodes n).internal = false) (v : Dword) (j k : Nat) :
    follow nodes v j (k + 1) n = none := by
  rw [follow, h, if_neg Bool.false_ne_true]

/-- A path is read off the bits of its edges only (R131). -/
theorem follow_congr {nodes : Nat → Node} {v v' : Dword} {j k : Nat}
    (h : ∀ i, j ≤ i → i < j + k → v.getLsbD i = v'.getLsbD i) (n : Nat) :
    follow nodes v j k n = follow nodes v' j k n := by
  induction k generalizing j n with
  | zero => rfl
  | succ k ih =>
    rw [follow, follow, h j le_rfl (by omega)]
    split
    · exact ih (fun i h1 h2 => h i (by omega) (by omega)) _
    · rfl

/-- A path in two parts. -/
theorem follow_add (nodes : Nat → Node) (v : Dword) (j k m n : Nat) :
    follow nodes v j (k + m) n = (follow nodes v j k n).bind (follow nodes v (j + k) m) := by
  induction k generalizing j n with
  | zero => rw [Nat.zero_add]; rfl
  | succ k ih =>
    cases h : (nodes n).internal with
    | true =>
      rw [Nat.add_right_comm, follow_succ_internal h, follow_succ_internal h, ih, Nat.add_right_comm, Nat.add_assoc]
    | false => rw [Nat.add_right_comm, follow_succ_leaf h, follow_succ_leaf h]; rfl

/-! The bits of a growing code word. -/

theorem getLsbD_of_lt_two_pow {v : Dword} {l : Nat} (h : v.toNat < 2 ^ l) {j : Nat} (hj : l ≤ j) : v.getLsbD j = false :=
  Nat.testBit_lt_two_pow (h.trans_le (Nat.pow_le_pow_right (by omega) hj))

theorem getLsbD_or_one_shiftLeft (v : Dword) {l : Nat} (hl : l < 64) (j : Nat) :
    (v ||| 1#64 <<< l).getLsbD j = (v.getLsbD j || decide (j = l)) := by
  by_cases hj : j = l
  · subst hj; simp [hl]
  · by_cases hlt : j < l
    · simp [hj, hlt]
    · have : j - l ≠ 0 := by omega
      simp [hj, this]

theorem or_one_shiftLeft_lt {v : Dword} {l : Nat} (h : v.toNat < 2 ^ l) :
    (v ||| 1#64 <<< l).toNat < 2 ^ (l + 1) := by
  have hone : (1#64 <<< l).toNat < 2 ^ (l + 1) := by
    rw [BitVec.toNat_shiftLeft, show (1#64).toNat = 1 from rfl, Nat.one_shiftLeft]
    exact (Nat.mod_le _ _).trans_lt (Nat.pow_lt_pow_succ (by omega))
  rw [BitVec.toNat_or]
  exact Nat.or_lt_two_pow (h.trans (Nat.pow_lt_pow_succ (by omega))) hone

/-- The low `l` bits of `v`, nothing above them, lead from `root` to `n` (R131). -/
structure Leads (nodes : Nat → Node) (root : Nat) (v : Dword) (l n : Nat) : Prop where
  /-- The path ends at `n`. -/
  path : follow nodes v 0 l root = some n
  /-- Nothing stands above it. -/
  bound : v.toNat < 2 ^ l

theorem Leads.left {nodes : Nat → Node} {root l n : Nat} {v : Dword} (h : Leads nodes root v l n)
    (hn : (nodes n).internal = true) : Leads nodes root v (l + 1) (nodes n).left.toNat := by
  refine ⟨?_, h.bound.trans (Nat.pow_lt_pow_succ (by omega))⟩
  rw [follow_add, h.path, Option.bind_some, follow_succ_internal hn, Nat.zero_add,
    getLsbD_of_lt_two_pow h.bound le_rfl, if_neg Bool.false_ne_true, follow]

theorem Leads.right {nodes : Nat → Node} {root l n : Nat} {v : Dword} (h : Leads nodes root v l n)
    (hn : (nodes n).internal = true) (hl : l < 64) :
    Leads nodes root (v ||| 1#64 <<< l) (l + 1) (nodes n).right.toNat := by
  refine ⟨?_, or_one_shiftLeft_lt h.bound⟩
  have hlow : follow nodes (v ||| 1#64 <<< l) 0 l root = follow nodes v 0 l root := by
    refine follow_congr (fun i _ hi => ?_) root
    have hne : i ≠ l := by omega
    rw [getLsbD_or_one_shiftLeft v hl, decide_eq_false hne, Bool.or_false]
  rw [follow_add, hlow, h.path, Option.bind_some, follow_succ_internal hn, Nat.zero_add,
    getLsbD_or_one_shiftLeft v hl, decide_eq_true rfl, Bool.or_true, if_pos rfl, follow]

/-! What the traversal records. -/

/-- The entry holds the path from `root` to a leaf of its symbol, of at most 64 edges (R130, R131). -/
def LeafPath (nodes : Nat → Node) (root : Nat) (e : Nat × CodeWord) : Prop :=
  e.2.len.toNat ≤ 64 ∧ ∃ n, Leads nodes root e.2.value e.2.len.toNat n ∧ (nodes n).internal = false ∧
    (nodes n).sym.toNat = e.1

/-- A leaf is recorded with its path (R130). -/
theorem leafPath_put {nodes : Nat → Node} {root room n : Nat} {v : Dword} {table : Store CodeWord}
    (hlead : Leads nodes root v (64 - room) n) (hleaf : (nodes n).internal = false)
    (h : ∀ e ∈ table, LeafPath nodes root e) :
    ∀ e ∈ Store.put (nodes n).sym.toNat { len := BitVec.ofNat 7 (64 - room), value := v } table,
      LeafPath nodes root e := by
  intro e he
  rcases Store.mem_put he with rfl | he
  · have hlen : (BitVec.ofNat 7 (64 - room)).toNat = 64 - room := by rw [BitVec.toNat_ofNat]; omega
    exact ⟨by simp only [hlen]; omega, n, by simp only [hlen]; exact hlead, hleaf, rfl⟩
  · exact h e he

/-- Every entry the traversal records is the path to a leaf of its symbol (R130, R131). -/
theorem walk_leafPath {nodes : Nat → Node} {root room n : Nat} {v : Dword} {below : List Frame}
    {table table' : Store CodeWord} (hroom : room ≤ 64) (hlead : Leads nodes root v (64 - room) n)
    (h : ∀ e ∈ table, LeafPath nodes root e) (hwalk : walk nodes room n v below table = .recorded table') :
    ∀ e ∈ table', LeafPath nodes root e := by
  induction room generalizing n v below table table' with
  | zero =>
    cases hn : (nodes n).internal with
    | true => rw [walk_tooLong hn] at hwalk; exact Walk.noConfusion hwalk
    | false =>
      rw [walk_leaf hn] at hwalk
      rw [← Walk.recorded.inj hwalk]
      exact leafPath_put hlead hn h
  | succ room ih =>
    cases hn : (nodes n).internal with
    | true =>
      have hl : 64 - (room + 1) + 1 = 64 - room := by omega
      have hleft := hlead.left hn
      have hright := hlead.right hn (by omega)
      rw [hl] at hleft hright
      rw [walk_internal hn] at hwalk
      split at hwalk
      · exact Walk.noConfusion hwalk
      · rename_i table₁ h₁
        exact ih (by omega) hright (ih (by omega) hleft h h₁) hwalk
    | false =>
      rw [walk_leaf hn] at hwalk
      rw [← Walk.recorded.inj hwalk]
      exact leafPath_put hlead hn h

theorem leads_root (nodes : Nat → Node) (root : Nat) : Leads nodes root 0 0 root := ⟨rfl, by simp⟩

theorem getLsbD_of_isPrefixOf {a b : CodeWord} (h : isPrefixOf a b) {j : Nat} (hj : j < a.len.toNat) :
    b.value.getLsbD j = a.value.getLsbD j := by
  have := congrArg (fun x => Nat.testBit x j) h.2
  simpa [hj, BitVec.getLsbD] using this

/-- Two paths to leaves of which one begins the other are one path: a leaf has no edge (R51). -/
theorem leafPath_prefixFree {nodes : Nat → Node} {root : Nat} {e f : Nat × CodeWord} (he : LeafPath nodes root e)
    (hf : LeafPath nodes root f) (h : isPrefixOf e.2 f.2) : e.1 = f.1 := by
  obtain ⟨-, n, hen, hleaf, hsym⟩ := he
  obtain ⟨-, m, hfm, -, hsym'⟩ := hf
  obtain ⟨d, hd⟩ := Nat.exists_eq_add_of_le h.1
  have hshared : follow nodes f.2.value 0 e.2.len.toNat root = some n := by
    rw [← hen.path]
    exact follow_congr (fun i _ hi => getLsbD_of_isPrefixOf h (by omega)) root
  have hrest := hfm.path
  rw [hd, follow_add, hshared, Option.bind_some] at hrest
  cases d with
  | zero =>
    have hnm : n = m := Option.some.inj hrest
    rw [← hsym, ← hsym', hnm]
  | succ d => rw [follow_succ_leaf hleaf] at hrest; exact absurd hrest (by simp)

/-! The table as GENCODE leaves it. -/

theorem tableOk_congr {s t : State} (h : TableOk s) (hcode : t.code = s.code) (hvalid : t.tableValid = s.tableValid) :
    TableOk t :=
  ⟨by rw [hcode, hvalid]; exact h.unset, by rw [hcode]; exact h.lengths, by rw [hcode]; exact h.prefixFree⟩

theorem tableOk_of_empty {s : State} (h : s.code = []) : TableOk s :=
  ⟨fun _ => h, by rw [h]; exact nofun, by rw [h]; exact nofun⟩

theorem tableOk_of_leafPaths {s : State} {nodes : Nat → Node} {root : Nat} (hvalid : s.tableValid = true)
    (hroot : (nodes root).internal = true) (h : ∀ e ∈ s.code, LeafPath nodes root e) : TableOk s := by
  refine ⟨fun hv => Bool.noConfusion (hvalid.symm.trans hv), fun e he => ?_,
    fun e he f hf => leafPath_prefixFree (h e he) (h f hf)⟩
  obtain ⟨hlen, n, hlead, hleaf, -⟩ := h e he
  refine ⟨?_, hlen, hlead.bound⟩
  by_contra hzero
  have hpath := hlead.path
  rw [show e.2.len.toNat = 0 by omega, follow] at hpath
  rw [← Option.some.inj hpath, hroot] at hleaf
  exact Bool.noConfusion hleaf

theorem tableOk_singleCode {s : State} {x : Byte} (hvalid : s.tableValid = true) (h : s.code = singleCode x) :
    TableOk s := by
  refine ⟨fun hv => Bool.noConfusion (hvalid.symm.trans hv), ?_, ?_⟩ <;> rw [h]
  · intro e he
    rw [List.mem_singleton.1 he]
    exact ⟨le_rfl, Nat.one_le_ofNat, Nat.two_pow_pos 1⟩
  · intro e he f hf _
    rw [List.mem_singleton.1 he, List.mem_singleton.1 hf]

/-- GENCODE leaves a table in which no code word begins another, or none (R51, R130, R132). -/
theorem tableOk_runGencode {s : State} (h : TableOk s) : TableOk (runGencode s).state := by
  obtain ⟨-, e⟩ | ⟨-, ⟨-, e⟩ | ⟨hroot, ⟨n, stack, -, e⟩ | ⟨table, hwalk, e⟩⟩⟩ := runGencode_cases s <;> rw [e]
  · exact tableOk_congr h rfl rfl
  · exact tableOk_singleCode rfl rfl
  · exact tableOk_of_empty rfl
  · exact tableOk_of_leafPaths rfl hroot
      (walk_leafPath le_rfl (leads_root s.nodeAt s.root.toNat) (fun _ he => absurd he List.not_mem_nil) hwalk)

theorem PackFrame.tableOk {s t : State} (h : PackFrame s t) (hs : TableOk s) : TableOk t :=
  h.elim fun _ _ _ _ => tableOk_congr hs rfl rfl

theorem DecodeFrame.tableOk {s t : State} (h : DecodeFrame s t) (hs : TableOk s) : TableOk t :=
  h.elim fun _ _ _ _ _ => tableOk_congr hs rfl rfl

theorem BuildFrame.tableOk {s t : State} (h : BuildFrame s t) (hs : TableOk s) : TableOk t :=
  h.elim fun _ _ _ _ _ _ _ _ => tableOk_congr hs rfl rfl

theorem tableOk_exec {i : Instr} {s t : State} (h : exec i s = .next t) (hs : TableOk s) : TableOk t := by
  rw [eq_of_exec h]
  cases i with
  | nop => exact hs
  | clear => exact tableOk_of_empty rfl
  | count => exact tableOk_congr hs rfl rfl
  | build => exact (runBuild_frame s).tableOk hs
  | gencode => exact tableOk_runGencode hs
  | pack => exact (runPack_frame s).tableOk hs
  | encode =>
    exact runEncode_keeps (fun _ hu => tableOk_congr hu rfl rfl) (fun _ hu => tableOk_congr hu rfl rfl)
      (fun u hu => (runBuild_frame u).tableOk hu) (fun _ => tableOk_runGencode)
      (fun u hu => (runPack_frame u).tableOk hu) hs
  | decode => exact (runDecode_frame s).tableOk hs
  | append len => exact (appendBits_frame _ _ _ s).tableOk hs
  | pbclr => exact tableOk_congr hs rfl rfl

theorem tableOk_hostRead (a : Addr) (s : State) (h : TableOk s) : TableOk (hostRead a s) := by
  rw [hostRead_frame]; exact tableOk_congr h rfl rfl

theorem tableOk_hostWrite (a : Addr) (v : Word) (s : State) (h : TableOk s) : TableOk (hostWrite a v s) :=
  (hostWrite_frame a v s).elim fun _ _ _ _ _ _ _ _ _ _ _ _ => tableOk_congr h rfl rfl

end Sys2Proof.Machine

open Sys2Proof Sys2Proof.Machine

/-- Settles O60: GENCODE's table holds root-to-leaf paths, and no other event writes a table. -/
theorem stepKeepsTheTablePrefixFree : Obligations.StepKeepsTheTablePrefixFree := by
  intro s t _ _ _ hs h
  exact step_keeps (fun _ _ h => tableOk_congr h rfl rfl) tableOk_hostRead tableOk_hostWrite
    (fun _ _ => tableOk_of_empty rfl) (fun _ _ h => tableOk_congr h rfl rfl)
    (fun _ _ _ _ hx h => tableOk_congr (tableOk_exec hx h) rfl rfl) hs h
end

section
/-! The bounds of the registers and the canonical form of the arrays, command by command (R33 to R38, R72). -/

namespace Sys2Proof.Machine

/-- The registers are within their bounds and every array is canonical. -/
def Sound (s : State) : Prop := Bounds s ∧ Memory.wf s = true

theorem Params.legal_iff (p : Params) :
    p.legal = true ↔ 1 ≤ p.nMax ∧ p.nMax ≤ 16384 ∧ 1 ≤ p.wMax ∧ p.wMax ≤ 32768 ∧ p.nMax ≤ p.wMax := by
  simp only [Params.legal, Bool.and_eq_true, decide_eq_true_eq, and_assoc]

theorem bounds_congr {s t : State} (h : Bounds s) (hparams : t.params = s.params) (hin : t.inLen = s.inLen)
    (hout : t.outLen = s.outLen) (hbits : t.totalBits = s.totalBits) (hcount : t.nodeCount = s.nodeCount) : Bounds t :=
  ⟨by rw [hparams]; exact h.params, by rw [hparams, hin]; exact h.inLen, by rw [hparams, hout]; exact h.outLen,
    by rw [hparams, hbits]; exact h.totalBits, by rw [hcount]; exact h.nodeCount⟩

/-! Each array on its own. -/

theorem wf_setFreq {s : State} (h : Memory.wf s = true) {m : Store Word} (hr : Store.rising m = true)
    (hw : Store.within Config.kMax m = true) (hz : Store.noZero m = true) : Memory.wf { s with freq := m } = true := by
  rw [Memory.wf_iff] at h ⊢
  exact ⟨h.1, ⟨hr, hw, hz⟩, h.2.2⟩

theorem wf_setNode {s : State} (h : Memory.wf s = true) {m : Store Node} (hr : Store.rising m = true)
    (hw : Store.within Config.nodeMax m = true) : Memory.wf { s with node := m } = true := by
  rw [Memory.wf_iff] at h ⊢
  obtain ⟨hsym, hfreq, -, hrest⟩ := h
  exact ⟨hsym, hfreq, ⟨hr, hw⟩, hrest⟩

theorem wf_setCode {s : State} (h : Memory.wf s = true) {m : Store CodeWord} (hr : Store.rising m = true)
    (hw : Store.within Config.kMax m = true) : Memory.wf { s with code := m } = true := by
  rw [Memory.wf_iff] at h ⊢
  obtain ⟨hsym, hfreq, hnode, -, hrest⟩ := h
  exact ⟨hsym, hfreq, hnode, ⟨hr, hw⟩, hrest⟩

theorem wf_setPbuf {s : State} (h : Memory.wf s = true) {m : Store PbufHalf} (hr : Store.rising m = true)
    (hw : Store.within (2 * s.params.wMax) m = true) : Memory.wf { s with pbuf := m } = true := by
  rw [Memory.wf_iff] at h ⊢
  obtain ⟨hsym, hfreq, hnode, hcode, -, hout⟩ := h
  exact ⟨hsym, hfreq, hnode, hcode, ⟨hr, hw⟩, hout⟩

theorem wf_setOutMem {s : State} (h : Memory.wf s = true) {m : List Host.Cell} (hr : Store.rising m = true)
    (hw : Store.within s.params.nMax m = true) : Memory.wf { s with outMem := m } = true := by
  rw [Memory.wf_iff] at h ⊢
  obtain ⟨hsym, hfreq, hnode, hcode, hpbuf, -⟩ := h
  exact ⟨hsym, hfreq, hnode, hcode, hpbuf, ⟨hr, hw⟩⟩

theorem wf_pbuf {s : State} (h : Memory.wf s = true) :
    Store.rising s.pbuf = true ∧ Store.within (2 * s.params.wMax) s.pbuf = true := by
  obtain ⟨-, -, -, -, hpbuf, -⟩ := (Memory.wf_iff s).1 h
  exact hpbuf

theorem wf_outMem {s : State} (h : Memory.wf s = true) :
    Store.rising s.outMem = true ∧ Store.within s.params.nMax s.outMem = true := by
  obtain ⟨-, -, -, -, -, hout⟩ := (Memory.wf_iff s).1 h
  exact hout

theorem wf_node {s : State} (h : Memory.wf s = true) :
    Store.rising s.node = true ∧ Store.within Config.nodeMax s.node = true := by
  obtain ⟨-, -, hnode, -⟩ := (Memory.wf_iff s).1 h
  exact hnode

/-! The packed buffer. -/

theorem sound_raise {s : State} (e : ErrCode) (info : Word) (h : Sound s) : Sound (raise e info s).state :=
  ⟨bounds_congr h.1 rfl rfl rfl rfl rfl, h.2⟩

theorem sound_emptyBuffer {s : State} (h : Sound s) : Sound (emptyBuffer s) :=
  ⟨⟨h.1.params, h.1.inLen, h.1.outLen, Nat.zero_le _, h.1.nodeCount⟩, h.2⟩

/-- The loop of APPEND_BITS stays in PBUF when its bits fit (R35, R140). -/
theorem sound_appendLoop {s : State} (v : Dword) {n : Nat} (hfit : s.totalBits.toNat + n ≤ 64 * s.params.wMax)
    (h : Sound s) : Sound (appendLoop v 0 n s) := by
  obtain ⟨hb, hwf⟩ := h
  obtain ⟨-, -, -, hmax, -⟩ := (Params.legal_iff _).1 hb.params
  obtain ⟨hr, hw⟩ := wf_pbuf hwf
  obtain ⟨hr', hw'⟩ := appendLoop_wf v 0 n s hr hw hfit (by omega)
  have hbits : (s.totalBits + BitVec.ofNat 32 n).toNat = s.totalBits.toNat + n := by
    rw [BitVec.toNat_add, BitVec.toNat_ofNat]; omega
  rw [appendLoop_frame]
  exact ⟨⟨hb.params, hb.inLen, hb.outLen, by rw [hbits]; exact hfit, hb.nodeCount⟩, wf_setPbuf hwf hr' hw'⟩

theorem sound_appendBits {s : State} (v : Dword) (n : Nat) (info : Word) (h : Sound s) :
    Sound (appendBits v n info s).state := by
  obtain ⟨-, e⟩ | ⟨-, -, e⟩ | ⟨-, hfit, e⟩ := appendBits_cases v n info s <;> rw [e]
  · exact h
  · exact sound_raise _ _ h
  · exact sound_appendLoop v hfit h

theorem sound_runPack {s : State} (h : Sound s) : Sound (runPack s).state := by
  refine runPack_keeps (sound_raise _ _ h) (sound_emptyBuffer h) fun i u hu => ?_
  obtain ⟨-, e⟩ | ⟨w, -, e⟩ := packSymbol_cases i u <;> rw [e]
  · exact sound_raise _ _ hu
  · exact sound_appendBits _ _ _ hu

/-! The decoded output. -/

/-- A symbol is written only while OUT_MEM has room (R34, R150). -/
theorem sound_emitSymbol {s : State} (x : Nat) (hroom : s.outLen.toNat ≠ s.params.nMax) (h : Sound s) :
    Sound (emitSymbol x s) := by
  obtain ⟨hb, hwf⟩ := h
  have hlt := Nat.lt_of_le_of_ne hb.outLen hroom
  obtain ⟨-, hmax, -⟩ := (Params.legal_iff _).1 hb.params
  obtain ⟨hr, hw⟩ := wf_outMem hwf
  obtain ⟨hr', hw'⟩ := emitSymbol_wf x s hr hw hlt
  have hlen : (emitSymbol x s).outLen.toNat ≤ s.params.nMax := by
    rw [emitSymbol_outLen, BitVec.toNat_add, show (1 : Word).toNat = 1 from rfl]; omega
  exact ⟨⟨hb.params, hb.inLen, hlen, hb.totalBits, hb.nodeCount⟩, wf_setOutMem hwf hr' hw'⟩

theorem sound_decodeBit {s : State} (p : Nat) (h : Sound s) : Sound (decodeBit p s).state := by
  obtain ⟨-, e⟩ | ⟨-, ⟨-, e⟩ | ⟨x, -, ⟨-, e⟩ | ⟨hroom, e⟩⟩⟩ := decodeBit_cases p s <;> rw [e]
  · exact sound_raise _ _ h
  · exact ⟨bounds_congr h.1 rfl rfl rfl rfl rfl, h.2⟩
  · exact sound_raise _ _ ⟨bounds_congr h.1 rfl rfl rfl rfl rfl, h.2⟩
  · exact sound_emitSymbol x hroom h

theorem sound_runDecode {s : State} (h : Sound s) : Sound (runDecode s).state :=
  runDecode_keeps (sound_raise _ _ h)
    ⟨⟨h.1.params, h.1.inLen, Nat.zero_le _, h.1.totalBits, h.1.nodeCount⟩, h.2⟩ (fun p _ => sound_decodeBit p)
    fun _ => sound_raise _ _

/-! The tree. -/

theorem sound_buildLeaves {s : State} (h : Sound s) : Sound (buildLeaves s) := by
  obtain ⟨hb, hwf⟩ := h
  obtain ⟨hr, hw⟩ := wf_node hwf
  have hfit : 0 + (presentSymbols s.freq).length ≤ Config.nodeMax := by
    have hmax : (presentSymbols s.freq).length ≤ 256 := numSyms_le s
    rw [show Config.nodeMax = 511 from rfl]; omega
  obtain ⟨hr', hw'⟩ := placeLeaves_wf s.freq 0 (presentSymbols s.freq) s.node hr hw hfit
  exact ⟨⟨hb.params, hb.inLen, hb.outLen, hb.totalBits, Nat.zero_le _⟩, wf_setNode hwf hr' hw'⟩

/-- The merge loop stays in the arena: it makes at most `2K - 1` nodes (R10, R38, R119). -/
theorem sound_mergedTree {s : State} {k : Nat} (hk : 1 ≤ k) (hmax : k ≤ 256) (h : Sound s) :
    Sound (mergedTree s (mergeAll s k)) := by
  obtain ⟨hb, hwf⟩ := h
  have hmax' : Config.nodeMax = 511 := rfl
  obtain ⟨hcount, hr, hw⟩ : MergeCount k (mergeAll s k) ∧ Store.rising (mergeAll s k).node = true ∧
      Store.within Config.nodeMax (mergeAll s k).node = true := by
    refine mergeLoop_keeps (P := fun f => MergeCount k f ∧ Store.rising f.node = true ∧
      Store.within Config.nodeMax f.node = true) (fun f g hg hf => ?_) k ⟨mergeCount_start hk, wf_node hwf⟩
    obtain ⟨hcount, hr, hw⟩ := hf
    obtain ⟨hcount', hfit⟩ := hcount.mergeOnce hg
    exact ⟨hcount', mergeOnce_wf hg hr hw (by omega)⟩
  have htotal := hcount.total
  have hleft := hcount.nonempty
  have hnodes : (mergedTree s (mergeAll s k)).nodeCount.toNat ≤ Config.nodeMax := by
    rw [mergedTree_nodeCount, BitVec.toNat_ofNat]; omega
  exact ⟨⟨hb.params, hb.inLen, hb.outLen, hb.totalBits, hnodes⟩, wf_setNode hwf hr hw⟩

theorem sound_runBuild {s : State} (h : Sound s) : Sound (runBuild s).state := by
  have hleaves := sound_buildLeaves h
  obtain ⟨-, e⟩ | ⟨-, ⟨-, e⟩ | ⟨-, e⟩ | ⟨hk, e⟩⟩ := runBuild_cases s <;> rw [e]
  · exact sound_raise _ _ h
  · exact sound_raise _ _ hleaves
  · obtain ⟨hb, hwf⟩ := hleaves
    have hone : (1 : Word).toNat ≤ Config.nodeMax := by decide
    exact ⟨⟨hb.params, hb.inLen, hb.outLen, hb.totalBits, hone⟩, hwf⟩
  · exact sound_mergedTree (by omega) (numSyms_le s) hleaves

/-! The table. -/

theorem singleCode_wf (x : Byte) :
    Store.rising (singleCode x) = true ∧ Store.within Config.kMax (singleCode x) = true := by
  refine ⟨rfl, (Store.within_iff _ _).2 fun e he => ?_⟩
  rw [List.mem_singleton.1 he]
  exact x.isLt

theorem sound_runGencode {s : State} (h : Sound s) : Sound (runGencode s).state := by
  have hbounds : ∀ {t : State}, GencodeFrame s t → Bounds t := fun ht =>
    ht.elim fun _ _ _ _ _ => bounds_congr h.1 rfl rfl rfl rfl rfl
  refine ⟨hbounds (runGencode_frame s), ?_⟩
  obtain ⟨-, e⟩ | ⟨-, ⟨-, e⟩ | ⟨-, ⟨n, stack, -, e⟩ | ⟨table, hwalk, e⟩⟩⟩ := runGencode_cases s <;> rw [e]
  · exact h.2
  · exact wf_setCode h.2 (singleCode_wf _).1 (singleCode_wf _).2
  · exact wf_setCode h.2 rfl rfl
  · obtain ⟨hr, hw⟩ := walk_wf _ _ _ _ _ [] table rfl rfl hwalk
    exact wf_setCode h.2 hr hw

/-! Every command, and the host. -/

theorem sound_runCount {s : State} (h : Sound s) : Sound (runCount s).state := by
  obtain ⟨hr, hw, hz⟩ := frequencies_wf s.inputSymbols
  exact ⟨bounds_congr h.1 rfl rfl rfl rfl rfl, wf_setFreq h.2 hr hw hz⟩

theorem sound_discardAll {s : State} (h : Sound s) : Sound (discardAll s) := by
  obtain ⟨hb, hwf⟩ := h
  have hfreq : Memory.wf { s with freq := [] } = true := wf_setFreq hwf rfl rfl rfl
  have hcode : Memory.wf { s with freq := [], code := [] } = true := wf_setCode hfreq rfl rfl
  exact ⟨⟨hb.params, hb.inLen, Nat.zero_le _, Nat.zero_le _, Nat.zero_le _⟩, hcode⟩

theorem sound_exec {i : Instr} {s t : State} (h : exec i s = .next t) (hs : Sound s) : Sound t := by
  rw [eq_of_exec h]
  cases i with
  | nop => exact hs
  | clear => exact sound_discardAll hs
  | count => exact sound_runCount hs
  | build => exact sound_runBuild hs
  | gencode => exact sound_runGencode hs
  | pack => exact sound_runPack hs
  | encode =>
    exact runEncode_keeps (fun _ => sound_raise _ _) (fun _ => sound_runCount) (fun _ => sound_runBuild)
      (fun _ => sound_runGencode) (fun _ => sound_runPack) hs
  | decode => exact sound_runDecode hs
  | append len => exact sound_appendBits _ _ _ hs
  | pbclr => exact sound_emptyBuffer hs

/-- IN_LEN and TOTAL_BITS store the clamped value (R33, R35). -/
theorem bounds_storeLoc (v : Word) {s : State} (l : Loc) (h : Bounds s) : Bounds (storeLoc v s l) := by
  cases l with
  | inLen =>
    exact ⟨h.params, (Nat.mod_le _ _).trans (min_le_right _ _), h.outLen, h.totalBits, h.nodeCount⟩
  | totalBits =>
    exact ⟨h.params, h.inLen, h.outLen, (Nat.mod_le _ _).trans (min_le_right _ _), h.nodeCount⟩
  | _ => exact bounds_congr h rfl rfl rfl rfl rfl

theorem sound_hostWrite (a : Addr) (v : Word) (s : State) (h : Sound s) : Sound (hostWrite a v s) :=
  ⟨hostWrite_keeps (fun _ _ h => bounds_congr h rfl rfl rfl rfl rfl) (fun _ _ h => bounds_congr h rfl rfl rfl rfl rfl)
    (fun _ h => bounds_congr h rfl rfl rfl rfl rfl) (fun v _ l _ h => bounds_storeLoc v l h) a v s h.1,
    hostWrite_wf a v s h.2⟩

theorem sound_hostRead (a : Addr) (s : State) (h : Sound s) : Sound (hostRead a s) := by
  rw [hostRead_frame]; exact ⟨bounds_congr h.1 rfl rfl rfl rfl rfl, h.2⟩

theorem sound_applyReset (s : State) (h : Sound s) : Sound (applyReset s) :=
  ⟨⟨h.1.params, Nat.zero_le _, Nat.zero_le _, Nat.zero_le _, Nat.zero_le _⟩, Memory.wf_applyReset s⟩

theorem sound_step {s t : State} (hs : Sound s) (h : step s = .next t) : Sound t :=
  step_keeps (fun _ _ h => ⟨bounds_congr h.1 rfl rfl rfl rfl rfl, h.2⟩) sound_hostRead sound_hostWrite sound_applyReset
    (fun _ _ h => ⟨bounds_congr h.1 rfl rfl rfl rfl rfl, h.2⟩)
    (fun _ _ _ _ hx h => ⟨bounds_congr (sound_exec hx h).1 rfl rfl rfl rfl rfl, (sound_exec hx h).2⟩) hs h

end Sys2Proof.Machine

open Sys2Proof Sys2Proof.Machine

/-- Settles O57: each event keeps the bounds and the canonical form. -/
theorem stepKeepsBoundsAndMemory : Obligations.StepKeepsBoundsAndMemory :=
  fun _ _ hb hwf h => sound_step ⟨hb, hwf⟩ h
end

section
/-! The Frequency Map and the tree, command by command (R11, R49, R50, R120). -/

namespace Sys2Proof.Machine

/-- The input fits, the Frequency Map holds what a COUNT left, and a valid tree is the tree of its symbols. -/
structure TreeSound (s : State) : Prop where
  /-- R8, R9. -/
  params : s.params.legal = true
  /-- R33. -/
  inLen : s.inLen.toNat ≤ s.params.nMax
  /-- R49. -/
  freq : FreqOk s
  /-- R50. -/
  tree : TreeOk s

/-- The fields the Frequency Map and the tree stand in. -/
def treePart (s : State) :=
  (s.params, s.freqValid, s.freq, s.treeValid, s.nodeCount, s.root, s.node, s.resets)

theorem treeShape_congr {s t : State} (h : TreeShape s) (hfreq : t.freq = s.freq) (hcount : t.nodeCount = s.nodeCount)
    (hroot : t.root = s.root) (hnode : t.node = s.node) (hresets : t.resets = s.resets) : TreeShape t := by
  have hnodes : t.nodeAt = s.nodeAt := by funext i; rw [State.nodeAt, State.nodeAt, hnode, hresets]
  have hcounts : t.freqAt = s.freqAt := by funext x; rw [State.freqAt, State.freqAt, hfreq]
  have hnum : t.numSyms = s.numSyms := by rw [State.numSyms, State.numSyms, hfreq]
  have hparent : isParent t = isParent s := by rw [isParent_eq, isParent_eq, hnodes]
  exact ⟨by rw [hcount, hnum]; exact h.size, by rw [hroot, hcount]; exact h.root,
    by rw [hnum, hnode, hfreq, hcounts]; exact h.leaves, by rw [hcount, hnum, hnode, hnodes]; exact h.inner,
    by rw [hcount, hroot, hparent]; exact h.owned⟩

theorem treeSound_congr {s t : State} (h : TreeSound s) (hin : t.inLen.toNat ≤ t.params.nMax)
    (hpart : treePart t = treePart s) : TreeSound t := by
  simp only [treePart, Prod.mk.injEq] at hpart
  obtain ⟨hparams, hfv, hfreq, htv, hcount, hroot, hnode, hresets⟩ := hpart
  exact ⟨by rw [hparams]; exact h.params, hin,
    ⟨by rw [hfv, hfreq]; exact h.freq.unset, by rw [hfreq, hparams]; exact h.freq.total⟩,
    fun hv => treeShape_congr (h.tree (htv ▸ hv)) hfreq hcount hroot hnode hresets⟩

theorem PackFrame.treeSound {s t : State} (h : PackFrame s t) (hs : TreeSound s) : TreeSound t :=
  h.elim fun _ _ _ _ => treeSound_congr hs hs.inLen rfl

theorem DecodeFrame.treeSound {s t : State} (h : DecodeFrame s t) (hs : TreeSound s) : TreeSound t :=
  h.elim fun _ _ _ _ _ => treeSound_congr hs hs.inLen rfl

theorem GencodeFrame.treeSound {s t : State} (h : GencodeFrame s t) (hs : TreeSound s) : TreeSound t :=
  h.elim fun _ _ _ _ _ => treeSound_congr hs hs.inLen rfl

/-! The commands that write the Frequency Map or the tree. -/

theorem totalCount_nil : totalCount [] = 0 := by
  simp [totalCount, countAt]

theorem freqOk_of_empty {s : State} (h : s.freq = []) : FreqOk s :=
  ⟨fun _ => h, by rw [h, totalCount_nil]; exact Nat.zero_le _⟩

/-- No count can overflow: all counts together are at most `N_MAX` (R11, R120). -/
theorem TreeSound.totalCount_lt {s : State} (h : TreeSound s) : totalCount s.freq < 2 ^ 32 := by
  obtain ⟨-, hmax, -⟩ := (Params.legal_iff _).1 h.params
  have := h.freq.total
  omega

theorem treeSound_runCount {s : State} (h : TreeSound s) : TreeSound (runCount s).state :=
  ⟨h.params, h.inLen, ⟨fun hv => Bool.noConfusion hv, by rw [totalCount_runCount]; exact h.inLen⟩,
    fun hv => Bool.noConfusion hv⟩

theorem treeSound_runBuild {s : State} (h : TreeSound s) : TreeSound (runBuild s).state := by
  obtain ⟨-, e⟩ | ⟨-, ⟨-, e⟩ | ⟨hone, e⟩ | ⟨htwo, e⟩⟩ := runBuild_cases s <;> rw [e]
  · exact treeSound_congr h h.inLen rfl
  · exact ⟨h.params, h.inLen, ⟨h.freq.unset, h.freq.total⟩, fun hv => Bool.noConfusion hv⟩
  · exact ⟨h.params, h.inLen, ⟨h.freq.unset, h.freq.total⟩, fun _ => treeShape_singleTree hone⟩
  · exact ⟨h.params, h.inLen, ⟨h.freq.unset, h.freq.total⟩, fun _ => treeShape_mergedTree htwo h.totalCount_lt⟩

theorem treeSound_exec {i : Instr} {s t : State} (h : exec i s = .next t) (hs : TreeSound s) : TreeSound t := by
  rw [eq_of_exec h]
  cases i with
  | nop => exact hs
  | clear => exact ⟨hs.params, hs.inLen, freqOk_of_empty rfl, fun hv => Bool.noConfusion hv⟩
  | count => exact treeSound_runCount hs
  | build => exact treeSound_runBuild hs
  | gencode => exact (runGencode_frame s).treeSound hs
  | pack => exact (runPack_frame s).treeSound hs
  | encode =>
    exact runEncode_keeps (fun _ hu => treeSound_congr hu hu.inLen rfl) (fun _ => treeSound_runCount)
      (fun _ => treeSound_runBuild) (fun u hu => (runGencode_frame u).treeSound hu)
      (fun u hu => (runPack_frame u).treeSound hu) hs
  | decode => exact (runDecode_frame s).treeSound hs
  | append len => exact (appendBits_frame _ _ _ s).treeSound hs
  | pbclr => exact treeSound_congr hs hs.inLen rfl

/-! The host. -/

theorem treeSound_storeLoc (v : Word) {s : State} (l : Loc) (h : TreeSound s) : TreeSound (storeLoc v s l) := by
  refine treeSound_congr h ?_ ((storeLoc_frame v s l).elim
    (P := fun t => treePart t = treePart s) fun _ _ _ _ _ _ _ _ _ _ _ _ => rfl)
  cases l with
  | inLen => exact (Nat.mod_le _ _).trans (min_le_right _ _)
  | _ => exact h.inLen

theorem treeSound_hostWrite (a : Addr) (v : Word) (s : State) (h : TreeSound s) : TreeSound (hostWrite a v s) :=
  hostWrite_keeps (fun _ _ h => treeSound_congr h h.inLen rfl) (fun _ _ h => treeSound_congr h h.inLen rfl)
    (fun _ h => treeSound_congr h h.inLen rfl) (fun v _ l _ h => treeSound_storeLoc v l h) a v s h

theorem treeSound_hostRead (a : Addr) (s : State) (h : TreeSound s) : TreeSound (hostRead a s) := by
  rw [hostRead_frame]; exact treeSound_congr h h.inLen rfl

theorem treeSound_applyReset (s : State) (h : TreeSound s) : TreeSound (applyReset s) :=
  ⟨h.params, Nat.zero_le _, freqOk_of_empty rfl, fun hv => Bool.noConfusion hv⟩

theorem treeSound_step {s t : State} (hs : TreeSound s) (h : step s = .next t) : TreeSound t :=
  step_keeps (fun _ _ h => treeSound_congr h h.inLen rfl) treeSound_hostRead treeSound_hostWrite treeSound_applyReset
    (fun _ _ h => treeSound_congr h h.inLen rfl)
    (fun _ _ _ _ hx h => treeSound_congr (treeSound_exec hx h) (treeSound_exec hx h).inLen rfl) hs h

end Sys2Proof.Machine

open Sys2Proof Sys2Proof.Machine

/-- Settles O59: COUNT sums to IN_LEN, BUILD makes the tree, and no other event touches either. -/
theorem stepKeepsTheTree : Obligations.StepKeepsTheTree := by
  intro s t hb hfreq htree h
  have ht := treeSound_step ⟨hb.params, hb.inLen, hfreq, htree⟩ h
  exact ⟨ht.freq, ht.tree⟩

/-- Settles O56: every register is 0, every array empty and every flag clear. -/
theorem resetMeetsTheInvariants : Obligations.ResetMeetsTheInvariants :=
  ⟨⟨rfl, Nat.zero_le _, Nat.zero_le _, Nat.zero_le _, Nat.zero_le _⟩, rfl, lifecycle_of_idle rfl fun _ => rfl,
    freqOk_of_empty rfl, fun hv => Bool.noConfusion hv, tableOk_of_empty rfl⟩
end

section
/-! The register page: what an aligned word names, reads as and stores (R23 to R41, R57, R58, R190). -/

namespace Sys2Proof.Machine

/-- The register page, whatever the low bits of the address (R61, R62). -/
theorem locate_register (p : Params) {a : Addr} {n : Nat} (h : a.toNat / 4 = n) (hn : n < 0x400) :
    locate p a = registerAt n := by
  rw [locate, locateByte, if_pos (by omega), h]

/-- A host read of a register while BUSY = 0 returns its content (R23 to R41). -/
theorem hostRead_register {s : State} (hb : s.busy = false) {off : Nat} {v : Word} (hoff : off < 0x1000)
    (hv : readLoc s (registerAt (off / 4)) = v) :
    hostRead (BitVec.ofNat 20 off) s = { s with replies := v :: s.replies } := by
  have hloc : locate s.params (BitVec.ofNat 20 off) = registerAt (off / 4) :=
    locate_register s.params (by rw [BitVec.toNat_ofNat]; omega) (by omega)
  obtain ⟨hbusy, -⟩ | ⟨-, -, h⟩ | ⟨k, -, hpbuf, -⟩ := hostRead_cases (BitVec.ofNat 20 off) s
  · exact absurd (hb.symm.trans hbusy) Bool.false_ne_true
  · rw [h, hloc, hv]; rfl
  · obtain ⟨-, -, hne⟩ := registerAt_ne (off / 4) k
    exact absurd (hloc.symm.trans hpbuf) hne

theorem hostWrite_ctrl {s : State} {a : Addr} (h : a.toNat / 4 = 0x014 / 4) (v : Word) :
    hostWrite a v s = writeCtrl v s := by
  have hloc : locate s.params a = .ctrl := locate_register s.params h (by decide)
  rw [hostWrite, hloc]

theorem hostWrite_status {s : State} {a : Addr} (h : a.toNat / 4 = 0x01C / 4) (v : Word) :
    hostWrite a v s = writeStatus v s := by
  have hloc : locate s.params a = .status := locate_register s.params h (by decide)
  rw [hostWrite, hloc]

/-- A host write of a register that BUSY = 1 drops stores it while BUSY = 0 (R33, R35, R40, R41). -/
theorem hostWrite_register {s : State} (hb : s.busy = false) {a : Addr} {n : Nat} (h : a.toNat / 4 = n) (hn : n < 0x400)
    (hd : droppedWhileBusy (registerAt n) = true) (v : Word) : hostWrite a v s = storeLoc v s (registerAt n) := by
  rw [← locate_register s.params h hn] at hd ⊢
  obtain ⟨hl, -⟩ | ⟨hl, -⟩ | ⟨-, hbusy, -⟩ | ⟨-, -, e⟩ | ⟨hl, -⟩ := hostWrite_cases a v s
  · rw [hl] at hd; exact absurd hd Bool.false_ne_true
  · rw [hl] at hd; exact absurd hd Bool.false_ne_true
  · exact absurd (hb.symm.trans hbusy) Bool.false_ne_true
  · exact e
  · exact absurd (hl.symm.trans hd) Bool.false_ne_true

theorem ctrlWord_eq (s : State) : s.ctrlWord = if s.irqEn then 1 else 0 := by
  unfold State.ctrlWord
  cases s.irqEn <;> rfl

/-- STATUS bit by bit, as a number, while BUSY = 0 (R30). -/
theorem statusWord_eq {s : State} (hb : s.busy = false) :
    s.statusWord = BitVec.ofNat 32 ((if s.done then 2 else 0) + (if s.errCode = .ok then 0 else 4) +
      (if s.freqValid then 8 else 0) + (if s.treeValid then 16 else 0) + (if s.tableValid then 32 else 0) +
      (if s.overrun then 64 else 0)) := by
  have herr : (if s.errCode = .ok then 0 else 4) = if s.err then 4 else 0 := by
    unfold State.err
    by_cases h : s.errCode = .ok <;> simp [h]
  have bits : ∀ o table tree freq e d : Bool,
      (0#25 ++ BitVec.ofBool o ++ BitVec.ofBool table ++ BitVec.ofBool tree ++ BitVec.ofBool freq ++ BitVec.ofBool e ++
          BitVec.ofBool d ++ BitVec.ofBool false : Word) =
        BitVec.ofNat 32 ((if d then 2 else 0) + (if e then 4 else 0) + (if freq then 8 else 0) +
          (if tree then 16 else 0) + (if table then 32 else 0) + (if o then 64 else 0)) := by decide
  rw [herr, State.statusWord, hb]
  exact bits _ _ _ _ _ _

theorem numSyms_eq (s : State) :
    s.numSyms = ((List.range 256).filter fun x => decide (1 ≤ (s.freqAt x).toNat)).length := by
  refine congrArg List.length (List.filter_congr fun x _ => decide_eq_decide.2 ?_)
  rw [← State.freqAt, Nat.one_le_iff_ne_zero, ne_eq, ne_eq, ← BitVec.toNat_inj]
  rfl

theorem presentSymbols_nil : presentSymbols [] = [] := by
  simp [presentSymbols, countAt]

theorem rootWord_eq (s : State) : (0#23 ++ s.root : Word) = s.root.setWidth 32 := by
  apply BitVec.eq_of_toNat_eq
  have := s.root.isLt
  rw [BitVec.toNat_append, BitVec.toNat_setWidth, Nat.mod_eq_of_lt (by omega)]
  simp

end Sys2Proof.Machine

open Sys2Proof Sys2Proof.Machine

/-- Settles O12: each clause from the fields that completion, acceptance and the two registers write. -/
theorem interruptIsTheDoneLevel : Obligations.InterruptIsTheDoneLevel := by
  intro s a v
  refine ⟨rfl, rfl, rfl, fun ha hv => ?_, fun ha hv => ?_⟩
  · rw [hostWrite_status ha, State.irq, writeStatus_done, hv]; simp
  · rw [hostWrite_ctrl ha, State.irq, writeCtrl_irqEn, hv]
    exact ⟨Bool.and_false _, rfl⟩

/-- Settles O13: the reset state evaluated, its arrays empty. -/
theorem resetGivesItsValues : Obligations.ResetGivesItsValues := by
  refine ⟨rfl, rfl, rfl, rfl, rfl, rfl, rfl, rfl, rfl, rfl, rfl, rfl, rfl, ?_, rfl, rfl, rfl, rfl, fun _ => ⟨rfl, rfl⟩,
    fun _ _ => ⟨rfl, rfl⟩, fun _ => ⟨rfl, rfl⟩, rfl, rfl, rfl, rfl, rfl, rfl, rfl⟩
  rw [readLoc, State.numSyms, reset_freq, presentSymbols_nil]; rfl

/-- Settles O14: the step handles the reset event. -/
theorem resetAbandonsThePendingCommand : Obligations.ResetAbandonsThePendingCommand := by
  intro s rest h
  exact ⟨applyReset { s with inputs := rest }, step_of_cons h, rfl, fun _ => ⟨rfl, rfl⟩⟩

/-- Settles O16: each offset names its register. -/
theorem idleRegisterReads : Obligations.IdleRegisterReads := by
  intro s hb reads
  have read : ∀ off v, off < 0x1000 → readLoc s (registerAt (off / 4)) = v → reads off v :=
    fun _ _ => hostRead_register hb
  refine ⟨read _ _ (by decide) rfl, read _ _ (by decide) rfl, read _ _ (by decide) rfl, read _ _ (by decide) rfl,
    read _ _ (by decide) rfl, read _ _ (by decide) (ctrlWord_eq s), read _ _ (by decide) rfl,
    read _ _ (by decide) (statusWord_eq hb), read _ _ (by decide) ?_, read _ _ (by decide) rfl, read _ _ (by decide) rfl,
    read _ _ (by decide) rfl, read _ _ (by decide) rfl, read _ _ (by decide) rfl,
    read _ _ (by decide) (congrArg (BitVec.ofNat 32) (numSyms_eq s)), read _ _ (by decide) rfl,
    read _ _ (by decide) (rootWord_eq s), read _ _ (by decide) rfl, read _ _ (by decide) rfl⟩
  show 0#24 ++ s.errCode.code = _
  cases s.errCode <;> rfl

/-- Settles O20: CTRL and STATUS take a write whatever BUSY is. -/
theorem controlAndStatusWrites : Obligations.ControlAndStatusWrites := by
  intro s a v
  refine ⟨fun ha => hostWrite_ctrl ha v, fun ha => ?_⟩
  rw [hostWrite_status ha, writeStatus]
  cases v.getLsbD 1 <;> cases v.getLsbD 6 <;> simp

/-- Settles O21: what the four locations store, the clamped values being below `2^32`. -/
theorem idleRegisterWritesStore : Obligations.IdleRegisterWritesStore := by
  intro s a v hb _
  have clamped : ∀ n, (BitVec.ofNat 32 (min v.toNat n)).toNat = min v.toNat n := fun n =>
    Nat.mod_eq_of_lt ((min_le_left _ _).trans_lt v.isLt)
  refine ⟨fun ha => ⟨_, clamped _, ?_⟩, fun ha => ⟨_, clamped _, ?_⟩, fun ha => ?_, fun ha => ?_⟩ <;>
    exact hostWrite_register hb ha (by decide) rfl v
end

section
/-! The address map, location by location (R61, R62, R68): where each location stands, and which one an address names. -/

namespace Sys2Proof.Machine

/-! Which entries of the windows exist, in numbers. -/

theorem existsIn_freq (p : Params) (x : Nat) : (Loc.freq x).existsIn p = true ↔ x < 256 := decide_eq_true_iff

theorem existsIn_node (p : Params) (i w : Nat) : (Loc.node i w).existsIn p = true ↔ i < 511 ∧ w < 4 :=
  Bool.and_eq_true_iff.trans (and_congr decide_eq_true_iff decide_eq_true_iff)

theorem existsIn_code (p : Params) (x w : Nat) : (Loc.code x w).existsIn p = true ↔ x < 256 ∧ w < 4 :=
  Bool.and_eq_true_iff.trans (and_congr decide_eq_true_iff decide_eq_true_iff)

theorem existsIn_sym (p : Params) (i : Nat) : (Loc.sym i).existsIn p = true ↔ i < p.nMax := decide_eq_true_iff

theorem existsIn_out (p : Params) (i : Nat) : (Loc.out i).existsIn p = true ↔ i < p.nMax := decide_eq_true_iff

theorem existsIn_pbuf (p : Params) (k : Nat) : (Loc.pbuf k).existsIn p = true ↔ k < 2 * p.wMax := decide_eq_true_iff

/-! The word of each entry names it. -/

section
variable {p : Params} {a : Addr}

theorem locate_freq {x : Nat} (hx : x < 256) (ha : 0x01000 + 4 * x = 4 * (a.toNat / 4)) : locate p a = .freq x := by
  have hentry : (a.toNat - 0x01000) / 4 = x := by omega
  simp (disch := omega) only [locate, locateByte, if_pos, if_neg, hentry]

theorem locate_node {i w : Nat} (hi : i < 511) (hw : w < 4) (ha : 0x02000 + 16 * i + 4 * w = 4 * (a.toNat / 4)) :
    locate p a = .node i w := by
  have hentry : (a.toNat - 0x02000) / 16 = i := by omega
  have hword : (a.toNat - 0x02000) / 4 % 4 = w := by omega
  simp (disch := omega) only [locate, locateByte, if_pos, if_neg, hentry, hword]

theorem locate_code {x w : Nat} (hx : x < 256) (hw : w < 4) (ha : 0x04000 + 16 * x + 4 * w = 4 * (a.toNat / 4)) :
    locate p a = .code x w := by
  have hentry : (a.toNat - 0x04000) / 16 = x := by omega
  have hword : (a.toNat - 0x04000) / 4 % 4 = w := by omega
  simp (disch := omega) only [locate, locateByte, if_pos, if_neg, hentry, hword]

theorem locate_sym {i : Nat} (hp : p.nMax ≤ 16384) (hi : i < p.nMax) (ha : 0x10000 + 4 * i = 4 * (a.toNat / 4)) :
    locate p a = .sym i := by
  have hentry : (a.toNat - 0x10000) / 4 = i := by omega
  simp (disch := omega) only [locate, locateByte, if_pos, if_neg, hentry]

theorem locate_out {i : Nat} (hp : p.nMax ≤ 16384) (hi : i < p.nMax) (ha : 0x20000 + 4 * i = 4 * (a.toNat / 4)) :
    locate p a = .out i := by
  have hentry : (a.toNat - 0x20000) / 4 = i := by omega
  simp (disch := omega) only [locate, locateByte, if_pos, if_neg, hentry]

theorem locate_pbuf {k : Nat} (hp : p.wMax ≤ 32768) (hk : k < 2 * p.wMax) (ha : 0x40000 + 4 * k = 4 * (a.toNat / 4)) :
    locate p a = .pbuf k := by
  have hentry : (a.toNat - 0x40000) / 4 = k := by omega
  simp (disch := omega) only [locate, locateByte, if_pos, if_neg, hentry]

end

/-- An address in the word of a location that exists names it, for legal capacities. -/
theorem locate_of_offset {p : Params} (hp : p.legal = true) {a : Addr} {l : Loc} (hl : l.existsIn p = true)
    (ha : l.offset = 4 * (a.toNat / 4)) : locate p a = l := by
  obtain ⟨-, hn, -, hw, -⟩ := (Params.legal_iff p).1 hp
  have hword : a.toNat / 4 = l.offset / 4 := by omega
  cases l with
  | freq x => exact locate_freq ((existsIn_freq p x).1 hl) ha
  | node i w =>
    obtain ⟨hi, hw⟩ := (existsIn_node p i w).1 hl
    exact locate_node hi hw ha
  | code x w =>
    obtain ⟨hx, hw⟩ := (existsIn_code p x w).1 hl
    exact locate_code hx hw ha
  | sym i => exact locate_sym hn ((existsIn_sym p i).1 hl) ha
  | out i => exact locate_out hn ((existsIn_out p i).1 hl) ha
  | pbuf k => exact locate_pbuf hw ((existsIn_pbuf p k).1 hl) ha
  | _ => exact locate_register p hword (by decide)

/-- The address of a location that exists names it, for legal capacities (R90). -/
theorem locate_addrOf {p : Params} (hp : p.legal = true) {l : Loc} (hl : l.existsIn p = true) :
    locate p (addrOf l) = l := by
  have haddr : l.offset < 2 ^ 20 ∧ l.offset % 4 = 0 := by
    obtain ⟨-, hn, -, hw, -⟩ := (Params.legal_iff p).1 hp
    cases l with
    | freq | node | code | sym | out | pbuf =>
      simp only [existsIn_freq, existsIn_node, existsIn_code, existsIn_sym, existsIn_out, existsIn_pbuf] at hl
      simp only [Loc.offset]
      omega
    | _ => exact ⟨by decide, rfl⟩
  refine locate_of_offset hp hl ?_
  rw [addrOf, BitVec.toNat_ofNat]
  omega

/-- A register of the page exists, and stands at its own word (R23 to R42). -/
theorem registerAt_sound (p : Params) {n : Nat} (h : registerAt n ≠ .reserved) :
    (registerAt n).existsIn p = true ∧ (registerAt n).offset = 4 * n := by
  by_cases hn : n < 19
  · interval_cases n <;> exact ⟨rfl, rfl⟩
  · exact absurd (List.getD_eq_default registerPage _ (not_lt.1 hn)) h

/-- What an address names exists, and stands at the aligned word of the address. -/
theorem locate_sound (p : Params) {a : Addr} (h : locate p a ≠ .reserved) :
    (locate p a).existsIn p = true ∧ (locate p a).offset = 4 * (a.toNat / 4) := by
  unfold locate at h ⊢
  obtain ⟨-, e⟩ | ⟨hlo, hhi, e⟩ | ⟨hlo, hhi, e⟩ | ⟨hlo, hhi, e⟩ | ⟨hlo, -, hcap, e⟩ | ⟨hlo, -, hcap, e⟩ |
    ⟨hlo, -, hcap, e⟩ | e := locateByte_cases p a.toNat
  pick_goal 8
  · exact absurd e h
  · rw [e] at h ⊢; exact registerAt_sound p h
  all_goals
    simp only [e, existsIn_freq, existsIn_node, existsIn_code, existsIn_sym, existsIn_out, existsIn_pbuf, Loc.offset]
    omega

end Sys2Proof.Machine

open Sys2Proof Sys2Proof.Machine

/-- Settles O15: what an address names exists and stands at its aligned word, and such a word names its location. -/
theorem addressMapNamesEachLocation : Obligations.AddressMapNamesEachLocation := by
  intro p a l hp hl
  refine ⟨?_, fun ⟨hex, ha⟩ => locate_of_offset hp hex ha⟩
  rintro rfl
  exact locate_sound p hl
end

section
/-! The host's reads: what an idle read of each window returns, and which bits of a busy read are free (R63, R66, R67, R70,
R194; 93 item 1). -/

namespace Sys2Proof.Machine

/-! Reads while BUSY = 0. -/

/-- An idle read of a location with no open bit returns its content (R66). -/
theorem hostRead_whole {s : State} (hb : s.busy = false) {a : Addr} {l : Loc} (hl : locate s.params a = l)
    (hm : idleMask s l = BitVec.allOnes 32) : hostRead a s = { s with replies := readLoc s l :: s.replies } := by
  simp only [hostRead, hl, hb, hm, if_true, Bool.false_eq_true, if_false, reply]

/-- An idle read at the offset of a location that exists and has no open bit returns its content (R66). -/
theorem hostRead_offset {s : State} (hb : s.busy = false) (hp : s.params.legal = true) {l : Loc}
    (hl : l.existsIn s.params = true) (hm : idleMask s l = BitVec.allOnes 32) {off : Nat} (hoff : l.offset = off)
    {v : Word} (hv : readLoc s l = v) : hostRead (BitVec.ofNat 20 off) s = { s with replies := v :: s.replies } := by
  subst hoff hv
  exact hostRead_whole hb (locate_addrOf hp hl) hm

/-- An idle read of a half of PBUF, bit by bit: its content where it is shown, and in any open bit the free value the read
draws (93 item 1). -/
theorem hostRead_pbuf {s : State} (hb : s.busy = false) {a : Addr} {k : Nat} (hl : locate s.params a = .pbuf k) :
    ∃ v d, hostRead a s = { s with replies := v :: s.replies, draws := d } ∧
      (∀ j < 32, v.getLsbD j =
        if (s.pbufShown k).getLsbD j then (s.pbufHalf k).getLsbD j else (Config.freeRead s.draws).getLsbD j) ∧
      d = if s.pbufShown k = BitVec.allOnes 32 then s.draws else s.draws + 1 := by
  by_cases hm : s.pbufShown k = BitVec.allOnes 32
  · refine ⟨s.pbufHalf k, s.draws, hostRead_whole hb hl hm, fun j hj => ?_, (if_pos hm).symm⟩
    rw [hm, BitVec.getLsbD_allOnes, decide_eq_true hj, if_pos rfl]
  · refine ⟨_, s.draws + 1, ?_, fun j hj => replyFree_bit (s.pbufHalf k) (s.pbufShown k) s j hj, (if_neg hm).symm⟩
    have hmask : idleMask s (.pbuf k) ≠ BitVec.allOnes 32 := hm
    simp only [hostRead, hl, hb, hmask, Bool.false_eq_true, if_false]
    rfl

theorem pbufAppended_eq (s : State) {k j : Nat} (hj : j < 32) :
    s.pbufAppended (32 * k + j) = (s.pbufMarks k).getLsbD j := by
  rw [State.pbufAppended, show (32 * k + j) / 32 = k by omega, show (32 * k + j) % 32 = j by omega]

/-- The shown bits of a half of PBUF, by stream position (93 item 1). -/
theorem pbufShown_iff (s : State) {k j : Nat} (hj : j < 32) :
    (s.pbufShown k).getLsbD j = true ↔
      k / 2 + 1 ≠ s.wordCount ∨ 32 * k + j < s.totalBits.toNat ∨ s.pbufAppended (32 * k + j) = true := by
  rw [pbufShown_getLsbD s k j hj, pbufAppended_eq s hj, Bool.or_eq_true, Bool.or_eq_true, decide_eq_true_iff,
    decide_eq_true_iff, or_assoc]

theorem eq_allOnes_iff (x : Word) : x = BitVec.allOnes 32 ↔ ∀ j < 32, x.getLsbD j = true := by
  refine ⟨fun h j hj => ?_, fun h => BitVec.eq_of_getLsbD_eq fun j hj => ?_⟩
  · rw [h, BitVec.getLsbD_allOnes, decide_eq_true hj]
  · rw [h j hj, BitVec.getLsbD_allOnes, decide_eq_true hj]

/-- A half of a word of PBUF, bit by bit (R64). -/
theorem pbufWord_getLsbD (s : State) {k j : Nat} (hj : j < 32) :
    (s.pbufWord (k / 2)).getLsbD (32 * (k % 2) + j) = (s.pbufHalf k).getLsbD j := by
  rw [State.pbufWord, BitVec.getLsbD_append]
  obtain h | h := Nat.mod_two_eq_zero_or_one k
  · rw [if_pos (by omega), show 2 * (k / 2) = k by omega, show 32 * (k % 2) + j = j by omega]
  · rw [if_neg (by omega), show 2 * (k / 2) + 1 = k by omega, show 32 * (k % 2) + j - 32 = j by omega]

theorem nodeWord_zero (n : Node) : nodeWord n 0 = BitVec.ofNat 32 (n.sym.toNat + if n.internal then 256 else 0) := by
  have bits : ∀ (i : Bool) (x : Byte),
      (0#23 ++ BitVec.ofBool i ++ x : Word) = BitVec.ofNat 32 (x.toNat + if i then 256 else 0) := by decide
  exact bits _ _

theorem codeWord_two (w : CodeWord) : codeWord (some w) 2 = BitVec.ofNat 32 (w.len.toNat + 256) := by
  have bits : ∀ x : BitVec 7, (0#23 ++ 1#1 ++ 0#1 ++ x : Word) = BitVec.ofNat 32 (x.toNat + 256) := by decide
  exact bits _

/-! Reads while BUSY = 1. -/

/-- The bits a busy read shows, by the aligned word of its address: the constants and CTRL, and three bits of STATUS (R194). -/
theorem stableMask_locate (p : Params) (a : Addr) :
    stableMask (locate p a) =
      if a.toNat / 4 ≤ 5 then BitVec.allOnes 32 else if a.toNat / 4 = 7 then statusBusyMask else 0 := by
  by_cases hpage : a.toNat / 4 < 0x400
  · rw [locate_register p rfl hpage]
    generalize a.toNat / 4 = n
    by_cases hn : n < 19
    · interval_cases n <;> rfl
    · rw [registerAt, List.getD_eq_default registerPage _ (not_lt.1 hn), if_neg (by omega), if_neg (by omega), stableMask]
  · rw [if_neg (by omega), if_neg (by omega), locate]
    obtain ⟨hlo, -⟩ | ⟨-, -, e⟩ | ⟨-, -, e⟩ | ⟨-, -, e⟩ | ⟨-, -, -, e⟩ | ⟨-, -, -, e⟩ | ⟨-, -, -, e⟩ | e :=
      locateByte_cases p a.toNat
    · omega
    all_goals rw [e]; rfl

/-- A busy read, bit by bit: the bits of `stableMask` are normal, every other is the free value the read draws (R194). -/
theorem hostRead_busy {s : State} (hb : s.busy = true) (a : Addr) :
    ∃ v, hostRead a s = { s with replies := v :: s.replies, draws := s.draws + 1 } ∧
      ∀ j < 32, v.getLsbD j =
        if (stableMask (locate s.params a)).getLsbD j then (readLoc s (locate s.params a)).getLsbD j
        else (Config.freeRead s.draws).getLsbD j :=
  ⟨_, if_pos hb, fun j hj => replyFree_bit _ _ s j hj⟩

/-- STATUS's bits BUSY, DONE and OVERRUN (R30). -/
theorem statusWord_busy_done_overrun (s : State) :
    s.statusWord.getLsbD 0 = s.busy ∧ s.statusWord.getLsbD 1 = s.done ∧ s.statusWord.getLsbD 6 = s.overrun := by
  have bits : ∀ o table tree freq e d b : Bool,
      let w : Word := 0#25 ++ BitVec.ofBool o ++ BitVec.ofBool table ++ BitVec.ofBool tree ++ BitVec.ofBool freq ++
        BitVec.ofBool e ++ BitVec.ofBool d ++ BitVec.ofBool b
      w.getLsbD 0 = b ∧ w.getLsbD 1 = d ∧ w.getLsbD 6 = o := by decide
  exact bits _ _ _ _ _ _ _

/-- The three stable bits of STATUS are bits 0, 1 and 6 (R194). -/
theorem statusBusyMask_getLsbD {k : Nat} (hk : k < 32) :
    statusBusyMask.getLsbD k = true ↔ k = 0 ∨ k = 1 ∨ k = 6 := by
  have bits : ∀ k < 32, statusBusyMask.getLsbD k = true ↔ k = 0 ∨ k = 1 ∨ k = 6 := by decide
  exact bits k hk

end Sys2Proof.Machine

open Sys2Proof Sys2Proof.Machine

/-- Settles O17: each entry of a window by its own address, and a half of PBUF bit by bit. -/
theorem idleWindowReads : Obligations.IdleWindowReads := by
  intro s hb hp reads
  have entry : ∀ (l : Loc) {off : Nat} {v : Word}, l.existsIn s.params = true → idleMask s l = BitVec.allOnes 32 →
      l.offset = off → readLoc s l = v → reads off v := fun _ _ _ hl hm hoff hv => hostRead_offset hb hp hl hm hoff hv
  refine ⟨?freq, ?node, ?code, ?noCode, ?memories, ?pbuf⟩
  case freq => exact fun x hx => entry (.freq x) ((existsIn_freq _ x).2 hx) rfl rfl rfl
  case node =>
    intro i hi n shown
    have word : ∀ (w : Nat) {off : Nat} {v : Word}, w < 4 → 0x02000 + 16 * i + 4 * w = off → nodeWord n w = v →
        reads off (shown v) := fun w _ _ hw hoff hv =>
      entry (.node i w) ((existsIn_node _ i w).2 ⟨hi, hw⟩) rfl hoff (congrArg shown hv)
    exact ⟨word 0 (by decide) rfl (nodeWord_zero n), word 1 (by decide) (by omega) rfl,
      word 2 (by decide) (by omega) (BitVec.setWidth_eq_append (by decide)).symm,
      word 3 (by decide) (by omega) (BitVec.setWidth_eq_append (by decide)).symm⟩
  case code =>
    intro x hx w hw
    have word : ∀ (k : Nat) {off : Nat} {v : Word}, k < 4 → 0x04000 + 16 * x + 4 * k = off → codeWord (some w) k = v →
        reads off v := fun k _ _ hk hoff hv =>
      entry (.code x k) ((existsIn_code _ x k).2 ⟨hx, hk⟩) rfl hoff (by rw [readLoc, hw, hv])
    exact ⟨word 0 (by decide) rfl rfl, word 1 (by decide) (by omega) rfl, word 2 (by decide) (by omega) (codeWord_two w),
      word 3 (by decide) (by omega) rfl⟩
  case noCode =>
    intro x hx hnone k hk
    exact entry (.code x k) ((existsIn_code _ x k).2 ⟨hx, hk⟩) rfl rfl (by rw [readLoc, hnone, codeWord])
  case memories =>
    intro i hi
    have widen : ∀ b : Byte, 0#24 ++ b = b.setWidth 32 := fun b => (BitVec.setWidth_eq_append (by decide)).symm
    exact ⟨entry (.sym i) ((existsIn_sym _ i).2 hi) rfl rfl (widen _),
      entry (.out i) ((existsIn_out _ i).2 hi) rfl rfl (by rw [readLoc, widen])⟩
  case pbuf =>
    intro k hk shown
    obtain ⟨v, d, hread, hbits, hd⟩ := hostRead_pbuf hb (locate_addrOf hp ((existsIn_pbuf _ k).2 hk))
    have hshown : ∀ j < 32, (s.pbufShown k).getLsbD j = true ↔ shown j := fun j hj => pbufShown_iff s hj
    have hall : s.pbufShown k = BitVec.allOnes 32 ↔ ∀ j < 32, shown j :=
      (eq_allOnes_iff _).trans (forall₂_congr hshown)
    refine ⟨v, d, hread, fun j hj => ⟨fun h => ?_, fun h => ?_⟩, fun h => ?_, fun ⟨j, hj, h⟩ => ?_⟩
    · rw [hbits j hj, if_pos ((hshown j hj).2 h), pbufWord_getLsbD s hj]
    · rw [hbits j hj, if_neg (mt (hshown j hj).1 h)]
    · rw [hd, if_pos (hall.2 h)]
    · rw [hd, if_neg fun hm => h (hall.1 hm j hj)]

/-- Settles O18: a busy read shows the bits of `stableMask`, which the aligned word of the address fixes. -/
theorem busyReadsAreFree : Obligations.BusyReadsAreFree := by
  intro s a hb
  obtain ⟨v, hread, hbits⟩ := hostRead_busy hb a
  have hmask := stableMask_locate s.params a
  refine ⟨v, hread, fun ha => BitVec.eq_of_getLsbD_eq fun j hj => ?_, fun ha => ?_, fun ha k hk hfree => ?_⟩
  · rw [if_pos ha] at hmask
    rw [hbits j hj, hmask, BitVec.getLsbD_allOnes, decide_eq_true hj, if_pos rfl]
  · rw [if_neg (by omega), if_pos ha] at hmask
    have hloc : locate s.params a = .status := locate_register s.params ha (by decide)
    have hstable : ∀ k < 32, (k = 0 ∨ k = 1 ∨ k = 6) → v.getLsbD k = s.statusWord.getLsbD k := fun k hk h => by
      rw [hbits k hk, hmask, if_pos ((statusBusyMask_getLsbD hk).2 h), hloc, readLoc]
    obtain ⟨hbusy, hdone, hoverrun⟩ := statusWord_busy_done_overrun s
    exact ⟨(hstable 0 (by decide) (by decide)).trans (hbusy.trans hb), (hstable 1 (by decide) (by decide)).trans hdone,
      (hstable 6 (by decide) (by decide)).trans hoverrun⟩
  · rw [if_neg (by omega)] at hmask
    rw [hbits k hk, hmask]
    by_cases hstatus : a.toNat / 4 = 7
    · rw [if_pos hstatus, if_neg (mt (statusBusyMask_getLsbD hk).1 fun h => hfree ⟨hstatus, h⟩)]
    · rw [if_neg hstatus, if_neg (by simp)]

/-- Settles O24: the frame of a read. -/
theorem readsHaveNoSideEffect : Obligations.ReadsHaveNoSideEffect := fun s a => hostRead_frame a s
end

section
/-! The host's writes: what an idle write of SYM_MEM or PBUF stores, and which writes are ignored (R63, R64, R66). -/

namespace Sys2Proof.Machine

/-- An idle write of a location that BUSY = 1 would drop stores it (R66). -/
theorem hostWrite_stores {s : State} (hb : s.busy = false) {a : Addr} {l : Loc} (hl : locate s.params a = l)
    (hd : droppedWhileBusy l = true) (v : Word) : hostWrite a v s = storeLoc v s l := by
  subst hl
  unfold hostWrite
  split
  · rename_i hl; rw [hl] at hd; exact absurd hd Bool.false_ne_true
  · rename_i hl; rw [hl] at hd; exact absurd hd Bool.false_ne_true
  · rw [hb, Bool.and_false]; rfl

/-- A location whose writes BUSY = 1 drops is no read-only one. -/
theorem readOnly_of_dropped {l : Loc} (hd : droppedWhileBusy l = true) : l.readOnly = false := by
  unfold Loc.readOnly
  split
  · rfl
  · rfl
  · rw [hd]; rfl

theorem symAt_storeLoc_sym (v : Word) (s : State) (i j : Nat) :
    (storeLoc v s (.sym i)).symAt j = if j = i then v.extractLsb' 0 8 else s.symAt j := by
  show (Store.find (Store.put i _ s.symMem) j).getD (Config.freeSym s.resets j) = _
  rw [Store.find_put]
  split <;> rfl

theorem pbufHalf_storeLoc_pbuf (v : Word) (s : State) (k j : Nat) :
    (storeLoc v s (.pbuf k)).pbufHalf j = if j = k then v else s.pbufHalf j := by
  show ((Store.find (Store.put k _ s.pbuf) j).map PbufHalf.bits).getD (Config.freePbuf s.resets j) = _
  rw [Store.find_put]
  split <;> rfl

theorem pbufMarks_storeLoc_pbuf (v : Word) (s : State) (k j : Nat) :
    (storeLoc v s (.pbuf k)).pbufMarks j = if j = k then 0 else s.pbufMarks j := by
  show ((Store.find (Store.put k _ s.pbuf) j).map PbufHalf.appended).getD 0 = _
  rw [Store.find_put]
  split <;> rfl

theorem pbufAppended_storeLoc_pbuf (v : Word) (s : State) (k q : Nat) :
    (storeLoc v s (.pbuf k)).pbufAppended q = (s.pbufAppended q && decide (q / 32 ≠ k)) := by
  rw [State.pbufAppended, State.pbufAppended, pbufMarks_storeLoc_pbuf]
  by_cases h : q / 32 = k <;> simp [h]

/-- A write of one half of word `k / 2` keeps every other word (R64). -/
theorem pbufWord_storeLoc_pbuf_ne (v : Word) (s : State) {k u : Nat} (h : u ≠ k / 2) :
    (storeLoc v s (.pbuf k)).pbufWord u = s.pbufWord u := by
  rw [State.pbufWord, State.pbufWord, pbufHalf_storeLoc_pbuf, pbufHalf_storeLoc_pbuf, if_neg (by omega), if_neg (by omega)]

theorem pbufWord_storeLoc_low (v : Word) (s : State) (w : Nat) :
    (storeLoc v s (.pbuf (2 * w))).pbufWord w = (s.pbufWord w).extractLsb' 32 32 ++ v := by
  rw [State.pbufWord, State.pbufWord, pbufHalf_storeLoc_pbuf, pbufHalf_storeLoc_pbuf, if_neg (by omega), if_pos rfl,
    BitVec.extractLsb'_append_eq_left]

theorem pbufWord_storeLoc_high (v : Word) (s : State) (w : Nat) :
    (storeLoc v s (.pbuf (2 * w + 1))).pbufWord w = v ++ (s.pbufWord w).extractLsb' 0 32 := by
  rw [State.pbufWord, State.pbufWord, pbufHalf_storeLoc_pbuf, pbufHalf_storeLoc_pbuf, if_pos rfl, if_neg (by omega),
    BitVec.extractLsb'_append_eq_right]

end Sys2Proof.Machine

open Sys2Proof Sys2Proof.Machine

/-- Settles O22: the location of each entry, and what its store reads as afterwards. -/
theorem idleWindowWritesStore : Obligations.IdleWindowWritesStore := by
  intro s v hb hp
  have stores : ∀ (l : Loc) {off : Nat}, l.existsIn s.params = true → droppedWhileBusy l = true → l.offset = off →
      hostWrite (BitVec.ofNat 20 off) v s = storeLoc v s l := by
    rintro l _ hl hd rfl
    exact hostWrite_stores hb (locate_addrOf hp hl) hd v
  refine ⟨fun i hi => ⟨_, stores (.sym i) ((existsIn_sym _ i).2 hi) rfl rfl, rfl, ?_, fun j hj => ?_⟩, fun w hw =>
    ⟨⟨_, stores (.pbuf (2 * w)) ((existsIn_pbuf _ _).2 (by omega)) rfl ?_, rfl, pbufWord_storeLoc_low v s w,
        fun u hu => pbufWord_storeLoc_pbuf_ne v s (by omega), pbufAppended_storeLoc_pbuf v s _⟩,
      ⟨_, stores (.pbuf (2 * w + 1)) ((existsIn_pbuf _ _).2 (by omega)) rfl ?_, rfl, pbufWord_storeLoc_high v s w,
        fun u hu => pbufWord_storeLoc_pbuf_ne v s (by omega), pbufAppended_storeLoc_pbuf v s _⟩⟩⟩
  · rw [symAt_storeLoc_sym, if_pos rfl, BitVec.extractLsb'_toNat, Nat.shiftRight_zero]
  · rw [symAt_storeLoc_sym, if_neg hj]
  · rw [Loc.offset]; omega
  · rw [Loc.offset]; omega

/-- Settles O23: no end of a write but the ignored one has a read-only location, and a reserved one holds 0. -/
theorem readOnlyAndReservedAddresses : Obligations.ReadOnlyAndReservedAddresses := by
  intro s a v
  refine ⟨fun hro => ?_, fun hb hl => hostRead_whole hb hl rfl⟩
  obtain ⟨hl, -⟩ | ⟨hl, -⟩ | ⟨hd, -⟩ | ⟨hd, -⟩ | ⟨-, e⟩ := hostWrite_cases a v s
  · rw [hl] at hro; exact absurd hro Bool.false_ne_true
  · rw [hl] at hro; exact absurd hro Bool.false_ne_true
  · exact absurd ((readOnly_of_dropped hd).symm.trans hro) Bool.false_ne_true
  · exact absurd ((readOnly_of_dropped hd).symm.trans hro) Bool.false_ne_true
  · exact e

/-- Settles O6: a step handles the first event, and the ENGINE's turn with nothing pending is idle. -/
theorem eventsHappenInOrder : Obligations.EventsHappenInOrder := fun _ _ =>
  ⟨fun _ => step_of_cons, fun _ _ => step_of_cons, step_of_cons,
    fun hp h => (step_of_cons h).trans (engineStep_of_none hp), fun hp h => (step_of_nil h).trans (engineStep_of_none hp)⟩
end

section
/-! Noninterference: what the host does while BUSY = 1 reaches five fields, and no command reads them (R88, R194). -/

namespace Sys2Proof.Machine

/-- `s` with the fields of `h` in which an access of a busy block shows: CTRL, DONE, OVERRUN and the model's bookkeeping of
reads (R194). -/
def showing (h s : State) : State :=
  { s with irqEn := h.irqEn, done := h.done, overrun := h.overrun, replies := h.replies, draws := h.draws }

/-- A computation that has come to its end, or goes on, with the fields of `h` that show an access. -/
def Progress.showing (h : State) : Progress → Progress
  | .running s => .running (Machine.showing h s)
  | .ended s => .ended (Machine.showing h s)

theorem state_showing (h : State) (p : Progress) : (p.showing h).state = showing h p.state := by
  cases p <;> rfl

/-- A computation that does not read the fields that show an access, and leaves them as they are. -/
def Blind (f : State → Progress) : Prop := ∀ h s, f (showing h s) = (f s).showing h

/-! Parts that are blind make a blind whole. -/

theorem Blind.andThen {f g : State → Progress} (hf : Blind f) (hg : Blind g) : Blind fun s => (f s).andThen g := by
  intro h s
  show (f (showing h s)).andThen g = ((f s).andThen g).showing h
  rw [hf h s]
  cases f s with
  | running t => exact hg h t
  | ended t => rfl

theorem Blind.ite {c : State → Prop} [DecidablePred c] {f g : State → Progress}
    (hc : ∀ h s, c (showing h s) = c s) (hf : Blind f) (hg : Blind g) : Blind fun s => if c s then f s else g s := by
  intro h s
  simp only [hc, hf h s, hg h s, apply_ite (Progress.showing h)]

theorem blind_raise (e : ErrCode) (info : Word) : Blind (raise e info) := fun _ _ => rfl

/-! The commands, part by part. -/

theorem appendLoop_showing (h : State) (v : Dword) (j k : Nat) (s : State) :
    appendLoop v j k (showing h s) = showing h (appendLoop v j k s) := by
  induction k generalizing j s with
  | zero => rfl
  | succ k ih => exact ih (j + 1) (appendBit (v.getLsbD j) s)

theorem blind_appendBits (v : Dword) (n : Nat) (info : Word) : Blind (appendBits v n info) :=
  .ite (fun _ _ => rfl) (fun _ _ => rfl)
    (.ite (fun _ _ => rfl) (blind_raise _ _) fun h s => congrArg Progress.running (appendLoop_showing h v 0 n s))

theorem blind_packSymbol (i : Nat) : Blind (packSymbol i) := by
  intro h s
  have hcode : (showing h s).codeAt ((showing h s).symAt i).toNat = s.codeAt (s.symAt i).toNat := rfl
  rw [packSymbol, packSymbol, hcode]
  cases s.codeAt (s.symAt i).toNat with
  | none => rfl
  | some w => exact blind_appendBits _ _ _ h s

theorem blind_packLoop (i k : Nat) : Blind (packLoop i k) := by
  induction k generalizing i with
  | zero => exact fun _ _ => rfl
  | succ k ih => exact (blind_packSymbol i).andThen (ih (i + 1))

theorem blind_runPack : Blind runPack :=
  .ite (fun _ _ => rfl) (fun h s => blind_packLoop 0 s.inLen.toNat h (emptyBuffer s)) (blind_raise _ _)

theorem blind_decodeBit (p : Nat) : Blind (decodeBit p) := by
  refine .ite (fun _ _ => rfl) (blind_raise _ _) fun h s => ?_
  have hgrown : growCandidate (showing h s).cand ((showing h s).pbufBit p) = growCandidate s.cand (s.pbufBit p) := rfl
  have hcode : (showing h s).code = s.code := rfl
  simp only [hgrown, hcode]
  cases lookup s.code (growCandidate s.cand (s.pbufBit p)).value (growCandidate s.cand (s.pbufBit p)).len with
  | none => rfl
  | some x =>
    have hfull : Blind fun u => if u.outLen.toNat = u.params.nMax then raise .outOverflow (BitVec.ofNat 32 p) u
        else .running (emitSymbol x u) := .ite (fun _ _ => rfl) (blind_raise _ _) fun _ _ => rfl
    exact hfull h { s with cand := growCandidate s.cand (s.pbufBit p) }

theorem blind_decodeLoop (p k : Nat) : Blind (decodeLoop p k) := by
  induction k generalizing p with
  | zero => exact fun _ _ => rfl
  | succ k ih => exact (blind_decodeBit p).andThen (ih (p + 1))

theorem blind_decodeEnd : Blind decodeEnd :=
  .ite (fun _ _ => rfl) (fun _ _ => rfl) fun _ _ => rfl

theorem blind_runDecode : Blind runDecode :=
  .ite (fun _ _ => rfl) (.andThen (fun h s => blind_decodeLoop 0 s.totalBits.toNat h (startDecode s)) blind_decodeEnd)
    (blind_raise _ _)

theorem blind_runBuild : Blind runBuild :=
  .ite (fun _ _ => rfl)
    (.ite (fun _ _ => rfl) (fun _ _ => rfl) (.ite (fun _ _ => rfl) (fun _ _ => rfl) fun _ _ => rfl)) (blind_raise _ _)

theorem blind_runGencode : Blind runGencode := by
  refine .ite (fun _ _ => rfl) (.ite (fun _ _ => rfl) (fun h s => ?_) fun _ _ => rfl) (blind_raise _ _)
  have hwalk : walk (showing h s).nodeAt Config.maxCodeLen (showing h s).root.toNat 0 [] [] =
      walk s.nodeAt Config.maxCodeLen s.root.toNat 0 [] [] := rfl
  simp only [hwalk]
  cases walk s.nodeAt Config.maxCodeLen s.root.toNat 0 [] [] with
  | tooLong n stack => rfl
  | recorded table => rfl

theorem blind_runEncode : Blind runEncode :=
  .ite (fun _ _ => rfl) (blind_raise _ _)
    (.andThen (.andThen (.andThen (fun _ _ => rfl) blind_runBuild) blind_runGencode) blind_runPack)

theorem blind_pseudocode (i : Instr) : Blind (pseudocode i) := by
  cases i with
  | build => exact blind_runBuild
  | gencode => exact blind_runGencode
  | pack => exact blind_runPack
  | encode => exact blind_runEncode
  | decode => exact blind_runDecode
  | append len => exact fun h s => blind_appendBits s.appValue len.toNat 0 h s
  | _ => exact fun _ _ => rfl

/-- A command that runs in a state an access has touched ends in the state it would have ended in, touched the same way. -/
theorem exec_showing {i : Instr} {s t : State} (h : exec i s = .next t) (u : State) :
    exec i (showing u s) = .next (showing u t) := by
  rw [exec_eq, blind_pseudocode, state_showing, eq_of_exec h]

/-! An access of a busy block. -/

theorem hostRead_eq_showing (a : Addr) (s : State) : hostRead a s = showing (hostRead a s) s := by
  rw [hostRead_frame]
  rfl

/-- A write while BUSY = 1 writes CTRL or STATUS, or sets OVERRUN, or is ignored (R194). -/
theorem hostWrite_eq_showing {s : State} (hb : s.busy = true) (a : Addr) (v : Word) :
    hostWrite a v s = showing (hostWrite a v s) s := by
  obtain ⟨-, e⟩ | ⟨-, e⟩ | ⟨-, -, e⟩ | ⟨-, hidle, -⟩ | ⟨-, e⟩ := hostWrite_cases a v s
  · rw [e]; rfl
  · rw [e]; rfl
  · rw [e]; rfl
  · exact absurd (hb.symm.trans hidle) Bool.noConfusion
  · rw [e]; rfl

end Sys2Proof.Machine

open Sys2Proof Sys2Proof.Machine

/-- Settles O11: an access of a busy block shows in fields that no command reads. -/
theorem busyCommandIgnoresTheHost : Obligations.BusyCommandIgnoresTheHost := by
  intro i s t a hb hexec
  obtain ⟨-, hirq, hdone, hoverrun, -, -, -, -, -, -, hreplies, -, hdraws⟩ := commandsKeepTheHostsState i s t hexec
  refine ⟨fun v => ?_, ?_⟩
  · have hr : (hostWrite a v s).replies = t.replies := (congrArg State.replies (hostWrite_frame a v s)).trans hreplies.symm
    have hd : (hostWrite a v s).draws = t.draws := (congrArg State.draws (hostWrite_frame a v s)).trans hdraws.symm
    conv_lhs => rw [hostWrite_eq_showing hb, exec_showing hexec, showing, hr, hd]
  · have hi : (hostRead a s).irqEn = t.irqEn := (congrArg State.irqEn (hostRead_frame a s)).trans hirq.symm
    have hn : (hostRead a s).done = t.done := (congrArg State.done (hostRead_frame a s)).trans hdone.symm
    have ho : (hostRead a s).overrun = t.overrun := (congrArg State.overrun (hostRead_frame a s)).trans hoverrun.symm
    conv_lhs => rw [hostRead_eq_showing, exec_showing hexec, showing, hi, hn, ho]
end

section
/-! Command words: the fields of a word as numbers, and which words are commands (R80 to R85). -/

namespace Sys2Proof.Machine

/-! The fields of a word. -/

theorem toNat_opcodeField (c : Word) : (opcodeField c).toNat = c.toNat % 2 ^ 8 := by
  rw [opcodeField, BitVec.extractLsb'_toNat, Nat.shiftRight_zero]

theorem toNat_lenField (c : Word) : (lenField c).toNat = c.toNat / 2 ^ 8 % 2 ^ 7 := by
  rw [lenField, BitVec.extractLsb'_toNat, Nat.shiftRight_eq_div_pow]

theorem toNat_rsvdField (c : Word) : (rsvdField c).toNat = c.toNat / 2 ^ 15 := by
  rw [rsvdField, BitVec.extractLsb'_toNat, Nat.shiftRight_eq_div_pow, Nat.mod_eq_of_lt (by have := c.isLt; omega)]

/-- A word is its three fields (R80). -/
theorem word_ext {c d : Word} (hrsvd : rsvdField c = rsvdField d) (hlen : lenField c = lenField d)
    (hop : opcodeField c = opcodeField d) : c = d := by
  simp only [← BitVec.toNat_inj, toNat_rsvdField, toNat_lenField, toNat_opcodeField] at *
  omega

theorem encodedFields (i : Instr) : Laws.EncodedFields.Statement i := by
  cases i with
  | nop => exact Laws.EncodedFields.nop
  | clear => exact Laws.EncodedFields.clear
  | count => exact Laws.EncodedFields.count
  | build => exact Laws.EncodedFields.build
  | gencode => exact Laws.EncodedFields.gencode
  | pack => exact Laws.EncodedFields.pack
  | encode => exact Laws.EncodedFields.encode
  | decode => exact Laws.EncodedFields.decode
  | append len => exact Laws.EncodedFields.append len
  | pbclr => exact Laws.EncodedFields.pbclr

theorem encode_eq_iff (c : Word) (i : Instr) :
    encode i = c ↔ rsvdField c = 0 ∧ lenField c = lenOf i ∧ opcodeField c = opcodeOf i := by
  obtain ⟨hrsvd, hlen, hop⟩ := encodedFields i
  constructor
  · rintro rfl
    exact ⟨hrsvd, hlen, hop⟩
  · rintro ⟨hr, hl, ho⟩
    exact word_ext (hrsvd.trans hr.symm) (hlen.trans hl.symm) (hop.trans ho.symm)

/-! The decoder. -/

theorem commandOf_opcodeOf (i : Instr) : commandOf (opcodeOf i) (lenOf i) = some i := by
  cases i <;> rfl

/-- The command of an opcode, which takes its LEN only if it is an APPEND (R82). -/
theorem commandOf_eq_some {op : BitVec 8} {len : BitVec 7} {i : Instr} (h : commandOf op len = some i) :
    opcodeOf i = op ∧ ∀ l, i = .append l → l = len := by
  unfold commandOf at h
  iterate 10
    obtain ⟨rfl, e⟩ | ⟨-, h⟩ := ite_eq_cases h
    · obtain rfl := Option.some.inj e
      exact ⟨rfl, by rintro l ⟨⟩ <;> rfl⟩
  cases h

/-- No command but APPEND has an operand, and every such command is well formed (R80, R83). -/
theorem lenOf_eq_zero {i : Instr} (h : ∀ len, i = .append len → False) : lenOf i = 0 ∧ i.wf = true := by
  cases i with
  | append len => exact (h len rfl).elim
  | _ => exact ⟨rfl, rfl⟩

theorem wf_append_iff (len : BitVec 7) : (Instr.append len).wf = true ↔ len.toNat ≤ 64 := decide_eq_true_iff

/-- What the decoder accepts, field by field (R83). -/
theorem decode_eq_ok_iff (c : Word) (i : Instr) :
    decode c = .ok i ↔ i.wf = true ∧ rsvdField c = 0 ∧ lenField c = lenOf i ∧ opcodeField c = opcodeOf i := by
  constructor
  · intro h
    unfold decode at h
    obtain ⟨-, h⟩ | ⟨hrsvd, h⟩ := ite_eq_cases h
    · cases h
    · split at h
      · cases h
      · rename_i len hcmd
        obtain ⟨hlong, h⟩ | ⟨hfit, h⟩ := ite_eq_cases h
        · cases h
        · obtain rfl := Except.ok.inj h
          obtain ⟨hop, hlen⟩ := commandOf_eq_some hcmd
          exact ⟨(wf_append_iff len).2 (not_lt.1 hfit), not_not.1 hrsvd, (hlen len rfl).symm, hop.symm⟩
      · rename_i j hother hcmd
        obtain ⟨hlen, h⟩ | ⟨hlen, h⟩ := ite_eq_cases h
        · cases h
        · obtain rfl := Except.ok.inj h
          obtain ⟨hzero, hwf⟩ := lenOf_eq_zero hother
          exact ⟨hwf, not_not.1 hrsvd, (not_not.1 hlen).trans hzero.symm, (commandOf_eq_some hcmd).1.symm⟩
  · rintro ⟨hwf, hrsvd, hlen, hop⟩
    rw [decode, hop, hlen, commandOf_opcodeOf, if_neg (not_not.2 hrsvd)]
    cases i with
    | append len => exact if_neg (not_lt.2 ((wf_append_iff len).1 hwf))
    | _ => exact if_neg (not_not.2 rfl)

/-! The legal words. -/

theorem legal_iff (c : Word) :
    legal c = true ↔ rsvdField c = 0 ∧ (opcodeField c).toNat ≤ 9 ∧
      if opcodeField c = 8#8 then (lenField c).toNat ≤ 64 else lenField c = 0 := by
  unfold legal
  split <;> simp only [Bool.and_eq_true, decide_eq_true_eq, and_assoc]

theorem legal_iff_toNat (c : Word) :
    legal c = true ↔ c.toNat / 2 ^ 15 = 0 ∧ c.toNat % 2 ^ 8 ≤ 9 ∧
      if c.toNat % 2 ^ 8 = 8 then c.toNat / 2 ^ 8 % 2 ^ 7 ≤ 64 else c.toNat / 2 ^ 8 % 2 ^ 7 = 0 := by
  simp only [legal_iff, ← BitVec.toNat_inj, toNat_rsvdField, toNat_opcodeField, toNat_lenField]
  rfl

/-- The opcodes and the LEN fields of the commands (R82, R83 items 2 and 3). -/
theorem exists_command_iff (op : BitVec 8) (len : BitVec 7) :
    (∃ i : Instr, i.wf = true ∧ len = lenOf i ∧ op = opcodeOf i) ↔
      op.toNat ≤ 9 ∧ if op = 8#8 then len.toNat ≤ 64 else len = 0 := by
  constructor
  · rintro ⟨i, hwf, rfl, rfl⟩
    cases i with
    | append len => exact ⟨(by decide : (8#8).toNat ≤ 9), (wf_append_iff len).1 hwf⟩
    | _ => exact ⟨by decide, rfl⟩
  · rintro ⟨hop, hlen⟩
    by_cases happend : op = 8#8
    · rw [if_pos happend] at hlen
      exact ⟨.append len, (wf_append_iff len).2 hlen, rfl, happend⟩
    · rw [if_neg happend] at hlen
      have others : ∀ op : BitVec 8, op.toNat ≤ 9 → op ≠ 8#8 →
          ∃ i ∈ [Instr.nop, .clear, .count, .build, .gencode, .pack, .encode, .decode, .pbclr],
            i.wf = true ∧ 0 = lenOf i ∧ op = opcodeOf i := by decide
      obtain ⟨i, -, hi⟩ := others op hop happend
      exact ⟨i, hlen ▸ hi⟩

/-- Exactly the legal words are commands (R83, R85). -/
theorem exists_decode_iff (c : Word) : (∃ i, decode c = .ok i) ↔ legal c = true := by
  rw [legal_iff, ← exists_command_iff, ← exists_and_left]
  exact exists_congr fun i => (decode_eq_ok_iff c i).trans and_left_comm

theorem decode_of_illegal {c : Word} (h : legal c = false) : ∃ e, decode c = .error e := by
  cases hd : decode c with
  | error e => exact ⟨e, rfl⟩
  | ok i => exact absurd (h.symm.trans ((exists_decode_iff c).1 ⟨i, hd⟩)) Bool.false_ne_true

end Sys2Proof.Machine

open Sys2Proof Sys2Proof.Machine

/-- Settles O2: both sides say the three fields of the word. -/
theorem decodeEncodeAgree : Obligations.DecodeEncodeAgree := fun c i =>
  (decode_eq_ok_iff c i).trans (and_congr_right fun _ => (encode_eq_iff c i).symm)

/-- Settles O3: the fields of the word as numbers, and the fields of the commands. -/
theorem legalWordsAreCommands : Obligations.LegalWordsAreCommands := fun c =>
  ⟨legal_iff_toNat c, exists_decode_iff c⟩

/-- Settles O1: each word decoded. -/
theorem specCommandWordsDecode : Obligations.SpecCommandWordsDecode := by
  unfold Obligations.SpecCommandWordsDecode
  decide
end

section
/-! The command lifecycle: the write of CMD, the ENGINE's turn, and the runs of a few steps (R87 to R89, R160, R197). -/

namespace Sys2Proof.Machine

/-! Acceptance. -/

/-- A write to a location that BUSY = 1 drops only sets OVERRUN then (R179, R194). -/
theorem hostWrite_drops {s : State} (hb : s.busy = true) {a : Addr} {l : Loc} (hl : locate s.params a = l)
    (hd : droppedWhileBusy l = true) (v : Word) : hostWrite a v s = dropWrite s := by
  subst hl
  obtain ⟨hl, -⟩ | ⟨hl, -⟩ | ⟨-, -, e⟩ | ⟨-, hidle, -⟩ | ⟨hl, -⟩ := hostWrite_cases a v s
  · rw [hl] at hd; exact absurd hd Bool.false_ne_true
  · rw [hl] at hd; exact absurd hd Bool.false_ne_true
  · exact e
  · exact absurd (hidle.symm.trans hb) Bool.false_ne_true
  · exact absurd (hl.symm.trans hd) Bool.false_ne_true

theorem hostWrite_cmd_busy {s : State} (hb : s.busy = true) {a : Addr} (ha : a.toNat / 4 = 0x018 / 4) (c : Word) :
    hostWrite a c s = dropWrite s :=
  hostWrite_drops hb (locate_register s.params ha (by decide)) rfl c

theorem hostWrite_cmd_idle {s : State} (hb : s.busy = false) {a : Addr} (ha : a.toNat / 4 = 0x018 / 4) (c : Word) :
    hostWrite a c s = accept c s :=
  hostWrite_register hb ha (by decide) rfl c

/-! The ENGINE's turn. -/

/-- The ENGINE's turn comes as the next event, or when no event is left (R88, R197; log 6). -/
theorem step_of_turn {s : State} (h : s.inputs = [] ∨ s.inputs.head? = some .engine) :
    step s = engineStep { s with inputs := s.inputs.tail } := by
  cases hi : s.inputs with
  | nil => rw [step_of_nil hi, List.tail_nil, ← hi]
  | cons e rest =>
    rw [hi] at h
    obtain rfl : e = .engine := by simpa using h
    exact step_of_cons hi

/-- A word put in place by `withFetchWord` stands where its acceptance puts it, and the ENGINE's turn is next (log 9). -/
theorem step_withFetchWord (s : State) (c : Word) : step (s.withFetchWord 32 c.toNat) = engineStep (accept c s) := by
  rw [State.withFetchWord, Nat.mod_eq_of_lt c.isLt, BitVec.ofNat_toNat, BitVec.setWidth_eq]
  exact step_of_cons (s := { accept c s with inputs := .engine :: s.inputs }) rfl

/-- The ENGINE's turn performs the pending word's command and completes it (R85, R88, R89). -/
theorem engineStep_of_command {s t : State} {c : Word} {i : Instr} (hp : s.pending = some c) (hd : decode c = .ok i)
    (hexec : exec i s = .next t) : engineStep s = .next (complete t) := by
  rw [engineStep_of_some hp, perform_of_ok hd, hexec, thenComplete_next]

/-- The ENGINE's turn reports an illegal word and completes it (R84, R89). -/
theorem engineStep_of_illegal {s : State} {c : Word} (hp : s.pending = some c) {e : Illegal} (hd : decode c = .error e) :
    engineStep s = .next (complete { s with errCode := .illegalCmd, errInfo := c }) := by
  rw [engineStep_of_some hp, perform_of_error hd, thenComplete_next]

/-- The ENGINE's turn completes whatever word is pending, and keeps IRQ_EN and the events to come (R89). -/
theorem engineStep_completes {s : State} {c : Word} (hp : s.pending = some c) :
    ∃ u, engineStep s = .next (complete u) ∧ u.irqEn = s.irqEn ∧ u.inputs = s.inputs := by
  cases hd : decode c with
  | error e => exact ⟨_, engineStep_of_illegal hp hd, rfl, rfl⟩
  | ok i =>
    obtain ⟨-, hirq, -, -, -, -, -, -, -, hinputs, -⟩ := commandsKeepTheHostsState i s _ (exec_eq i s)
    exact ⟨_, engineStep_of_command hp hd (exec_eq i s), hirq, hinputs⟩

/-- An access of a block with a command pending leaves it pending (R88). -/
theorem step_access {s : State} {c : Word} (hp : s.pending = some c) {e : Event} (he : e.isAccess = true)
    {rest : List Event} (hi : s.inputs = e :: rest) :
    ∃ u, step s = .next u ∧ u.pending = some c ∧ u.inputs = rest := by
  rw [step_of_cons hi]
  cases e with
  | read a => exact ⟨_, rfl, by rw [hostRead_eq_showing]; exact ⟨hp, rfl⟩⟩
  | write a v =>
    have hb : s.busy = true := by rw [State.busy, hp]; rfl
    exact ⟨_, rfl, by rw [hostWrite_eq_showing (s := { s with inputs := rest }) hb]; exact ⟨hp, rfl⟩⟩
  | reset | engine => exact absurd he Bool.false_ne_true

theorem engineStep_safe (s : State) : ∃ t, engineStep s = .next t := by
  cases hp : s.pending with
  | none => exact ⟨s, engineStep_of_none hp⟩
  | some c =>
    obtain ⟨u, hu, -⟩ := engineStep_completes hp
    exact ⟨complete u, hu⟩

theorem step_safe (s : State) : Safe s := by
  cases hi : s.inputs with
  | nil =>
    obtain ⟨t, ht⟩ := engineStep_safe s
    exact ⟨t, (step_of_nil hi).trans ht⟩
  | cons e rest =>
    rw [Safe, step_of_cons hi]
    cases e with
    | engine => exact engineStep_safe _
    | _ => exact ⟨_, rfl⟩

/-! Runs. -/

theorem coreRun_succ {M : Host.Core} {s t : M.State} (h : M.step s = .next t) (k : Nat) :
    M.run (k + 1) s = M.run k t := by
  rw [Host.Core.run, h]

theorem run_succ {s t : State} (h : step s = .next t) (k : Nat) :
    Host.Core.run Sys2Proof.core (k + 1) s = Host.Core.run Sys2Proof.core k t :=
  coreRun_succ (M := Sys2Proof.core) h k

/-- A run of accesses leaves the command pending, and takes one event a step (R88, R197). -/
theorem run_accesses {s : State} {c : Word} (hp : s.pending = some c) (h : ∀ e ∈ s.inputs, e.isAccess = true) (k : Nat)
    (hk : k ≤ s.inputs.length) :
    ∃ u, Host.Core.run Sys2Proof.core k s = .next u ∧ State.pending u = some c ∧ State.inputs u = s.inputs.drop k := by
  induction k generalizing s with
  | zero => exact ⟨s, rfl, hp, rfl⟩
  | succ k ih =>
    cases hi : s.inputs with
    | nil => rw [hi] at hk; exact absurd hk (Nat.not_succ_le_zero k)
    | cons e rest =>
      rw [hi, List.forall_mem_cons] at h
      rw [hi] at hk
      obtain ⟨he, hrest⟩ := h
      obtain ⟨u, hu, hpu, rfl⟩ := step_access hp he hi
      rw [run_succ hu]
      exact ih hpu hrest (Nat.le_of_succ_le_succ hk)

/-- A run goes on from where a shorter one has come to. -/
theorem run_add {j : Nat} {s u : State} (h : Host.Core.run Sys2Proof.core j s = .next u) (k : Nat) :
    Host.Core.run Sys2Proof.core (j + k) s = Host.Core.run Sys2Proof.core k u := by
  induction j generalizing s with
  | zero =>
    obtain rfl := Host.Outcome.next.inj h
    rw [Nat.zero_add]
  | succ j ih =>
    obtain ⟨t, ht⟩ := step_safe s
    rw [run_succ ht] at h
    rw [Nat.succ_add, run_succ ht, ih h]

end Sys2Proof.Machine

open Sys2Proof Sys2Proof.Machine

/-- Settles O4: a word is illegal where one of the three conditions fails, and then no command runs. -/
theorem illegalWordOnlyReports : Obligations.IllegalWordOnlyReports := by
  refine ⟨fun c => ?_, fun s c hillegal hp => ?_⟩
  · rw [← Bool.not_eq_true, legal_iff_toNat]
    split <;> omega
  · obtain ⟨e, hd⟩ := decode_of_illegal hillegal
    have hturn := fun rest => engineStep_of_illegal (s := { s with inputs := rest }) hp hd
    exact ⟨fun hi => (step_of_nil hi).trans (engineStep_of_illegal hp hd),
      fun rest hi => (step_of_cons hi).trans (hturn rest)⟩

/-- Settles O9: the ENGINE's turn completes whatever word is pending. -/
theorem everyCommandCompletes : Obligations.EveryCommandCompletes := by
  intro s c hp hturn
  obtain ⟨u, hu, hirq, -⟩ := engineStep_completes (s := { s with inputs := s.inputs.tail }) hp
  exact ⟨complete u, (step_of_turn hturn).trans hu, rfl, rfl, rfl, hirq⟩

/-- Settles O10: the accesses leave the command pending, and with no event left the ENGINE's turn completes it. -/
theorem pendingCommandEventuallyCompletes : Obligations.PendingCommandEventuallyCompletes := by
  intro s c hp haccess
  refine ⟨fun k hk => ?_, ?_⟩
  · obtain ⟨u, hu, hpu, -⟩ := run_accesses hp haccess k hk
    exact ⟨u, hu, hpu⟩
  · obtain ⟨u, hu, hpu, hiu⟩ := run_accesses hp haccess _ le_rfl
    rw [List.drop_length] at hiu
    obtain ⟨t, ht, -, hinputs⟩ := engineStep_completes hpu
    refine ⟨complete t, ?_, rfl, rfl, hinputs.trans hiu⟩
    rw [run_add hu, run_succ ((step_of_nil hiu).trans ht)]
    rfl

/-- Settles O5: the ENGINE's turn, with the pending word's command. -/
theorem stepRunsDecodedCommand : Obligations.StepRunsDecodedCommand := by
  refine ⟨fun s t c i hp hd => ⟨fun hi hexec => ?_, fun rest hi hexec => ?_⟩, fun s t i hwf hexec => ?_⟩
  · exact (step_of_nil hi).trans (engineStep_of_command hp hd hexec)
  · exact (step_of_cons hi).trans (engineStep_of_command (s := { s with inputs := rest }) hp hd hexec)
  · rw [step_withFetchWord]
    exact engineStep_of_command (s := accept (encode i) s) rfl ((decodeEncodeAgree _ i).2 ⟨hwf, rfl⟩) hexec

/-- Settles O7: the ENGINE's turn and every other event have a next state. -/
theorem everyStateIsSafe : Obligations.EveryStateIsSafe := step_safe

/-- Settles O8: the two ends of a write to CMD. -/
theorem commandWriteIsAccepted : Obligations.CommandWriteIsAccepted := by
  intro s a c rest ha hi
  rw [step_of_cons hi]
  exact ⟨fun hb => congrArg Host.Outcome.next (hostWrite_cmd_busy (s := { s with inputs := rest }) hb ha c),
    fun hb => congrArg Host.Outcome.next (hostWrite_cmd_idle (s := { s with inputs := rest }) hb ha c)⟩

/-- Settles O29: an accepted NOP completes in the next step. -/
theorem nopDoesNothing : Obligations.NopDoesNothing := by
  obtain ⟨hnop, -⟩ := specCommandWordsDecode
  refine ⟨hnop, fun _ => rfl, fun s a ha hb hi => ?_, fun s a rest ha hb hi => ?_⟩
  · have haccept := (commandWriteIsAccepted s a 0 [] ha hi).2 hb
    rw [run_succ haccept, run_succ ((step_of_nil rfl).trans (engineStep_of_command rfl hnop rfl))]
    rfl
  · exact (commandWriteIsAccepted s a 0 rest ha hi).1 hb
end

section
/-! LOADSYMS: the writes of a text, one a step (R66, R91). -/

namespace Sys2Proof.Machine

/-- SYM_MEM once a text has been written to it from element `i` on. -/
def loadText : Nat → List Byte → List Host.Cell → List Host.Cell
  | _, [], m => m
  | i, x :: xs, m => loadText (i + 1) xs (Store.put i x m)

/-- The loaded text, and every other element as it was. -/
theorem find_loadText (i : Nat) (xs : List Byte) (m : List Host.Cell) (j : Nat) :
    Store.find (loadText i xs m) j = if i ≤ j ∧ j < i + xs.length then xs[j - i]? else Store.find m j := by
  induction xs generalizing i m with
  | nil => rw [if_neg (by simp)]; rfl
  | cons x xs ih =>
    rw [loadText, ih, Store.find_put, List.length_cons]
    by_cases hj : j = i
    · rw [if_neg (by omega), if_pos hj, if_pos (by omega), hj, Nat.sub_self, List.getElem?_cons_zero]
    · by_cases hin : i + 1 ≤ j ∧ j < i + 1 + xs.length
      · rw [if_pos hin, if_pos (by omega), show j - i = j - (i + 1) + 1 by omega, List.getElem?_cons_succ]
      · rw [if_neg hin, if_neg hj, if_neg (by omega)]

/-- The write of an entry to an idle block that BUSY = 1 would drop (R66, R90). -/
theorem step_stores {s : State} (hb : s.busy = false) (hp : s.params.legal = true) {l : Loc}
    (hl : l.existsIn s.params = true) (hd : droppedWhileBusy l = true) {v : Word} {rest : List Event}
    (hin : s.inputs = .write (addrOf l) v :: rest) : step s = .next (storeLoc v { s with inputs := rest } l) :=
  (step_of_cons hin).trans
    (congrArg Host.Outcome.next (hostWrite_stores (s := { s with inputs := rest }) hb (locate_addrOf hp hl) hd v))

theorem step_symbolWrite {s : State} (hb : s.busy = false) (hp : s.params.legal = true) {i : Nat}
    (hi : i < s.params.nMax) {x : Byte} {rest : List Event}
    (hin : s.inputs = .write (addrOf (.sym i)) (x.setWidth 32) :: rest) :
    step s = .next { s with inputs := rest, symMem := Store.put i x s.symMem } := by
  have hbyte : (x.setWidth 32).extractLsb' 0 8 = x := by
    rw [← BitVec.setWidth_eq_extractLsb' (by decide), BitVec.setWidth_setWidth_of_le _ (by decide), BitVec.setWidth_eq]
  rw [step_stores hb hp ((existsIn_sym _ i).2 hi) rfl hin, storeLoc, hbyte]

/-- The write of a length that fits, which no clamp changes (R33). -/
theorem step_lengthWrite {s : State} (hb : s.busy = false) (hp : s.params.legal = true) {n : Nat}
    (hn : n ≤ s.params.nMax) {rest : List Event} (hin : s.inputs = .write (addrOf .inLen) (BitVec.ofNat 32 n) :: rest) :
    step s = .next { s with inputs := rest, inLen := BitVec.ofNat 32 n } := by
  obtain ⟨-, hmax, -⟩ := (Params.legal_iff _).1 hp
  have hfits : min (BitVec.ofNat 32 n).toNat s.params.nMax = n := by
    rw [BitVec.toNat_ofNat, Nat.mod_eq_of_lt (by omega), min_eq_left hn]
  rw [step_stores hb hp rfl rfl hin, storeLoc, hfits]

/-- The writes of a text from element `i` on and of its length, run on an idle block. -/
theorem run_loadText {s : State} (hb : s.busy = false) (hp : s.params.legal = true) {n : Nat} (hn : n ≤ s.params.nMax)
    {i : Nat} {xs : List Byte} (hfit : i + xs.length ≤ s.params.nMax)
    (hin : s.inputs = symbolWrites i xs ++ [.write (addrOf .inLen) (BitVec.ofNat 32 n)]) :
    Host.Core.run Sys2Proof.core (xs.length + 1) s =
      .next ({ s with inputs := [], symMem := loadText i xs s.symMem, inLen := BitVec.ofNat 32 n } : State) := by
  induction xs generalizing i s with
  | nil => rw [List.length_nil, run_succ (step_lengthWrite hb hp hn hin)]; rfl
  | cons x xs ih =>
    rw [List.length_cons] at hfit
    rw [List.length_cons, run_succ (step_symbolWrite hb hp (by omega) hin)]
    exact ih (s := { s with inputs := _, symMem := Store.put i x s.symMem }) hb hp hn
      (show i + 1 + xs.length ≤ s.params.nMax by omega) rfl

end Sys2Proof.Machine

open Sys2Proof Sys2Proof.Machine

/-- Settles O25: the writes of the text, then the one of its length. -/
theorem loadSymsLoadsTheText : Obligations.LoadSymsLoadsTheText := by
  intro s xs hb hp hfit hin
  obtain ⟨-, hmax, -⟩ := (Params.legal_iff _).1 hp
  refine ⟨_, run_loadText hb hp hfit (by rwa [Nat.zero_add]) hin, rfl, List.ext_getElem ?_ fun k hk hx => ?_,
    fun j hj => ?_⟩
  · rw [length_inputSymbols, BitVec.toNat_ofNat, Nat.mod_eq_of_lt (by omega)]
  · simp only [State.inputSymbols, List.getElem_map, List.getElem_range, State.symAt, find_loadText]
    rw [if_pos ⟨Nat.zero_le k, by omega⟩, Nat.sub_zero, List.getElem?_eq_getElem hx, Option.getD_some]
  · simp only [State.symAt, find_loadText]
    rw [if_neg (by omega)]
end

section
/-! COUNT: the Frequency Map of the input, symbol by symbol (R43, R44, R100). -/

namespace Sys2Proof.Machine

/-- The occurrences of a symbol in the input are the indices below IN_LEN that hold it (R43). -/
theorem count_inputSymbols (s : State) (x : Nat) :
    (s.inputSymbols.map BitVec.toNat).count x =
      ((List.range s.inLen.toNat).filter fun i => decide ((s.symAt i).toNat = x)).length := by
  rw [State.inputSymbols, List.map_map, List.count, List.countP_map, List.countP_eq_length_filter]
  rfl

/-- FREQ[x] after COUNT is the number of times x occurs in the input; the count fits its word because IN_LEN does (R100). -/
theorem freqAt_runCount (s : State) (x : Nat) :
    ((runCount s).state.freqAt x).toNat =
      ((List.range s.inLen.toNat).filter fun i => decide ((s.symAt i).toNat = x)).length :=
  (countAt_frequencies (length_inputSymbols_lt s) x).trans (count_inputSymbols s x)

end Sys2Proof.Machine

open Sys2Proof Sys2Proof.Machine

/-- Settles O32: COUNT's pseudocode writes FREQ and the two flags, and each count is that of the input sequence. -/
theorem countGivesTheFrequencyMap : Obligations.CountGivesTheFrequencyMap := by
  obtain ⟨-, -, hdecode, -⟩ := specCommandWordsDecode
  exact ⟨hdecode, fun s => ⟨_, exec_eq .count s, rfl, fun x _ => freqAt_runCount s x⟩⟩
end

section
/-! The sort of BUILD ascends: the scan of PARTITION splits its sequence at the pivot, and QSORT sorts the two sides
(R110 to R112). -/

namespace Sys2Proof.Machine

theorem getD_swap {v : List Nat} {i j : Nat} (hi : i < v.length) (hj : j < v.length) (k : Nat) :
    (swap v i j).getD k 0 = if k = j then v.getD i 0 else if k = i then v.getD j 0 else v.getD k 0 := by
  unfold swap
  by_cases hkj : k = j
  · simp [hkj, hj]
  · by_cases hki : k = i
    · simp [hki, hi, show j ≠ i from fun h => hkj (hki.trans h.symm), show i ≠ j from fun h => hkj (hki.trans h)]
    · simp [hkj, hki, Ne.symm hkj, Ne.symm hki]

/-- Below index `i`, the elements before `store` are less than the pivot and the others are not (R112). -/
structure SplitAt (weight : Nat → Word) (pivot store i : Nat) (v : List Nat) : Prop where
  /-- The elements before the store index. -/
  low : ∀ j < store, (weight (v.getD j 0)).toNat < (weight pivot).toNat
  /-- The elements from the store index on. -/
  high : ∀ j, store ≤ j → j < i → (weight pivot).toNat ≤ (weight (v.getD j 0)).toNat

theorem splitAt_zero (weight : Nat → Word) (pivot : Nat) (v : List Nat) : SplitAt weight pivot 0 0 v :=
  ⟨fun j hj => absurd hj (Nat.not_lt_zero j), fun j _ hj => absurd hj (Nat.not_lt_zero j)⟩

section
variable {weight : Nat → Word} {pivot store i : Nat} {v : List Nat}

/-- An element less than the pivot is moved before the store index. -/
theorem SplitAt.swap (h : SplitAt weight pivot store i v) (hs : store ≤ i) (hi : i < v.length)
    (hless : (weight (v.getD i 0)).toNat < (weight pivot).toNat) :
    SplitAt weight pivot (store + 1) (i + 1) (swap v i store) := by
  have hget := getD_swap hi (Nat.lt_of_le_of_lt hs hi)
  refine ⟨fun j hj => ?_, fun j hj hji => ?_⟩
  · rw [hget]
    split
    · exact hless
    · rw [if_neg (by omega)]; exact h.low j (by omega)
  · rw [hget, if_neg (by omega)]
    split
    · exact h.high store le_rfl (by omega)
    · exact h.high j (by omega) (by omega)

/-- Any other element stays where it is. -/
theorem SplitAt.skip (h : SplitAt weight pivot store i v)
    (hless : ¬ (weight (v.getD i 0)).toNat < (weight pivot).toNat) : SplitAt weight pivot store (i + 1) v := by
  refine ⟨h.low, fun j hj hji => ?_⟩
  by_cases hj' : j = i
  · rw [hj']; omega
  · exact h.high j hj (by omega)

theorem SplitAt.take_lt (h : SplitAt weight pivot store v.length v) :
    ∀ a ∈ v.take store, (weight a).toNat < (weight pivot).toNat := by
  intro a ha
  obtain ⟨j, hj, rfl⟩ := List.mem_iff_getElem.1 ha
  rw [List.length_take] at hj
  rw [List.getElem_take, ← List.getD_eq_getElem _ 0]
  exact h.low j (by omega)

theorem SplitAt.le_drop (h : SplitAt weight pivot store v.length v) :
    ∀ b ∈ v.drop (store + 1), (weight pivot).toNat ≤ (weight b).toNat := by
  intro b hb
  obtain ⟨j, hj, rfl⟩ := List.mem_iff_getElem.1 hb
  rw [List.length_drop] at hj
  rw [List.getElem_drop, ← List.getD_eq_getElem _ 0]
  exact h.high _ (by omega) (by omega)

/-- The scan of PARTITION splits the sequence before the parked pivot (R112). -/
theorem scan_splits {last k : Nat} (hlast : i + k = last) (hlen : last < v.length) (hs : store ≤ i)
    (hpivot : v.getD last 0 = pivot) (h : SplitAt weight pivot store i v) :
    SplitAt weight pivot (scan weight last i k v store).2 last (scan weight last i k v store).1 ∧
      (scan weight last i k v store).1.getD last 0 = pivot := by
  induction k generalizing i v store with
  | zero => exact ⟨by rw [← hlast]; exact h, hpivot⟩
  | succ k ih =>
    rw [scan, lessWeight, hpivot]
    simp only [decide_eq_true_eq]
    split
    · rename_i hless
      have hlen' : (Machine.swap v i store).length = v.length := (swap_perm (by omega) (by omega)).length_eq
      refine ih (by omega) (by omega) (by omega) ?_ (h.swap hs (by omega) hless)
      rw [getD_swap (by omega) (by omega), if_neg (by omega), if_neg (by omega), hpivot]
    · rename_i hless
      exact ih (by omega) hlen (by omega) hpivot (h.skip hless)

end

/-- PARTITION puts the pivot behind the elements less than it and before all others (R112). -/
theorem partition_splits (weight : Nat → Word) {v : List Nat} (hv : v ≠ []) :
    let parted := partition weight v
    SplitAt weight (parted.1.getD parted.2 0) parted.2 v.length parted.1 := by
  have hpos : 0 < v.length := List.length_pos_of_ne_nil hv
  have hpark : (swap v (v.length / 2) (v.length - 1)).Perm v := swap_perm (by omega) (by omega)
  obtain ⟨hscan, hstore⟩ := scan_perm weight (last := v.length - 1) (i := 0) (k := v.length - 1)
    (v := swap v (v.length / 2) (v.length - 1)) (store := 0) (by rw [hpark.length_eq]; omega) le_rfl
  obtain ⟨hsplit, hpivot⟩ := scan_splits (k := v.length - 1) (Nat.zero_add _) (by rw [hpark.length_eq]; omega) le_rfl rfl
    (splitAt_zero weight _ (swap v (v.length / 2) (v.length - 1)))
  have hlen := (hscan.trans hpark).length_eq
  simp only [partition]
  generalize scan weight (v.length - 1) 0 (v.length - 1) (swap v (v.length / 2) (v.length - 1)) 0 = scanned at *
  have hget := getD_swap (v := scanned.1) (i := scanned.2) (j := v.length - 1) (by omega) (by omega)
  have hat : (swap scanned.1 scanned.2 (v.length - 1)).getD scanned.2 0 = scanned.1.getD (v.length - 1) 0 := by
    rw [hget]; split
    · rename_i h; rw [h]
    · rw [if_pos rfl]
  rw [hat, hpivot]
  refine ⟨fun j hj => ?_, fun j hj hji => ?_⟩
  · rw [hget, if_neg (by omega), if_neg (by omega)]; exact hsplit.low j hj
  · by_cases hs : j = scanned.2
    · rw [hs, hat, hpivot]
    · rw [hget, if_neg hs]
      split
      · exact hsplit.high _ le_rfl (by omega)
      · exact hsplit.high j hj (by omega)

/-- QSORT ascends by weight, when its recursion is bounded by the length (R111). -/
theorem qsort_ascends (weight : Nat → Word) {fuel : Nat} {v : List Nat} (hfuel : v.length ≤ fuel) :
    (qsort weight fuel v).Pairwise fun a b => (weight a).toNat ≤ (weight b).toNat := by
  induction fuel generalizing v with
  | zero => rw [List.length_eq_zero_iff.1 (Nat.le_zero.1 hfuel)]; exact .nil
  | succ fuel ih =>
    rw [qsort]
    split
    · rw [List.pairwise_iff_getElem]
      intros
      omega
    · rename_i hlen
      have hv : v ≠ [] := by rintro rfl; simp at hlen
      obtain ⟨hperm, hlt⟩ := partition_perm weight hv
      have hsplit := partition_splits weight hv
      have hl := hperm.length_eq
      rw [← hl] at hsplit
      generalize partition weight v = parted at *
      have hbefore : ∀ a ∈ qsort weight fuel (parted.1.take parted.2),
          (weight a).toNat < (weight (parted.1.getD parted.2 0)).toNat :=
        fun a ha => hsplit.take_lt a ((qsort_perm weight fuel _).mem_iff.1 ha)
      have hafter : ∀ b ∈ qsort weight fuel (parted.1.drop (parted.2 + 1)),
          (weight (parted.1.getD parted.2 0)).toNat ≤ (weight b).toNat :=
        fun b hb => hsplit.le_drop b ((qsort_perm weight fuel _).mem_iff.1 hb)
      rw [List.pairwise_append, List.pairwise_cons]
      refine ⟨ih (by rw [List.length_take]; omega), ⟨hafter, ih (by rw [List.length_drop]; omega)⟩, fun a ha b hb => ?_⟩
      rcases List.mem_cons.1 hb with rfl | hb
      · exact (hbefore a ha).le
      · exact (hbefore a ha).le.trans (hafter b hb)

end Sys2Proof.Machine

open Sys2Proof Sys2Proof.Machine

/-- Settles O34: QSORT only swaps, and PARTITION splits at the pivot. -/
theorem sortAscendsByWeight : Obligations.SortAscendsByWeight := fun weight v =>
  ⟨qsort_perm weight v.length v, qsort_ascends weight le_rfl⟩
end

section
/-! The merge loop takes the nodes in ascending order of weight (R113, R117, R121). -/

namespace Sys2Proof.Machine

/-! TAKE_MIN from two queues that do not descend. -/

/-- What TAKE_MIN leaves of each queue is in the order it had (R113). -/
theorem takeMin_sublist {weight : Nat → Word} {lq iq lq' iq' : List Nat} {n : Nat}
    (h : takeMin weight lq iq = some (n, lq', iq')) : lq'.Sublist lq ∧ iq'.Sublist iq := by
  obtain ⟨rfl, rfl, -⟩ | ⟨rfl, rfl, -⟩ := takeMin_cases h
  · exact ⟨List.sublist_cons_self n lq', .refl _⟩
  · exact ⟨.refl _, List.sublist_cons_self n iq'⟩

/-- A value that is not above the first node of a queue that does not descend is not above any of its nodes. -/
theorem le_of_le_head {weight : Nat → Nat} {m : Nat} {q : List Nat} (hq : q.Pairwise fun a b => weight a ≤ weight b)
    (hhead : ∀ a ∈ q.head?, m ≤ weight a) : ∀ b ∈ q, m ≤ weight b := by
  cases q with
  | nil => exact fun b hb => absurd hb List.not_mem_nil
  | cons a q =>
    have ha : m ≤ weight a := hhead a rfl
    obtain ⟨hle, -⟩ := List.pairwise_cons.1 hq
    exact List.forall_mem_cons.2 ⟨ha, fun b hb => ha.trans (hle b hb)⟩

/-- What is left of a queue that does not descend still does not, by any weights that agree with the old ones on it. -/
theorem pairwise_le_of_sublist {weight weight' : Nat → Nat} {q q' : List Nat} (hsub : q'.Sublist q)
    (heq : ∀ i ∈ q', weight' i = weight i) (hq : q.Pairwise fun a b => weight a ≤ weight b) :
    q'.Pairwise fun a b => weight' a ≤ weight' b :=
  (hq.sublist hsub).imp_of_mem fun ha hb hle => by rwa [heq _ ha, heq _ hb]

/-- TAKE_MIN takes a node of least weight (R113, R121). -/
theorem takeMin_least {weight : Nat → Word} {lq iq lq' iq' : List Nat} {n : Nat}
    (hlq : lq.Pairwise fun a b => (weight a).toNat ≤ (weight b).toNat)
    (hiq : iq.Pairwise fun a b => (weight a).toNat ≤ (weight b).toNat)
    (h : takeMin weight lq iq = some (n, lq', iq')) : ∀ b ∈ lq ++ iq, (weight n).toNat ≤ (weight b).toNat := by
  have hheads : (∀ a ∈ lq.head?, (weight n).toNat ≤ (weight a).toNat) ∧
      ∀ b ∈ iq.head?, (weight n).toNat ≤ (weight b).toNat := by
    obtain ⟨rfl, -, hb⟩ | ⟨rfl, -, ha⟩ := takeMin_cases h
    · exact ⟨by simp, fun b hmem => (hb b hmem).le⟩
    · exact ⟨ha, by simp⟩
  obtain ⟨hl, hi⟩ := hheads
  exact List.forall_mem_append.2 ⟨le_of_le_head (weight := fun i => (weight i).toNat) hlq hl,
    le_of_le_head (weight := fun i => (weight i).toNat) hiq hi⟩

/-! The queues under a merge. -/

/-- NODE[i].WEIGHT in a forest, as a number. -/
def Forest.weightAt (r : Nat) (f : Forest) (i : Nat) : Nat := (arenaAt r f.node i).weight.toNat

/-- Neither queue descends in weight (R121), and no node of IQ outweighs two waiting nodes together, so that the next merged
node, which goes behind it, is not lighter. -/
structure Ascending (r : Nat) (f : Forest) : Prop where
  /-- LQ. -/
  lq : f.lq.Pairwise fun a b => f.weightAt r a ≤ f.weightAt r b
  /-- IQ. -/
  iq : f.iq.Pairwise fun a b => f.weightAt r a ≤ f.weightAt r b
  /-- What the next merged node will weigh at least. -/
  bound : ∀ i ∈ f.iq, ∀ x ∈ f.waiting, ∀ y ∈ f.waiting, f.weightAt r i ≤ f.weightAt r x + f.weightAt r y

section
variable {r k total : Nat} {leaves : Store Node} {f g : Forest}

theorem Ascending.takes_least (h : Ascending r f) {a : Nat} {lq' iq' : List Nat}
    (htake : takeMin (fun i => (arenaAt r f.node i).weight) f.lq f.iq = some (a, lq', iq')) :
    ∀ b ∈ f.waiting, f.weightAt r a ≤ f.weightAt r b :=
  takeMin_least h.lq h.iq htake

/-- A merge of ascending queues takes `a` and then `b`, no heavier than any node left, and puts the new node behind what is
left of IQ. -/
theorem Ascending.merged (h : Ascending r f) (hg : mergeOnce r f = some g) :
    ∃ a b lq iq, Merged r f g a b (lq ++ iq) ∧ g.lq = lq ∧ g.iq = iq ++ [f.next] ∧ lq.Sublist f.lq ∧ iq.Sublist f.iq ∧
      f.weightAt r a ≤ f.weightAt r b ∧ ∀ x ∈ lq ++ iq, f.weightAt r b ≤ f.weightAt r x := by
  obtain ⟨a, b, lq₁, iq₁, lq₂, iq₂, h₁, h₂, rfl⟩ := mergeOnce_cases hg
  have hp₁ := takeMin_perm h₁
  have hp₂ := takeMin_perm h₂
  obtain ⟨hl₁, hi₁⟩ := takeMin_sublist h₁
  obtain ⟨hl₂, hi₂⟩ := takeMin_sublist h₂
  have hleast := takeMin_least (h.lq.sublist hl₁) (h.iq.sublist hi₁) h₂
  refine ⟨a, b, lq₂, iq₂, ⟨hp₁.trans (hp₂.cons a), ?_, by simp, rfl, rfl⟩, rfl, rfl, hl₂.trans hl₁, hi₂.trans hi₁,
    h.takes_least h₁ b ?_, fun x hx => hleast x ?_⟩
  · simpa [Forest.waiting] using List.perm_append_singleton f.next (lq₂ ++ iq₂)
  · exact hp₁.mem_iff.2 (List.mem_cons_of_mem _ (hp₂.mem_iff.2 List.mem_cons_self))
  · exact hp₂.mem_iff.2 (List.mem_cons_of_mem _ hx)

/-- The new node weighs what the taken ones do, and no other weight changes (R116, R120). -/
theorem Growing.weightAt_merged {a b : Nat} {rest : List Nat} (hf : Growing r k total leaves f)
    (hm : Merged r f g a b rest) (htotal : total < 2 ^ 32) :
    g.weightAt r f.next = f.weightAt r a + f.weightAt r b ∧ ∀ i ≠ f.next, g.weightAt r i = f.weightAt r i := by
  have hweights := hf.weights_before hm
  refine ⟨?_, fun i hi => by rw [Forest.weightAt, hm.arenaAt_ne hi]; rfl⟩
  rw [Forest.weightAt, hm.arenaAt_next, mergedNode, BitVec.toNat_add, Nat.mod_eq_of_lt (by omega)]
  rfl

/-- A merge keeps the queues ascending (R121). -/
theorem Ascending.mergeOnce (h : Ascending r f) (hf : Growing r k total leaves f) (htotal : total < 2 ^ 32)
    (hg : mergeOnce r f = some g) : Ascending r g := by
  obtain ⟨a, b, lq, iq, hm, hglq, hgiq, hlq, hiq, hab, hleast⟩ := h.merged hg
  obtain ⟨hnew, hsame⟩ := hf.weightAt_merged hm htotal
  have hold : ∀ i ∈ lq ++ iq, g.weightAt r i = f.weightAt r i := fun i hi => hsame i (hf.rest_lt hm i hi).ne
  obtain ⟨holdL, holdI⟩ := List.forall_mem_append.1 hold
  have ha : a ∈ f.waiting := (hm.mem_before a).2 (.inl rfl)
  have hb : b ∈ f.waiting := (hm.mem_before b).2 (.inr (.inl rfl))
  have hlight : ∀ i ∈ g.iq, g.weightAt r i ≤ f.weightAt r a + f.weightAt r b := by
    rw [hgiq]
    refine List.forall_mem_append.2 ⟨fun i hi => ?_, List.forall_mem_singleton.2 hnew.le⟩
    rw [holdI i hi]
    exact h.bound i (hiq.subset hi) a ha b hb
  have hheavy : ∀ x ∈ g.waiting, f.weightAt r b ≤ g.weightAt r x := by
    intro x hx
    rcases (hm.mem_after x).1 hx with rfl | hx
    · rw [hnew]; omega
    · rw [hold x hx]; exact hleast x hx
  refine ⟨hglq ▸ pairwise_le_of_sublist hlq holdL h.lq, ?_, fun i hi x hx y hy => ?_⟩
  · rw [hgiq, List.pairwise_append]
    refine ⟨pairwise_le_of_sublist hiq holdI h.iq, List.pairwise_singleton _ _, fun i hi j hj => ?_⟩
    rw [List.mem_singleton.1 hj, hnew]
    exact hlight i (hgiq ▸ List.mem_append_left _ hi)
  · have := hlight i hi
    have := hheavy x hx
    have := hheavy y hy
    omega

end

/-- The queues start ascending: LQ is sorted and IQ is empty (R111, R115). -/
theorem ascending_start (s : State) (k : Nat) :
    Ascending s.resets { node := s.node, lq := sortedLeaves s k, iq := [], next := k } :=
  ⟨qsort_ascends _ (List.length_range).le, .nil, fun _ hi => absurd hi List.not_mem_nil⟩

/-- What every merge keeps, any number of merges keeps; `P n` is what holds after `n` of them. -/
theorem merges_keep {r : Nat} {P : Nat → Forest → Prop} (turn : ∀ n f g, mergeOnce r f = some g → P n f → P (n + 1) g)
    {f₀ f : Forest} (h₀ : P 0 f₀) (n : Nat) (h : (fun o : Option Forest => o.bind (mergeOnce r))^[n] (some f₀) = some f) :
    P n f := by
  induction n generalizing f with
  | zero => exact Option.some.inj h ▸ h₀
  | succ n ih =>
    rw [Function.iterate_succ_apply'] at h
    obtain ⟨e, he, hmerge⟩ := Option.bind_eq_some_iff.1 h
    exact turn n e f hmerge (ih he)

/-- The forest after `n` merges of BUILD's leaves (R115, R117, R121). -/
structure AfterMerges (s : State) (n : Nat) (f : Forest) : Prop where
  /-- The merge loop's invariant. -/
  grown : Growing s.resets s.numSyms (totalCount s.freq) (buildLeaves s).node f
  /-- The order of the queues. -/
  ascending : Ascending s.resets f
  /-- Each merge has made one node. -/
  next : f.next = s.numSyms + n

theorem afterMerges_zero {s : State} (hk : 1 ≤ s.numSyms) :
    AfterMerges s 0
      { node := (buildLeaves s).node, lq := sortedLeaves (buildLeaves s) s.numSyms, iq := [], next := s.numSyms } :=
  ⟨growing_start s hk, ascending_start (buildLeaves s) s.numSyms, rfl⟩

theorem AfterMerges.mergeOnce {s : State} {n : Nat} {f g : Forest} (htotal : totalCount s.freq < 2 ^ 32)
    (hg : mergeOnce s.resets f = some g) (h : AfterMerges s n f) : AfterMerges s (n + 1) g := by
  obtain ⟨hgrown, hasc, hnext⟩ := h
  obtain ⟨_, _, _, hm⟩ := merged_of_mergeOnce hg
  have hleaf : ∀ i < s.numSyms, (arenaAt s.resets (buildLeaves s).node i).internal = false := fun i hi => by
    rw [arenaAt_buildLeaves s _ hi]; rfl
  exact ⟨hgrown.mergeOnce (numSyms_le s) htotal hleaf hg, hasc.mergeOnce hgrown htotal hg, by rw [hm.next, hnext]; rfl⟩

end Sys2Proof.Machine

open Sys2Proof Sys2Proof.Machine

/-- Settles O37: besides their order, the queues keep that no node of IQ outweighs two waiting nodes together. -/
theorem queuesStayNonDecreasing : Obligations.QueuesStayNonDecreasing := by
  intro s n f hk htotal hrun
  obtain ⟨hgrown, hasc, hnext⟩ :=
    merges_keep (fun _ _ _ hg => AfterMerges.mergeOnce htotal hg) (afterMerges_zero (by omega)) n hrun
  have hcount := hgrown.count.total
  rw [Forest.waiting, List.length_append] at hcount
  exact ⟨hasc.lq, hasc.iq, by omega, fun a lq iq htake => hasc.takes_least htake,
    fun htwo => mergeOnce_isSome (by rwa [Forest.waiting, List.length_append])⟩
end

section
/-! TAKE_MIN and one merge, in full (R113, R115, R116). -/

namespace Sys2Proof.Machine

/-- The leaf queue is taken from when its front is less (R113). -/
theorem takeMin_of_lt {weight : Nat → Word} {a b : Nat} (h : (weight a).toNat < (weight b).toNat) (lq iq : List Nat) :
    takeMin weight (a :: lq) (b :: iq) = some (a, lq, b :: iq) := by
  rw [takeMin, lessWeight, if_pos (decide_eq_true h)]

/-- The internal queue is taken from otherwise, on a tie too (R113). -/
theorem takeMin_of_le {weight : Nat → Word} {a b : Nat} (h : (weight b).toNat ≤ (weight a).toNat) (lq iq : List Nat) :
    takeMin weight (a :: lq) (b :: iq) = some (b, a :: lq, iq) := by
  rw [takeMin, lessWeight, if_neg (by rw [decide_eq_true_eq]; omega)]

/-- One merge, from the two nodes taken (R115, R116). -/
theorem mergeOnce_of_takes {r : Nat} {f : Forest} {a b : Nat} {lq₁ iq₁ lq₂ iq₂ : List Nat}
    (h₁ : takeMin (fun i => (arenaAt r f.node i).weight) f.lq f.iq = some (a, lq₁, iq₁))
    (h₂ : takeMin (fun i => (arenaAt r f.node i).weight) lq₁ iq₁ = some (b, lq₂, iq₂)) :
    mergeOnce r f =
      some { node := Store.put f.next (mergedNode (fun i => (arenaAt r f.node i).weight) a b) f.node
             lq := lq₂, iq := iq₂ ++ [f.next], next := f.next + 1 } := by
  simp only [mergeOnce, h₁, h₂]

end Sys2Proof.Machine

open Sys2Proof Sys2Proof.Machine

/-- Settles O35, case by case of the two fronts. -/
theorem takeMinPrefersTheInternalQueue : Obligations.TakeMinPrefersTheInternalQueue := fun _ _ _ lq iq =>
  ⟨rfl, rfl, fun h => takeMin_of_lt h lq iq, fun h => takeMin_of_le h lq iq⟩

/-- Settles O36: NODE[M] reads as the node just written, and the fields of that node hold the indices and the sum whole. -/
theorem mergeMakesAnInternalNode : Obligations.MergeMakesAnInternalNode := by
  intro r f a b lq₁ iq₁ lq₂ iq₂ weight h₁ h₂ ha hb hsum
  refine ⟨_, mergeOnce_of_takes h₁ h₂, rfl, rfl, rfl, ?_⟩
  simp only [arenaAt_put, if_true]
  refine ⟨rfl, rfl, ?_, ?_, ?_, fun i hi => if_neg hi⟩
  · exact (BitVec.toNat_ofNat _ _).trans (Nat.mod_eq_of_lt (by omega))
  · exact (BitVec.toNat_ofNat _ _).trans (Nat.mod_eq_of_lt (by omega))
  · exact (BitVec.toNat_add _ _).trans (Nat.mod_eq_of_lt hsum)
end

section
/-! The ends of BUILD below two symbols, and the commands whose precondition fails
(R115, R118, R130, R144, R145, R150, R176). -/

namespace Sys2Proof.Machine

/-- A command that first tests a flag and finds it 0 only reports its error (R175, R176). -/
theorem finish_of_unset (e : ErrCode) (p : Progress) (s : State) {flag : Bool} (h : flag = false) :
    finish (if flag then p else raise e 0 s) = .next { s with errCode := e, errInfo := 0 } := by
  subst h; rfl

/-- BUILD of an empty map (R115, R118). -/
theorem runBuild_of_none {s : State} (hfreq : s.freqValid = true) (hk : s.numSyms = 0) :
    runBuild s = raise .invalidInput 0 (buildLeaves s) := by
  obtain ⟨h, -⟩ | ⟨-, ⟨-, h⟩ | ⟨h, -⟩ | ⟨h, -⟩⟩ := runBuild_cases s
  · rw [hfreq] at h; exact Bool.noConfusion h
  · exact h
  · omega
  · omega

/-- BUILD of one present symbol (R115, R118). -/
theorem runBuild_of_one {s : State} (hfreq : s.freqValid = true) (hk : s.numSyms = 1) :
    runBuild s = .running (singleTree (buildLeaves s)) := by
  obtain ⟨h, -⟩ | ⟨-, ⟨h, -⟩ | ⟨-, h⟩ | ⟨h, -⟩⟩ := runBuild_cases s
  · rw [hfreq] at h; exact Bool.noConfusion h
  · omega
  · exact h
  · omega

/-- With no present symbol no leaf is placed (R114). -/
theorem buildLeaves_of_none {s : State} (hk : s.numSyms = 0) :
    buildLeaves s = { s with treeValid := false, nodeCount := 0, root := 0 } := by
  rw [buildLeaves, List.length_eq_zero_iff.1 hk, placeLeaves]

/-- The one leaf needs no sorting (R111). -/
theorem sortedLeaves_one (s : State) : sortedLeaves s 1 = [0] :=
  List.perm_singleton.1 (sortedLeaves_perm s 1)

end Sys2Proof.Machine

open Sys2Proof Sys2Proof.Machine

/-- Settles O28: each command's first test raises. -/
theorem preconditionErrorsChangeNothingElse : Obligations.PreconditionErrorsChangeNothingElse := by
  intro s
  exact ⟨finish_of_unset _ _ _, finish_of_unset _ _ _, finish_of_unset _ _ _, finish_of_unset _ _ _,
    fun h => congrArg finish (if_pos h)⟩

/-- Settles O38: no leaf is placed before the error. -/
theorem buildRejectsTheEmptyMap : Obligations.BuildRejectsTheEmptyMap := by
  intro s hfreq hk
  rw [exec_eq, pseudocode, runBuild_of_none hfreq hk, buildLeaves_of_none hk]
  rfl

/-- Settles O39: the leaf at NODE[0] is the only element written. -/
theorem buildOfOneSymbol : Obligations.BuildOfOneSymbol := by
  intro s x hfreq hx
  have hk : s.numSyms = 1 := congrArg List.length hx
  have hrun : exec .build s = .next (singleTree (buildLeaves s)) := by
    rw [exec_eq, pseudocode, runBuild_of_one hfreq hk, state_running]
  refine ⟨_, hrun, ?_, ?_, fun i hi => arenaAt_congr ?_⟩
  · rw [singleTree, sortedLeaves_one]; rfl
  · have hleaf := arenaAt_buildLeaves s s.resets (i := 0) (by omega)
    rw [hx] at hleaf
    exact hleaf
  · rw [singleTree_node, find_buildLeaves, if_neg (by omega)]
end

section
/-! The traversal of GENCODE: the code words below a node as a list, what the traversal does with them, and where it ends
(R130, R131, R133, R134). -/

namespace Sys2Proof.Machine

/-! Paths, edge by edge. -/

/-- The last edge of a path (R131). -/
theorem follow_last {nodes : Nat → Node} {v : Dword} {l root n : Nat} :
    follow nodes v 0 (l + 1) root = some n ↔
      ∃ p, follow nodes v 0 l root = some p ∧ (nodes p).internal = true ∧
        (if v.getLsbD l then (nodes p).right.toNat else (nodes p).left.toNat) = n := by
  rw [follow_add, Option.bind_eq_some_iff]
  refine exists_congr fun p => and_congr_right fun _ => ?_
  rw [Nat.zero_add]
  cases h : (nodes p).internal with
  | true => rw [follow_succ_internal h, follow, Option.some.injEq, and_iff_right rfl]
  | false => simp [follow_succ_leaf h]

/-- `u` begins with the low `l` bits of `v`: its path goes through the node that these lead to. -/
def Through (v : Dword) (l : Nat) (u : Dword) : Prop := ∀ j < l, u.getLsbD j = v.getLsbD j

theorem through_zero (v u : Dword) : Through v 0 u := fun j hj => absurd hj (Nat.not_lt_zero j)

theorem through_succ {v u : Dword} {l : Nat} :
    Through v (l + 1) u ↔ Through v l u ∧ u.getLsbD l = v.getLsbD l := by
  constructor
  · exact fun h => ⟨fun j hj => h j (by omega), h l (by omega)⟩
  · rintro ⟨h, hl⟩ j hj
    rcases Nat.lt_succ_iff_lt_or_eq.1 hj with hj | rfl
    · exact h j hj
    · exact hl

theorem through_left {v u : Dword} {l : Nat} (hv : v.toNat < 2 ^ l) :
    Through v (l + 1) u ↔ Through v l u ∧ u.getLsbD l = false := by
  rw [through_succ, getLsbD_of_lt_two_pow hv le_rfl]

theorem through_right {v u : Dword} {l : Nat} (hl : l < 64) :
    Through (v ||| 1#64 <<< l) (l + 1) u ↔ Through v l u ∧ u.getLsbD l = true := by
  rw [through_succ]
  refine and_congr ?_ (by rw [getLsbD_or_one_shiftLeft v hl]; simp)
  refine forall₂_congr fun j hj => ?_
  rw [getLsbD_or_one_shiftLeft v hl, decide_eq_false hj.ne, Bool.or_false]

/-- Two code values with nothing above their length are equal when one begins with the other. -/
theorem eq_of_through {v u : Dword} {l : Nat} (hv : v.toNat < 2 ^ l) (hu : u.toNat < 2 ^ l) (h : Through v l u) : u = v := by
  refine BitVec.eq_of_getLsbD_eq fun j _ => ?_
  by_cases hj : j < l
  · exact h j hj
  · rw [getLsbD_of_lt_two_pow hv (by omega), getLsbD_of_lt_two_pow hu (by omega)]

theorem follow_of_through {nodes : Nat → Node} {root l n : Nat} {v u : Dword} (hlead : Leads nodes root v l n)
    (h : Through v l u) : follow nodes u 0 l root = some n := by
  rw [← hlead.path]
  exact follow_congr (fun j _ hj => h j (by omega)) root

/-! The code words below a node. -/

/-- The entries GENCODE's traversal records below node `n`, whose code so far is the low `64 - room` bits of `v`, in the
order of the leaves (R130). -/
def leafWords (nodes : Nat → Node) : Nat → Nat → Dword → List (Nat × CodeWord)
  | 0, n, v => if (nodes n).internal then [] else [((nodes n).sym.toNat, { len := 64, value := v })]
  | room + 1, n, v =>
    if (nodes n).internal then
      leafWords nodes room (nodes n).left.toNat v ++
        leafWords nodes room (nodes n).right.toNat (v ||| 1#64 <<< (64 - (room + 1)))
    else [((nodes n).sym.toNat, { len := BitVec.ofNat 7 (64 - (room + 1)), value := v })]

theorem leafWords_leaf {nodes : Nat → Node} {n : Nat} (h : (nodes n).internal = false) (room : Nat) (v : Dword) :
    leafWords nodes room n v = [((nodes n).sym.toNat, { len := BitVec.ofNat 7 (64 - room), value := v })] := by
  cases room <;> simp [leafWords, h]

theorem leafWords_internal {nodes : Nat → Node} {n : Nat} (h : (nodes n).internal = true) (room : Nat) (v : Dword) :
    leafWords nodes (room + 1) n v = leafWords nodes room (nodes n).left.toNat v ++
      leafWords nodes room (nodes n).right.toNat (v ||| 1#64 <<< (64 - (room + 1))) := by
  rw [leafWords, if_pos h]

/-- How a traversal comes to a table: it records a leaf, or it goes through both subtrees of an internal node (R130). -/
theorem walk_recorded_cases {nodes : Nat → Node} {room n : Nat} {v : Dword} {below : List Frame}
    {table table' : Store CodeWord} (h : walk nodes room n v below table = .recorded table') :
    ((nodes n).internal = false ∧
      table' = Store.put (nodes n).sym.toNat { len := BitVec.ofNat 7 (64 - room), value := v } table) ∨
    (∃ room' below' table₁, room = room' + 1 ∧ (nodes n).internal = true ∧
      walk nodes room' (nodes n).left.toNat v below' table = .recorded table₁ ∧
      walk nodes room' (nodes n).right.toNat (v ||| 1#64 <<< (64 - room)) below table₁ = .recorded table') := by
  cases hn : (nodes n).internal with
  | false => rw [walk_leaf hn] at h; exact .inl ⟨rfl, (Walk.recorded.inj h).symm⟩
  | true =>
    cases room with
    | zero => rw [walk_tooLong hn] at h; exact Walk.noConfusion h
    | succ room =>
      rw [walk_internal hn] at h
      split at h
      · exact Walk.noConfusion h
      · rename_i table₁ h₁
        exact .inr ⟨room, _, table₁, rfl, rfl, h₁, h⟩

/-- A traversal that ends with a table has put every code word below the node in it (R130). -/
theorem eq_of_walk_recorded {nodes : Nat → Node} {room n : Nat} {v : Dword} {below : List Frame}
    {table table' : Store CodeWord} (h : walk nodes room n v below table = .recorded table') :
    table' = (leafWords nodes room n v).foldl (fun m e => Store.put e.1 e.2 m) table := by
  induction room using Nat.strong_induction_on generalizing n v below table table' with
  | _ room ih =>
    obtain ⟨hn, rfl⟩ | ⟨room', below', table₁, rfl, hn, h₁, h₂⟩ := walk_recorded_cases h
    · rw [leafWords_leaf hn]; rfl
    · rw [leafWords_internal hn, List.foldl_append, ← ih room' (by omega) h₁]
      exact ih room' (by omega) h₂

/-- The share of the code space that a code word takes, in units of `2^-64` (R134). -/
def share (e : Nat × CodeWord) : Nat := 2 ^ (64 - e.2.len.toNat)

theorem toNat_codeLen (room : Nat) : (BitVec.ofNat 7 (64 - room)).toNat = 64 - room := by
  rw [BitVec.toNat_ofNat]; omega

/-- The code words below a node share out its part of the code space (R134). -/
theorem sum_share_leafWords {nodes : Nat → Node} {room n : Nat} {v : Dword} {below : List Frame}
    {table table' : Store CodeWord} (hroom : room ≤ 64) (h : walk nodes room n v below table = .recorded table') :
    ((leafWords nodes room n v).map share).sum = 2 ^ room := by
  induction room using Nat.strong_induction_on generalizing n v below table table' with
  | _ room ih =>
    obtain ⟨hn, -⟩ | ⟨room', below', table₁, rfl, hn, h₁, h₂⟩ := walk_recorded_cases h
    · rw [leafWords_leaf hn, List.map_singleton, List.sum_singleton, share, toNat_codeLen, Nat.sub_sub_self hroom]
    · rw [leafWords_internal hn, List.map_append, List.sum_append, ih room' (by omega) (by omega) h₁,
        ih room' (by omega) (by omega) h₂, pow_succ]
      omega

section
variable {nodes : Nat → Node} {root room n l : Nat} {v : Dword} {e : Nat × CodeWord}

/-- A path to a leaf that goes through an internal node is longer than the path to that node. -/
theorem LeafPath.lt_len_of_internal (he : LeafPath nodes root e) (hlead : Leads nodes root v l n)
    (hn : (nodes n).internal = true) (hlen : l ≤ e.2.len.toNat) (h : Through v l e.2.value) : l < e.2.len.toNat := by
  refine lt_of_le_of_ne hlen fun heq => ?_
  obtain ⟨-, m, hm, hleaf, -⟩ := he
  have hend := follow_of_through hlead h
  rw [heq, hm.path, Option.some.injEq] at hend
  rw [hend, hn] at hleaf
  exact Bool.noConfusion hleaf

/-- A path that goes through a leaf ends there. -/
theorem LeafPath.eq_of_leaf (he : LeafPath nodes root e) (hlead : Leads nodes root v l n)
    (hn : (nodes n).internal = false) (hlen : l ≤ e.2.len.toNat) (h : Through v l e.2.value) :
    e = ((nodes n).sym.toNat, { len := BitVec.ofNat 7 l, value := v }) := by
  obtain ⟨-, m, hm, -, hsym⟩ := he
  obtain ⟨d, hd⟩ := Nat.exists_eq_add_of_le hlen
  have hrest := hm.path
  rw [hd, follow_add, follow_of_through hlead h, Option.bind_some] at hrest
  cases d with
  | zero =>
    have hnm : n = m := Option.some.inj hrest
    have hbound := hm.bound
    rw [hd] at hbound
    have hval : e.2.value = v := eq_of_through hlead.bound hbound h
    have hl : e.2.len = BitVec.ofNat 7 l := by rw [show l = e.2.len.toNat by omega, BitVec.ofNat_toNat, BitVec.setWidth_eq]
    obtain ⟨x, len, value⟩ := e
    simp only at hval hl hsym
    rw [hval, hl, ← hsym, hnm]
  | succ d => rw [follow_succ_leaf hn] at hrest; exact absurd hrest (by simp)

theorem mem_leafWords_leaf (hroom : room ≤ 64) (hlead : Leads nodes root v (64 - room) n)
    (hn : (nodes n).internal = false) :
    e ∈ leafWords nodes room n v ↔
      LeafPath nodes root e ∧ 64 - room ≤ e.2.len.toNat ∧ Through v (64 - room) e.2.value := by
  rw [leafWords_leaf hn, List.mem_singleton]
  constructor
  · rintro rfl
    rw [toNat_codeLen]
    exact ⟨⟨by rw [toNat_codeLen]; omega, n, by rw [toNat_codeLen]; exact hlead, hn, rfl⟩, le_rfl, fun _ _ => rfl⟩
  · rintro ⟨he, hlen, h⟩
    exact he.eq_of_leaf hlead hn hlen h

/-- The code words below a node are those whose path goes through it to a leaf (R130, R131). -/
theorem mem_leafWords (hroom : room ≤ 64) (hlead : Leads nodes root v (64 - room) n) :
    e ∈ leafWords nodes room n v ↔
      LeafPath nodes root e ∧ 64 - room ≤ e.2.len.toNat ∧ Through v (64 - room) e.2.value := by
  induction room generalizing n v with
  | zero =>
    cases hn : (nodes n).internal with
    | true =>
      rw [leafWords, if_pos hn]
      refine iff_of_false List.not_mem_nil ?_
      rintro ⟨he, hlen, h⟩
      have hlong := he.lt_len_of_internal hlead hn hlen h
      have := he.1
      omega
    | false => exact mem_leafWords_leaf hroom hlead hn
  | succ room ih =>
    cases hn : (nodes n).internal with
    | true =>
      have hl : 64 - room = 64 - (room + 1) + 1 := by omega
      have hleft := ih (by omega) (hl ▸ hlead.left hn)
      have hright := ih (by omega) (hl ▸ hlead.right hn (by omega))
      rw [leafWords_internal hn, List.mem_append, hleft, hright, hl, through_left hlead.bound, through_right (by omega)]
      constructor
      · rintro (⟨he, hlen, h, -⟩ | ⟨he, hlen, h, -⟩) <;> exact ⟨he, by omega, h⟩
      · rintro ⟨he, hlen, h⟩
        have hlong := he.lt_len_of_internal hlead hn hlen h
        cases hbit : e.2.value.getLsbD (64 - (room + 1)) with
        | false => exact .inl ⟨he, hlong, h, rfl⟩
        | true => exact .inr ⟨he, hlong, h, rfl⟩
    | false => exact mem_leafWords_leaf hroom hlead hn

/-- No code word is recorded twice: those on the left of a node and those on its right differ in its bit (R131). -/
theorem nodup_leafWords (hroom : room ≤ 64) (hlead : Leads nodes root v (64 - room) n) :
    (leafWords nodes room n v).Nodup := by
  induction room generalizing n v with
  | zero =>
    rw [leafWords]
    split
    · exact .nil
    · exact List.nodup_singleton _
  | succ room ih =>
    cases hn : (nodes n).internal with
    | true =>
      have hl : 64 - room = 64 - (room + 1) + 1 := by omega
      have hleft : Leads nodes root v (64 - room) _ := hl ▸ hlead.left hn
      have hright : Leads nodes root _ (64 - room) _ := hl ▸ hlead.right hn (by omega)
      rw [leafWords_internal hn]
      refine (ih (by omega) hleft).append (ih (by omega) hright) fun e he he' => ?_
      obtain ⟨-, -, h⟩ := (mem_leafWords (by omega) hleft).1 he
      obtain ⟨-, -, h'⟩ := (mem_leafWords (by omega) hright).1 he'
      rw [hl, through_left hlead.bound] at h
      rw [hl, through_right (by omega)] at h'
      exact Bool.noConfusion (h.2.symm.trans h'.2)
    | false => rw [leafWords_leaf hn]; exact List.nodup_singleton _

/-! When the traversal ends with a table, and when it does not. -/

/-- With no internal node at depth 64 below it, the traversal of a node ends with a table (R130, R133). -/
theorem walk_recorded_of_shallow (hroom : room ≤ 64) (hlead : Leads nodes root v (64 - room) n)
    (hshallow : ∀ u m, Through v (64 - room) u → follow nodes u 0 64 root = some m → (nodes m).internal = false)
    (below : List Frame) (table : Store CodeWord) : ∃ table', walk nodes room n v below table = .recorded table' := by
  induction room generalizing n v below table with
  | zero => exact ⟨_, walk_leaf (hshallow v n (fun _ _ => rfl) hlead.path) 0 v below table⟩
  | succ room ih =>
    cases hn : (nodes n).internal with
    | true =>
      have hl : 64 - room = 64 - (room + 1) + 1 := by omega
      obtain ⟨table₁, h₁⟩ := ih (by omega) (hl ▸ hlead.left hn)
        (fun u m hu => hshallow u m ((through_left hlead.bound).1 (hl ▸ hu)).1) _ table
      obtain ⟨table₂, h₂⟩ := ih (by omega) (hl ▸ hlead.right hn (by omega))
        (fun u m hu => hshallow u m ((through_right (by omega)).1 (hl ▸ hu)).1) below table₁
      exact ⟨table₂, by rw [walk_internal hn, h₁]; exact h₂⟩
    | false => exact ⟨_, walk_leaf hn _ v below table⟩

/-- The path of `u` leads to an internal node at depth 64 (R133). -/
def TooDeep (nodes : Nat → Node) (root : Nat) (u : Dword) : Prop :=
  ∃ m, follow nodes u 0 64 root = some m ∧ (nodes m).internal = true

/-- `u` stands before `u'` in the order of the left-first traversal: they part at a bit where `u` goes left. -/
def VisitedBefore (u u' : Dword) : Prop :=
  ∃ k < 64, (∀ j < k, u.getLsbD j = u'.getLsbD j) ∧ u.getLsbD k = false ∧ u'.getLsbD k = true

/-- The traversal ends at the first internal node of depth 64 below it that it visits (R130, R133). -/
theorem walk_tooLong_of_first {u : Dword} {m : Nat} (hroom : room ≤ 64) (hlead : Leads nodes root v (64 - room) n)
    (hthrough : Through v (64 - room) u) (hpath : follow nodes u 0 64 root = some m) (hm : (nodes m).internal = true)
    (hfirst : ∀ u', TooDeep nodes root u' → u' ≠ u → VisitedBefore u u') (below : List Frame) (table : Store CodeWord) :
    ∃ stack, walk nodes room n v below table = .tooLong m stack := by
  induction room generalizing n v below table with
  | zero =>
    have hend := follow_of_through hlead hthrough
    rw [hpath, Option.some.injEq] at hend
    rw [← hend]
    exact ⟨below, walk_tooLong hm v below table⟩
  | succ room ih =>
    have hl : 64 - room = 64 - (room + 1) + 1 := by omega
    have hn : (nodes n).internal = true := by
      by_contra hleaf
      rw [show 64 = 64 - (room + 1) + (room + 1) by omega, follow_add, follow_of_through hlead hthrough, Option.bind_some,
        follow_succ_leaf (Bool.eq_false_iff.2 hleaf)] at hpath
      exact absurd hpath (by simp)
    rw [walk_internal hn]
    cases hbit : u.getLsbD (64 - (room + 1)) with
    | false =>
      obtain ⟨stack, h⟩ := ih (by omega) (hl ▸ hlead.left hn) (hl ▸ (through_left hlead.bound).2 ⟨hthrough, hbit⟩) _ table
      exact ⟨stack, by rw [h]⟩
    | true =>
      have hclear : ∀ u' m', Through v (64 - room) u' → follow nodes u' 0 64 root = some m' →
          (nodes m').internal = false := by
        intro u' m' hu' hm'
        rw [hl, through_left hlead.bound] at hu'
        by_contra hinner
        obtain ⟨k, -, hsame, hleft, hright⟩ := hfirst u' ⟨m', hm', Bool.eq_true_of_not_eq_false hinner⟩
          (by rintro rfl; exact Bool.noConfusion (hbit.symm.trans hu'.2))
        rcases Nat.lt_trichotomy k (64 - (room + 1)) with hk | rfl | hk
        · exact Bool.noConfusion (hleft.symm.trans ((hthrough k hk).trans ((hu'.1 k hk).symm.trans hright)))
        · exact Bool.noConfusion (hleft.symm.trans hbit)
        · exact Bool.noConfusion (hbit.symm.trans ((hsame _ hk).trans hu'.2))
      obtain ⟨table₁, h₁⟩ := walk_recorded_of_shallow (by omega) (hl ▸ hlead.left hn) hclear _ table
      obtain ⟨stack, h⟩ := ih (by omega) (hl ▸ hlead.right hn (by omega))
        (hl ▸ (through_right (by omega)).2 ⟨hthrough, hbit⟩) below table₁
      exact ⟨stack, by rw [h₁]; exact h⟩

end

end Sys2Proof.Machine
end

section
/-! GENCODE's table: the paths of a tree of its shape, the store they are put in, and the command's ends
(R50, R130 to R134). -/

namespace Sys2Proof.Machine

/-! The tree's shape: every node is reached by one path, and every symbol stands at one leaf (R50, R119). -/

theorem mem_presentSymbols {m : Store Word} {x : Nat} : x ∈ presentSymbols m ↔ x < 256 ∧ countAt m x ≠ 0 := by
  simp [presentSymbols, Config.kMax]

theorem nodup_presentSymbols (m : Store Word) : (presentSymbols m).Nodup := List.nodup_range.filter _

/-- No internal node stands at depth 64 (R133). -/
def Shallow (nodes : Nat → Node) (root : Nat) : Prop :=
  ∀ v n, follow nodes v 0 64 root = some n → (nodes n).internal = false

section
variable {s : State} (h : TreeShape s)
include h

theorem TreeShape.nodeAt_leaf {j : Nat} (hj : j < s.numSyms) :
    s.nodeAt j = leaf (BitVec.ofNat 8 ((presentSymbols s.freq).getD j 0)) (s.freqAt ((presentSymbols s.freq).getD j 0)) := by
  rw [State.nodeAt, arenaAt, h.leaves j hj, Option.getD_some]

theorem TreeShape.internal_iff {n : Nat} (hn : n < s.nodeCount.toNat) : (s.nodeAt n).internal = true ↔ s.numSyms ≤ n := by
  constructor
  · intro hi
    by_contra hlt
    rw [h.nodeAt_leaf (by omega)] at hi
    exact Bool.noConfusion hi
  · intro hk
    obtain ⟨-, hi, -⟩ := h.inner n hn hk
    exact hi

theorem TreeShape.lt_of_isParent {c i : Nat} (hi : i < s.nodeCount.toNat) (hc : isParent s c i = true) :
    (s.nodeAt i).internal = true ∧ s.numSyms ≤ i ∧ c < i := by
  simp only [isParent, Bool.and_eq_true, Bool.or_eq_true, decide_eq_true_eq] at hc
  obtain ⟨hint, hchild⟩ := hc
  have hk := (h.internal_iff hi).1 hint
  obtain ⟨-, -, -, hleft, hright, -⟩ := h.inner i hi hk
  exact ⟨hint, hk, by omega⟩

/-- A node has one parent (R50). -/
theorem TreeShape.parent_unique {c i j : Nat} (hi : i < s.nodeCount.toNat) (hj : j < s.nodeCount.toNat)
    (hci : isParent s c i = true) (hcj : isParent s c j = true) : i = j := by
  obtain ⟨-, -, hlt⟩ := h.lt_of_isParent hi hci
  have hroot := h.root
  obtain ⟨p, hp⟩ := List.length_eq_one_iff.1 (h.owned c (by omega) (by omega))
  have hmem : ∀ k < s.nodeCount.toNat, isParent s c k = true → k = p := fun k hk hck =>
    List.mem_singleton.1 (hp ▸ List.mem_filter.2 ⟨List.mem_range.2 hk, hck⟩)
  rw [hmem i hi hci, hmem j hj hcj]

/-- Every node but ROOT has a parent (R50). -/
theorem TreeShape.exists_parent {c : Nat} (hc : c < s.nodeCount.toNat) (hroot : c ≠ s.root.toNat) :
    ∃ i < s.nodeCount.toNat, isParent s c i = true := by
  obtain ⟨p, hp⟩ := List.length_eq_one_iff.1 (h.owned c hc hroot)
  obtain ⟨hrange, hparent⟩ := List.mem_filter.1 (hp ▸ List.mem_singleton_self p)
  exact ⟨p, List.mem_range.1 hrange, hparent⟩

/-- A path stays in the tree. -/
theorem TreeShape.follow_lt {v : Dword} {l n : Nat} (hpath : follow s.nodeAt v 0 l s.root.toNat = some n) :
    n < s.nodeCount.toNat := by
  induction l generalizing n with
  | zero => have := h.root; rw [← Option.some.inj hpath]; omega
  | succ l ih =>
    obtain ⟨p, hp, hint, rfl⟩ := follow_last.1 hpath
    have hlt := ih hp
    obtain ⟨-, -, -, hleft, hright, -⟩ := h.inner p hlt ((h.internal_iff hlt).1 hint)
    split <;> omega

/-- The last edge of a path leads from a parent (R50, R131). -/
theorem TreeShape.last_edge {v : Dword} {l n : Nat} (hpath : follow s.nodeAt v 0 (l + 1) s.root.toNat = some n) :
    ∃ p, follow s.nodeAt v 0 l s.root.toNat = some p ∧ p < s.nodeCount.toNat ∧ isParent s n p = true ∧
      (if v.getLsbD l then (s.nodeAt p).right.toNat else (s.nodeAt p).left.toNat) = n := by
  obtain ⟨p, hp, hint, hedge⟩ := follow_last.1 hpath
  refine ⟨p, hp, h.follow_lt hp, ?_, hedge⟩
  rw [isParent, hint, Bool.true_and, Bool.or_eq_true, decide_eq_true_eq, decide_eq_true_eq]
  split at hedge
  · exact .inr hedge
  · exact .inl hedge

theorem TreeShape.no_path_to_root {v : Dword} {l : Nat} :
    follow s.nodeAt v 0 (l + 1) s.root.toNat ≠ some s.root.toNat := by
  intro hpath
  obtain ⟨p, -, hp, hparent, -⟩ := h.last_edge hpath
  have := h.lt_of_isParent hp hparent
  have := h.root
  omega

/-- Two paths to one node are the same path (R50, R131). -/
theorem TreeShape.path_unique {v u : Dword} {l m n : Nat} (hv : follow s.nodeAt v 0 l s.root.toNat = some n)
    (hu : follow s.nodeAt u 0 m s.root.toNat = some n) : l = m ∧ Through v l u := by
  induction l generalizing m n with
  | zero =>
    cases m with
    | zero => exact ⟨rfl, through_zero v u⟩
    | succ m => rw [← Option.some.inj hv] at hu; exact absurd hu h.no_path_to_root
  | succ l ih =>
    cases m with
    | zero => rw [← Option.some.inj hu] at hv; exact absurd hv h.no_path_to_root
    | succ m =>
      obtain ⟨p, hp, hplt, hparent, hedge⟩ := h.last_edge hv
      obtain ⟨q, hq, hqlt, hparent', hedge'⟩ := h.last_edge hu
      obtain rfl := h.parent_unique hplt hqlt hparent hparent'
      obtain ⟨hlm, hthrough⟩ := ih hp hq
      obtain ⟨-, hk, -⟩ := h.lt_of_isParent hplt hparent
      obtain ⟨-, -, -, -, -, hdistinct, -⟩ := h.inner p hplt hk
      have hne : (s.nodeAt p).left.toNat ≠ (s.nodeAt p).right.toNat := fun heq => hdistinct (BitVec.eq_of_toNat_eq heq)
      refine ⟨by omega, through_succ.2 ⟨hthrough, ?_⟩⟩
      subst hlm
      cases hb : v.getLsbD l <;> cases hb' : u.getLsbD l <;> simp_all

/-- With no internal node at depth 64, every node is reached in at most 64 edges (R50, R133). -/
theorem TreeShape.reached (hshallow : Shallow s.nodeAt s.root.toNat) {c : Nat} (hc : c < s.nodeCount.toNat) :
    ∃ v l, l ≤ 64 ∧ Leads s.nodeAt s.root.toNat v l c := by
  by_cases hroot : c = s.root.toNat
  · exact ⟨0, 0, by omega, hroot ▸ leads_root _ _⟩
  · obtain ⟨i, hi, hparent⟩ := h.exists_parent hc hroot
    obtain ⟨hint, -, hlt⟩ := h.lt_of_isParent hi hparent
    obtain ⟨v, l, hl, hlead⟩ := TreeShape.reached hshallow hi
    have hl' : l ≠ 64 := by
      rintro rfl
      exact Bool.noConfusion (hint.symm.trans (hshallow v i hlead.path))
    simp only [isParent, hint, Bool.true_and, Bool.or_eq_true, decide_eq_true_eq] at hparent
    rcases hparent with rfl | rfl
    · exact ⟨v, l + 1, by omega, hlead.left hint⟩
    · exact ⟨_, l + 1, by omega, hlead.right hint (by omega)⟩
termination_by s.nodeCount.toNat - c

theorem TreeShape.sym_leaf {j : Nat} (hj : j < s.numSyms) :
    (s.nodeAt j).sym.toNat = (presentSymbols s.freq)[j]'hj := by
  have hlt := (mem_presentSymbols.1 (List.getElem_mem hj)).1
  rw [h.nodeAt_leaf hj, leaf, BitVec.toNat_ofNat, List.getD_eq_getElem _ _ hj]
  omega

/-- A recorded path leads to the leaf of its symbol (R45, R50). -/
theorem TreeShape.leaf_of_leafPath {e : Nat × CodeWord} (he : LeafPath s.nodeAt s.root.toNat e) :
    ∃ n, ∃ hn : n < s.numSyms, follow s.nodeAt e.2.value 0 e.2.len.toNat s.root.toNat = some n ∧
      (presentSymbols s.freq)[n]'hn = e.1 := by
  obtain ⟨-, n, hlead, hleaf, hsym⟩ := he
  have hlt := h.follow_lt hlead.path
  have hn : n < s.numSyms := by
    by_contra hge
    exact Bool.noConfusion (hleaf.symm.trans ((h.internal_iff hlt).2 (by omega)))
  exact ⟨n, hn, hlead.path, by rw [← h.sym_leaf hn, hsym]⟩

/-- A symbol has one path (R134). -/
theorem TreeShape.leafPath_unique {e f : Nat × CodeWord} (he : LeafPath s.nodeAt s.root.toNat e)
    (hf : LeafPath s.nodeAt s.root.toNat f) (hsym : e.1 = f.1) : e = f := by
  obtain ⟨n, hn, hpath, hx⟩ := h.leaf_of_leafPath he
  obtain ⟨m, hm, hpath', hy⟩ := h.leaf_of_leafPath hf
  obtain rfl : n = m := (nodup_presentSymbols s.freq).getElem_inj_iff.1 (hx.trans (hsym.trans hy.symm))
  obtain ⟨hlen, hthrough⟩ := h.path_unique hpath hpath'
  obtain ⟨-, _, ⟨-, hbound⟩, -⟩ := he
  obtain ⟨-, _, ⟨-, hbound'⟩, -⟩ := hf
  rw [← hlen] at hbound'
  have hval := eq_of_through hbound hbound' hthrough
  obtain ⟨x, ⟨len, value⟩⟩ := e
  obtain ⟨y, ⟨len', value'⟩⟩ := f
  obtain rfl : len = len' := BitVec.eq_of_toNat_eq hlen
  exact Prod.ext hsym (by rw [show value' = value from hval])

/-- Every symbol of the tree has a path (R134). -/
theorem TreeShape.exists_leafPath (hshallow : Shallow s.nodeAt s.root.toNat) {x : Nat} (hx : x ∈ presentSymbols s.freq) :
    ∃ w, LeafPath s.nodeAt s.root.toNat (x, w) := by
  obtain ⟨j, hj, rfl⟩ := List.mem_iff_getElem.1 hx
  have hsize := h.size
  have hk : j < s.numSyms := hj
  obtain ⟨v, l, hl, hlead⟩ := h.reached hshallow (c := j) (by omega)
  have hlen : (BitVec.ofNat 7 l).toNat = l := by rw [BitVec.toNat_ofNat]; omega
  exact ⟨{ len := BitVec.ofNat 7 l, value := v }, by simp only [hlen]; exact hl, j, by simp only [hlen]; exact hlead,
    by rw [h.nodeAt_leaf hk]; rfl, h.sym_leaf hk⟩

end

/-! The table, as a store. -/

/-- A store lists what it did and an element written where it listed none. -/
theorem Store.put_perm {α : Type} {m : Store α} {k : Nat} {v : α} (hnew : ∀ e ∈ m, e.1 ≠ k) :
    (Store.put k v m).Perm ((k, v) :: m) := by
  induction m with
  | nil => exact .refl _
  | cons e m ih =>
    obtain ⟨i, w⟩ := e
    have hik : k ≠ i := (hnew (i, w) List.mem_cons_self).symm
    rw [Store.put, if_neg hik]
    split
    · exact .refl _
    · exact ((ih fun e he => hnew e (List.mem_cons_of_mem _ he)).cons _).trans (.swap _ _ _)

/-- Elements written at different indices are all listed, and nothing else. -/
theorem Store.foldl_put_perm {α : Type} {l m : Store α} (h : ((l ++ m).map Prod.fst).Nodup) :
    (l.foldl (fun m e => Store.put e.1 e.2 m) m).Perm (l ++ m) := by
  induction l generalizing m with
  | nil => exact .refl _
  | cons e l ih =>
    rw [List.cons_append, List.map_cons, List.nodup_cons] at h
    obtain ⟨hnew, hrest⟩ := h
    have hput : (Store.put e.1 e.2 m).Perm (e :: m) :=
      Store.put_perm fun f hf hfe => hnew (hfe ▸ List.mem_map_of_mem (List.mem_append_right _ hf))
    have hmiddle : (l ++ Store.put e.1 e.2 m).Perm (e :: (l ++ m)) := (hput.append_left l).trans List.perm_middle
    refine (ih ?_).trans hmiddle
    rw [(hmiddle.map _).nodup_iff]
    exact List.nodup_cons.2 ⟨hnew, hrest⟩

/-- The code words below ROOT are the paths to the leaves (R131). -/
theorem mem_leafWords_root {nodes : Nat → Node} {root : Nat} {e : Nat × CodeWord} :
    e ∈ leafWords nodes Config.maxCodeLen root 0 ↔ LeafPath nodes root e :=
  (mem_leafWords le_rfl (leads_root nodes root)).trans
    ⟨fun he => he.1, fun he => ⟨he, Nat.zero_le _, through_zero _ _⟩⟩

/-- GENCODE's table lists the code words below ROOT, each symbol at its one leaf (R130, R134). -/
theorem TreeShape.table_perm {s : State} (h : TreeShape s) {table : Store CodeWord}
    (hwalk : walk s.nodeAt Config.maxCodeLen s.root.toNat 0 [] [] = .recorded table) :
    table.Perm (leafWords s.nodeAt Config.maxCodeLen s.root.toNat 0) := by
  rw [eq_of_walk_recorded hwalk]
  refine (Store.foldl_put_perm ?_).trans (by rw [List.append_nil])
  rw [List.append_nil]
  exact (nodup_leafWords le_rfl (leads_root _ _)).map_on fun e he f hf heq =>
    h.leafPath_unique (mem_leafWords_root.1 he) (mem_leafWords_root.1 hf) heq

theorem TreeShape.mem_table {s : State} (h : TreeShape s) {table : Store CodeWord}
    (hwalk : walk s.nodeAt Config.maxCodeLen s.root.toNat 0 [] [] = .recorded table) (e : Nat × CodeWord) :
    e ∈ table ↔ LeafPath s.nodeAt s.root.toNat e := by
  rw [(h.table_perm hwalk).mem_iff, mem_leafWords_root]

/-- A symbol reads as a code word exactly when that is the path to its leaf (R131). -/
theorem TreeShape.find_table {s : State} (h : TreeShape s) {table : Store CodeWord}
    (hwalk : walk s.nodeAt Config.maxCodeLen s.root.toNat 0 [] [] = .recorded table) (x : Nat) (w : CodeWord) :
    Store.find table x = some w ↔ LeafPath s.nodeAt s.root.toNat (x, w) := by
  obtain ⟨hrising, -⟩ := walk_wf _ _ _ _ _ [] table rfl rfl hwalk
  rw [Store.find_eq_some_iff hrising, h.mem_table hwalk]

/-- The table holds the symbols of the tree (R134). -/
theorem TreeShape.symbols_table {s : State} (h : TreeShape s) (hshallow : Shallow s.nodeAt s.root.toNat)
    {table : Store CodeWord} (hwalk : walk s.nodeAt Config.maxCodeLen s.root.toNat 0 [] [] = .recorded table) :
    (table.map Prod.fst).Perm (presentSymbols s.freq) := by
  obtain ⟨hrising, -⟩ := walk_wf _ _ _ _ _ [] table rfl rfl hwalk
  have hnodup : (table.map Prod.fst).Nodup := ((Store.rising_iff table).1 hrising).imp fun hlt => hlt.ne
  refine (List.perm_ext_iff_of_nodup hnodup (nodup_presentSymbols _)).2 fun x => ?_
  rw [List.mem_map]
  constructor
  · rintro ⟨e, he, rfl⟩
    obtain ⟨n, hn, -, hsym⟩ := h.leaf_of_leafPath ((h.mem_table hwalk e).1 he)
    exact hsym ▸ List.getElem_mem hn
  · intro hx
    obtain ⟨w, hw⟩ := h.exists_leafPath hshallow hx
    exact ⟨(x, w), (h.mem_table hwalk _).2 hw, rfl⟩

/-! GENCODE's ends. -/

theorem walk_root_recorded {s : State} (hshallow : Shallow s.nodeAt s.root.toNat) :
    ∃ table, walk s.nodeAt Config.maxCodeLen s.root.toNat 0 [] [] = .recorded table :=
  walk_recorded_of_shallow le_rfl (leads_root _ _) (fun u m _ hm => hshallow u m hm) [] []

/-- GENCODE of a leaf (R132). -/
theorem runGencode_of_leaf {s : State} (hvalid : s.treeValid = true) (hroot : (s.nodeAt s.root.toNat).internal = false) :
    runGencode s = .running { clearTable s with code := singleCode (s.nodeAt s.root.toNat).sym, tableValid := true } := by
  rw [runGencode, if_pos hvalid]
  simp only [hroot, if_neg Bool.false_ne_true]

/-- GENCODE of an internal node is the end of its traversal (R130, R133). -/
theorem runGencode_of_recorded {s : State} (hvalid : s.treeValid = true)
    (hroot : (s.nodeAt s.root.toNat).internal = true) {table : Store CodeWord}
    (hwalk : walk s.nodeAt Config.maxCodeLen s.root.toNat 0 [] [] = .recorded table) :
    runGencode s = .running { clearTable s with code := table, tableValid := true, stack := [] } := by
  rw [runGencode, if_pos hvalid]
  simp only [hroot, if_true, hwalk]

theorem runGencode_of_tooLong {s : State} (hvalid : s.treeValid = true)
    (hroot : (s.nodeAt s.root.toNat).internal = true) {n : Nat} {stack : List Frame}
    (hwalk : walk s.nodeAt Config.maxCodeLen s.root.toNat 0 [] [] = .tooLong n stack) :
    runGencode s = raise .codeTooLong (BitVec.ofNat 32 n) { clearTable s with stack := stack } := by
  rw [runGencode, if_pos hvalid]
  simp only [hroot, if_true, hwalk]

/-- A GENCODE that leaves a table of a tree with an internal root has recorded it (R130). -/
theorem walk_of_gencode {s t : State} (h : exec .gencode s = .next t) (hvalid : s.treeValid = true)
    (hroot : (s.nodeAt s.root.toNat).internal = true) (htable : t.tableValid = true) :
    walk s.nodeAt Config.maxCodeLen s.root.toNat 0 [] [] = .recorded t.code := by
  have ht : t = (runGencode s).state := eq_of_exec h
  cases hwalk : walk s.nodeAt Config.maxCodeLen s.root.toNat 0 [] [] with
  | tooLong n stack =>
    rw [runGencode_of_tooLong hvalid hroot hwalk] at ht
    rw [ht] at htable
    exact Bool.noConfusion htable
  | recorded table => rw [ht, runGencode_of_recorded hvalid hroot hwalk, state_running]

theorem TreeShape.root_internal {s : State} (h : TreeShape s) (hk : 2 ≤ s.numSyms) :
    (s.nodeAt s.root.toNat).internal = true := by
  have hsize := h.size
  have hroot := h.root
  exact (h.internal_iff (by omega)).2 (by omega)

end Sys2Proof.Machine

open Sys2Proof Sys2Proof.Machine

/-- Settles O41: GENCODE's own case for a leaf at ROOT. -/
theorem gencodeOfOneLeaf : Obligations.GencodeOfOneLeaf := by
  intro s hvalid hroot
  refine ⟨_, by rw [exec_eq, pseudocode, runGencode_of_leaf hvalid hroot, state_running], rfl, fun x => ?_⟩
  rw [State.codeAt, singleCode, Store.find_cons, Store.find_nil]

/-- Settles O42: the traversal lists the paths to the leaves, and no two of them have the same symbol. -/
theorem gencodeRecordsThePaths : Obligations.GencodeRecordsThePaths := by
  intro s hvalid hshape hroot hshallow
  obtain ⟨table, hwalk⟩ := walk_root_recorded hshallow
  refine ⟨_, by rw [exec_eq, pseudocode, runGencode_of_recorded hvalid hroot hwalk, state_running], rfl, ?_, fun x w => ?_⟩
  · rw [← List.length_map Prod.fst, (hshape.symbols_table hshallow hwalk).length_eq, State.numSyms]
  · refine (hshape.find_table hwalk x w).trans ⟨?_, ?_⟩
    · rintro ⟨hlen, n, ⟨hpath, hbound⟩, hleaf⟩
      exact ⟨hlen, hbound, n, hpath, hleaf⟩
    · rintro ⟨hlen, hbound, n, hpath, hleaf⟩
      exact ⟨hlen, n, ⟨hpath, hbound⟩, hleaf⟩

/-- Settles O43: left of the first deep path every subtree is recorded, and the path itself ends the traversal. -/
theorem gencodeRejectsDeepTrees : Obligations.GencodeRejectsDeepTrees := by
  intro s v n hvalid hpath hn hfirst
  have hroot : (s.nodeAt s.root.toNat).internal = true := by
    by_contra hleaf
    rw [follow_succ_leaf (Bool.eq_false_iff.2 hleaf)] at hpath
    exact absurd hpath (by simp)
  obtain ⟨stack, hwalk⟩ := walk_tooLong_of_first le_rfl (leads_root _ _) (through_zero _ _) hpath hn
    (fun u ⟨m, hm, hint⟩ hne => hfirst u m hm hint hne) [] []
  exact ⟨_, by rw [exec_eq, pseudocode, runGencode_of_tooLong hvalid hroot hwalk], rfl⟩

/-- Settles O44: each internal node halves its part of the code space between its two subtrees. -/
theorem kraftEquality : Obligations.KraftEquality := by
  intro s t hvalid hshape hk hrun htable
  have hwalk := walk_of_gencode hrun hvalid (hshape.root_internal hk) htable
  calc (t.code.map share).sum
      = ((leafWords s.nodeAt Config.maxCodeLen s.root.toNat 0).map share).sum :=
        ((hshape.table_perm hwalk).map share).sum_eq
    _ = 2 ^ 64 := sum_share_leafWords le_rfl hwalk
end

section
/-! The order in which BUILD takes the nodes, and what it makes of the tree: a lighter node is taken earlier, and an earlier
node does not stand nearer to ROOT (R113, R121, R134). -/

namespace Sys2Proof.Machine

/-- `i` is one of the first `m` nodes of the arena, and `c` is its child. -/
def ParentOf (nodes : Nat → Node) (m c i : Nat) : Prop := i < m ∧ parentIn nodes c i = true

/-- The first `m` nodes of an arena with `k` leaves are merged in the order in which they were taken: the parent of one taken
earlier has been made no later. -/
structure TakenInOrder (nodes : Nat → Node) (k m : Nat) : Prop where
  /-- The weights of the nodes taken do not descend (R121). -/
  ascends : ∀ c d i j, ParentOf nodes m c i → ParentOf nodes m d j → i < j →
    (nodes c).weight.toNat ≤ (nodes d).weight.toNat
  /-- The merged nodes are taken in the order in which they were made, IQ being a queue (R113). -/
  queued : ∀ c d i j, k ≤ c → c ≤ d → ParentOf nodes m c i → ParentOf nodes m d j → i ≤ j

/-- A queue that holds the youngest of the merged nodes before `m`, in the order in which they were made. -/
def Youngest (k m : Nat) (iq : List Nat) : Prop := ∃ t, k ≤ t ∧ t ≤ m ∧ iq = List.range' t (m - t)

theorem Youngest.append {k m : Nat} {iq : List Nat} (h : Youngest k m iq) : Youngest k (m + 1) (iq ++ [m]) := by
  obtain ⟨t, hk, hm, rfl⟩ := h
  refine ⟨t, hk, by omega, ?_⟩
  rw [show m + 1 - t = m - t + 1 by omega, List.range'_concat, show t + 1 * (m - t) = m by omega]

/-- A node made after one of the queue is in the queue. -/
theorem Youngest.mem_of_le {k m c d : Nat} {iq : List Nat} (h : Youngest k m iq) (hc : c ∈ iq) (hcd : c ≤ d) (hd : d < m) :
    d ∈ iq := by
  obtain ⟨t, -, -, rfl⟩ := h
  rw [List.mem_range'_1] at hc ⊢
  omega

/-- TAKE_MIN leaves a queue of leaves and a queue of the youngest nodes (R113). -/
theorem takeMin_youngest {weight : Nat → Word} {k m n : Nat} {lq iq lq' iq' : List Nat} (hlq : ∀ i ∈ lq, i < k)
    (hiq : Youngest k m iq) (h : takeMin weight lq iq = some (n, lq', iq')) :
    (∀ i ∈ lq', i < k) ∧ Youngest k m iq' := by
  obtain ⟨rfl, rfl, -⟩ | ⟨rfl, rfl, -⟩ := takeMin_cases h
  · exact ⟨fun i hi => hlq i (List.mem_cons_of_mem _ hi), hiq⟩
  · refine ⟨hlq, ?_⟩
    obtain ⟨t, hk, hm, hrange⟩ := hiq
    cases hleft : m - t with
    | zero => rw [hleft] at hrange; exact absurd hrange (by simp)
    | succ j =>
      rw [hleft, List.range'_succ, List.cons.injEq] at hrange
      exact ⟨t + 1, by omega, by omega, by rw [hrange.2]; congr 1; omega⟩

/-- What the merge loop keeps of the order in which nodes are taken. -/
structure Greedy (r k : Nat) (f : Forest) : Prop where
  /-- The nodes taken so far. -/
  order : TakenInOrder (arenaAt r f.node) k f.next
  /-- LQ holds leaves. -/
  leaves : ∀ i ∈ f.lq, i < k
  /-- IQ holds the youngest merged nodes. -/
  youngest : Youngest k f.next f.iq
  /-- No node taken is heavier than one that waits. -/
  spent : ∀ c i, ParentOf (arenaAt r f.node) f.next c i → ∀ x ∈ f.waiting, f.weightAt r c ≤ f.weightAt r x

/-- A merge leaves a queue of leaves and a queue of the youngest nodes (R115). -/
theorem Greedy.queues_mergeOnce {r k : Nat} {f g : Forest} (h : Greedy r k f) (hg : mergeOnce r f = some g) :
    (∀ i ∈ g.lq, i < k) ∧ Youngest k g.next g.iq := by
  obtain ⟨a, b, lq₁, iq₁, lq₂, iq₂, h₁, h₂, rfl⟩ := mergeOnce_cases hg
  obtain ⟨hlq₁, hiq₁⟩ := takeMin_youngest h.leaves h.youngest h₁
  obtain ⟨hlq₂, hiq₂⟩ := takeMin_youngest hlq₁ hiq₁ h₂
  exact ⟨hlq₂, hiq₂.append⟩

section
variable {r k total : Nat} {leaves : Store Node} {f g : Forest} {a b : Nat} {rest : List Nat}

/-- A child has been made before its parent, and waits no longer (R50). -/
theorem Growing.child (hf : Growing r k total leaves f) (hleaf : ∀ i < k, (arenaAt r leaves i).internal = false) {c i : Nat}
    (h : ParentOf (arenaAt r f.node) f.next c i) : c < f.next ∧ c ∉ f.waiting := by
  obtain ⟨hi, hparent⟩ := h
  have hlt : c < f.next := by
    have hc := hparent
    simp only [parentIn, Bool.and_eq_true, Bool.or_eq_true, decide_eq_true_eq] at hc
    obtain ⟨hint, hchild⟩ := hc
    have hk : k ≤ i := by
      by_contra hlt
      rw [arenaAt_congr (hf.kept i (.inl (by omega))), hleaf i (by omega)] at hint
      exact Bool.noConfusion hint
    obtain ⟨-, hinner⟩ := hf.inner i hk hi
    have := hinner.left_lt
    have := hinner.right_lt
    omega
  refine ⟨hlt, fun hwait => ?_⟩
  have hnone := hf.owned c hlt
  rw [if_pos hwait, List.length_eq_zero_iff, List.filter_eq_nil_iff] at hnone
  exact hnone i (List.mem_range.2 hi) hparent

/-- A merge makes one parent, of the two nodes taken (R115). -/
theorem Growing.parentOf_merged (hf : Growing r k total leaves f) (hm : Merged r f g a b rest) (hfit : f.next < 512)
    (htotal : total < 2 ^ 32) {c i : Nat} (h : ParentOf (arenaAt r g.node) g.next c i) :
    ParentOf (arenaAt r f.node) f.next c i ∨ (i = f.next ∧ (c = a ∨ c = b)) := by
  obtain ⟨hi, hparent⟩ := h
  rw [hm.next] at hi
  by_cases hnew : i = f.next
  · obtain ⟨-, hl, hr⟩ := hf.innerNode_next hm hfit htotal
    simp only [parentIn, hnew, hl, hr, Bool.and_eq_true, Bool.or_eq_true, decide_eq_true_eq] at hparent
    exact .inr ⟨hnew, by omega⟩
  · rw [parentIn, hm.arenaAt_ne hnew] at hparent
    exact .inl ⟨by omega, hparent⟩

theorem Greedy.start {s : State} :
    Greedy s.resets s.numSyms
      { node := (buildLeaves s).node, lq := sortedLeaves (buildLeaves s) s.numSyms, iq := [], next := s.numSyms } := by
  have hnone : ∀ c i, ¬ ParentOf (arenaAt s.resets (buildLeaves s).node) s.numSyms c i := by
    rintro c i ⟨hi, hparent⟩
    rw [parentIn, arenaAt_buildLeaves s _ hi] at hparent
    exact Bool.noConfusion hparent
  exact ⟨⟨fun _ _ _ _ h => absurd h (hnone _ _), fun _ _ _ _ _ _ h => absurd h (hnone _ _)⟩,
    fun i hi => List.mem_range.1 ((sortedLeaves_perm _ _).mem_iff.1 hi), ⟨s.numSyms, le_rfl, le_rfl, by simp⟩,
    fun _ _ h => absurd h (hnone _ _)⟩

/-- A merge keeps the order in which nodes are taken (R113, R121). -/
theorem Greedy.mergeOnce (h : Greedy r k f) (hf : Growing r k total leaves f) (hasc : Ascending r f) (hk : k ≤ 256)
    (htotal : total < 2 ^ 32) (hleaf : ∀ i < k, (arenaAt r leaves i).internal = false) (hg : mergeOnce r f = some g) :
    Greedy r k g := by
  obtain ⟨-, hroom⟩ := hf.count.mergeOnce hg
  have hfit : f.next < 512 := by omega
  obtain ⟨a, b, lq, iq, hm, hglq, hgiq, -, -, hab, hleast⟩ := hasc.merged hg
  obtain ⟨hlq, hiq⟩ := h.queues_mergeOnce hg
  obtain ⟨hnew, hsame⟩ := hf.weightAt_merged hm htotal
  obtain ⟨ha, hb, -⟩ := hf.taken hm
  have hwait : ∀ c, c = a ∨ c = b → c ∈ f.waiting := fun c hc => (hm.mem_before c).2 (by tauto)
  have hold : ∀ c i, ParentOf (arenaAt r f.node) f.next c i → g.weightAt r c = f.weightAt r c :=
    fun c i hc => hsame c (hf.child hleaf hc).1.ne
  have htaken : ∀ c, c = a ∨ c = b → g.weightAt r c = f.weightAt r c ∧ f.weightAt r c ≤ f.weightAt r b := by
    rintro c (rfl | rfl)
    · exact ⟨hsame c ha.ne, hab⟩
    · exact ⟨hsame c hb.ne, le_rfl⟩
  refine ⟨⟨fun c d i j hc hd hij => ?_, fun c d i j hkc hcd hc hd => ?_⟩, hlq, hiq, fun c i hc x hx => ?_⟩
  · show g.weightAt r c ≤ g.weightAt r d
    obtain hc | ⟨rfl, -⟩ := hf.parentOf_merged hm hfit htotal hc
    · rw [hold c i hc]
      obtain hd | ⟨-, hd⟩ := hf.parentOf_merged hm hfit htotal hd
      · rw [hold d j hd]; exact h.order.ascends c d i j hc hd hij
      · rw [(htaken d hd).1]; exact h.spent c i hc d (hwait d hd)
    · have := hd.1; have := hm.next; omega
  · obtain hd | ⟨rfl, -⟩ := hf.parentOf_merged hm hfit htotal hd
    · obtain hc | ⟨-, hc⟩ := hf.parentOf_merged hm hfit htotal hc
      · exact h.order.queued c d i j hkc hcd hc hd
      · obtain ⟨hlt, hgone⟩ := hf.child hleaf hd
        have hciq : c ∈ f.iq := (List.mem_append.1 (hwait c hc)).resolve_left fun hclq => by
          have := h.leaves c hclq; omega
        exact absurd (List.mem_append_right _ (h.youngest.mem_of_le hciq hcd hlt)) hgone
    · have := hc.1; have := hm.next; omega
  · obtain hc | ⟨-, hc⟩ := hf.parentOf_merged hm hfit htotal hc
    · rw [hold c i hc]
      have hca := h.spent c i hc a (hwait a (.inl rfl))
      rcases (hm.mem_after x).1 hx with rfl | hx
      · rw [hnew]; omega
      · rw [hsame x (hf.rest_lt hm x hx).ne]; exact h.spent c i hc x ((hm.mem_before x).2 (.inr (.inr hx)))
    · obtain ⟨heq, hle⟩ := htaken c hc
      rw [heq]
      rcases (hm.mem_after x).1 hx with rfl | hx
      · rw [hnew]; omega
      · rw [hsame x (hf.rest_lt hm x hx).ne]; exact hle.trans (hleast x hx)

end

/-! The tree BUILD makes. -/

theorem greedy_mergeAll {s : State} (hk : 1 ≤ s.numSyms) (htotal : totalCount s.freq < 2 ^ 32) :
    Greedy s.resets s.numSyms (mergeAll (buildLeaves s) s.numSyms) := by
  have hleaf : ∀ i < s.numSyms, (arenaAt s.resets (buildLeaves s).node i).internal = false := fun i hi => by
    rw [arenaAt_buildLeaves s _ hi]; rfl
  obtain ⟨-, -, hgreedy⟩ := mergeLoop_keeps
    (P := fun f => Growing s.resets s.numSyms (totalCount s.freq) (buildLeaves s).node f ∧ Ascending s.resets f ∧
      Greedy s.resets s.numSyms f)
    (fun f g hg ⟨hgrown, hasc, hgreedy⟩ => ⟨hgrown.mergeOnce (numSyms_le s) htotal hleaf hg,
      hasc.mergeOnce hgrown htotal hg, hgreedy.mergeOnce hgrown hasc (numSyms_le s) htotal hleaf hg⟩)
    s.numSyms ⟨growing_start s hk, ascending_start (buildLeaves s) s.numSyms, Greedy.start⟩
  exact hgreedy

/-- The nodes of the tree BUILD makes are merged in the order in which they were taken (R121). -/
theorem takenInOrder_mergedTree {s b : State} (hk : 2 ≤ s.numSyms) (htotal : totalCount s.freq < 2 ^ 32)
    (hb : b = mergedTree (buildLeaves s) (mergeAll (buildLeaves s) s.numSyms)) :
    TakenInOrder b.nodeAt b.numSyms b.nodeCount.toNat := by
  have hgreedy := greedy_mergeAll (by omega) htotal
  obtain ⟨f, hf, -, -, -, hnext⟩ := mergeAll_grown hk htotal
  have hmax := numSyms_le s
  rw [hf] at hb hgreedy
  have hcount : b.nodeCount.toNat = f.next := by rw [hb, mergedTree_nodeCount, BitVec.toNat_ofNat]; omega
  rw [hcount, hb]
  exact hgreedy.order

/-- BUILD of two or more symbols (R115). -/
theorem runBuild_of_two {s : State} (hfreq : s.freqValid = true) (hk : 2 ≤ s.numSyms) :
    runBuild s = .running (mergedTree (buildLeaves s) (mergeAll (buildLeaves s) s.numSyms)) := by
  obtain ⟨h, -⟩ | ⟨-, ⟨h, -⟩ | ⟨h, -⟩ | ⟨-, h⟩⟩ := runBuild_cases s
  · exact Bool.noConfusion (hfreq.symm.trans h)
  · omega
  · omega
  · exact h

section
variable {s : State} (h : TreeShape s) (horder : TakenInOrder s.nodeAt s.numSyms s.nodeCount.toNat)
include h horder

/-- A merged node made later does not stand deeper (R134). -/
theorem TreeShape.depth_le_of_le {v u : Dword} {l m c d : Nat} (hc : follow s.nodeAt v 0 l s.root.toNat = some c)
    (hd : follow s.nodeAt u 0 m s.root.toNat = some d) (hk : s.numSyms ≤ c) (hcd : c ≤ d) : m ≤ l := by
  induction m generalizing l c d with
  | zero => exact Nat.zero_le l
  | succ m ih =>
    cases l with
    | zero =>
      have hlt := h.follow_lt hd
      have hroot := h.root
      have heq := Option.some.inj hc
      rw [show d = s.root.toNat by omega] at hd
      exact absurd hd h.no_path_to_root
    | succ l =>
      obtain ⟨p, hp, hplt, hparent, -⟩ := h.last_edge hc
      obtain ⟨q, hq, hqlt, hparent', -⟩ := h.last_edge hd
      obtain ⟨-, hkp, -⟩ := h.lt_of_isParent hplt hparent
      have hpq := horder.queued c d p q hk hcd ⟨hplt, hparent⟩ ⟨hqlt, hparent'⟩
      have := ih hp hq hkp hpq
      omega

/-- A heavier node does not stand deeper than a leaf (R134). -/
theorem TreeShape.depth_le_of_lighter {v u : Dword} {l m c d : Nat} (htwo : 2 ≤ s.numSyms)
    (hc : follow s.nodeAt v 0 l s.root.toNat = some c) (hd : follow s.nodeAt u 0 m s.root.toNat = some d)
    (hleaf : c < s.numSyms) (hw : (s.nodeAt c).weight.toNat < (s.nodeAt d).weight.toNat) : m ≤ l := by
  cases m with
  | zero => exact Nat.zero_le l
  | succ m =>
    cases l with
    | zero =>
      have hsize := h.size
      have hroot := h.root
      have heq := Option.some.inj hc
      omega
    | succ l =>
      obtain ⟨p, hp, hplt, hparent, -⟩ := h.last_edge hc
      obtain ⟨q, hq, hqlt, hparent', -⟩ := h.last_edge hd
      obtain ⟨-, hkp, -⟩ := h.lt_of_isParent hplt hparent
      have hpq : p ≤ q := by
        by_contra hlt
        have := horder.ascends d c q p ⟨hqlt, hparent'⟩ ⟨hplt, hparent⟩ (by omega)
        omega
      have := h.depth_le_of_le horder hp hq hkp hpq
      omega

end

/-- The leaf that a recorded path leads to weighs what its symbol counts (R45). -/
theorem TreeShape.weight_of_leafPath {s : State} (h : TreeShape s) {e : Nat × CodeWord}
    (he : LeafPath s.nodeAt s.root.toNat e) :
    ∃ n < s.numSyms, follow s.nodeAt e.2.value 0 e.2.len.toNat s.root.toNat = some n ∧
      (s.nodeAt n).weight = s.freqAt e.1 := by
  obtain ⟨n, hn, hpath, hsym⟩ := h.leaf_of_leafPath he
  refine ⟨n, hn, hpath, ?_⟩
  rw [h.nodeAt_leaf hn, leaf, List.getD_eq_getElem _ _ hn, hsym]

end Sys2Proof.Machine

open Sys2Proof Sys2Proof.Machine

/-- Settles O45: of two leaves the lighter is taken earlier, so its parent is made no later and stands no nearer to ROOT. -/
theorem frequentSymbolsHaveShorterCodes : Obligations.FrequentSymbolsHaveShorterCodes := by
  intro s b t hfreq hk htotal hbuild hgencode htable x y w u hx hy hlt
  have hb : b = mergedTree (buildLeaves s) (mergeAll (buildLeaves s) s.numSyms) := by
    rw [eq_of_exec hbuild, pseudocode, runBuild_of_two hfreq hk, state_running]
  have hshape : TreeShape b := hb ▸ treeShape_mergedTree hk htotal
  have horder : TakenInOrder b.nodeAt b.numSyms b.nodeCount.toNat := takenInOrder_mergedTree hk htotal hb
  have hsame : b.freq = s.freq := by rw [hb]; rfl
  have htwo : 2 ≤ b.numSyms := by rw [State.numSyms, hsame]; exact hk
  have hwalk := walk_of_gencode hgencode (by rw [hb]; rfl) (hshape.root_internal htwo) htable
  obtain ⟨n, -, hn, hwn⟩ := hshape.weight_of_leafPath ((hshape.find_table hwalk x w).1 hx)
  obtain ⟨m, hm, hpath, hwm⟩ := hshape.weight_of_leafPath ((hshape.find_table hwalk y u).1 hy)
  refine hshape.depth_le_of_lighter horder htwo hpath hn hm ?_
  rw [hwn, hwm, State.freqAt, State.freqAt, hsame]
  exact hlt
end

section
/-! No code is too long: the weights along a path to ROOT grow as the Fibonacci numbers do, so that a word cannot hold the
weight of a tree with an internal node at depth 64; hence every map of at least one symbol has its table
(R115, R120, R130, R133). -/

namespace Sys2Proof.Machine

section
variable {s : State} (h : TreeShape s)
include h

theorem TreeShape.weight_pos {n : Nat} (hn : n < s.nodeCount.toNat) : 1 ≤ (s.nodeAt n).weight.toNat := by
  by_cases hk : s.numSyms ≤ n
  · obtain ⟨-, -, -, hleft, -, -, hsum⟩ := h.inner n hn hk
    have := TreeShape.weight_pos (n := (s.nodeAt n).left.toNat) (by omega)
    omega
  · have hlt : n < s.numSyms := by omega
    have hpresent := (mem_presentSymbols.1 (List.getElem_mem (l := presentSymbols s.freq) hlt)).2
    rw [h.nodeAt_leaf hlt, leaf, List.getD_eq_getElem _ _ hlt]
    exact Nat.one_le_iff_ne_zero.2 fun hzero => hpresent (BitVec.eq_of_toNat_eq hzero)
termination_by n

/-- A node's child was taken before its sibling, so it is no heavier (R121). -/
theorem TreeShape.weight_add_le (horder : TakenInOrder s.nodeAt s.numSyms s.nodeCount.toNat) {c n p : Nat}
    (hn : n < s.nodeCount.toNat) (hp : p < s.nodeCount.toNat) (hcn : isParent s c n = true) (hnp : isParent s n p = true) :
    (s.nodeAt n).weight.toNat + (s.nodeAt c).weight.toNat ≤ (s.nodeAt p).weight.toNat := by
  obtain ⟨hint, hk, hlt⟩ := h.lt_of_isParent hp hnp
  obtain ⟨-, -, -, -, -, -, hsum⟩ := h.inner p hp hk
  have hsibling : ∀ d, isParent s d p = true → (s.nodeAt c).weight.toNat ≤ (s.nodeAt d).weight.toNat := fun d hd =>
    horder.ascends c d n p ⟨hn, hcn⟩ ⟨hp, hd⟩ hlt
  have hleft := hsibling (s.nodeAt p).left.toNat (by simp [isParent, hint])
  have hright := hsibling (s.nodeAt p).right.toNat (by simp [isParent, hint])
  simp only [isParent, hint, Bool.true_and, Bool.or_eq_true, decide_eq_true_eq] at hnp
  rcases hnp with rfl | rfl <;> omega

/-- A node at depth `l` and its child weigh on ROOT as the Fibonacci numbers do. -/
theorem TreeShape.fib_weight_le (horder : TakenInOrder s.nodeAt s.numSyms s.nodeCount.toNat) {v : Dword} {l n c : Nat}
    (hpath : follow s.nodeAt v 0 l s.root.toNat = some n) (hc : isParent s c n = true) :
    Nat.fib (l + 1) * (s.nodeAt n).weight.toNat + Nat.fib l * (s.nodeAt c).weight.toNat ≤
      (s.nodeAt s.root.toNat).weight.toNat := by
  induction l generalizing n c with
  | zero => rw [← Option.some.inj hpath]; simp
  | succ l ih =>
    obtain ⟨p, hp, hplt, hparent, -⟩ := h.last_edge hpath
    have hadd := h.weight_add_le horder (h.follow_lt hpath) hplt hc hparent
    calc Nat.fib (l + 2) * (s.nodeAt n).weight.toNat + Nat.fib (l + 1) * (s.nodeAt c).weight.toNat
        = Nat.fib (l + 1) * ((s.nodeAt n).weight.toNat + (s.nodeAt c).weight.toNat) +
            Nat.fib l * (s.nodeAt n).weight.toNat := by rw [Nat.fib_add_two]; ring
      _ ≤ Nat.fib (l + 1) * (s.nodeAt p).weight.toNat + Nat.fib l * (s.nodeAt n).weight.toNat :=
          Nat.add_le_add_right (Nat.mul_le_mul_left _ hadd) _
      _ ≤ (s.nodeAt s.root.toNat).weight.toNat := ih hp hparent

/-- The tree BUILD makes has no internal node at depth 64: ROOT's weight would not fit its word (R133). -/
theorem TreeShape.shallow (horder : TakenInOrder s.nodeAt s.numSyms s.nodeCount.toNat) :
    Shallow s.nodeAt s.root.toNat := by
  intro v n hpath
  by_contra hint
  rw [Bool.not_eq_false] at hint
  have hweigh := h.fib_weight_le horder hpath (c := (s.nodeAt n).left.toNat) (by simp [isParent, hint])
  have hpos := h.weight_pos (h.follow_lt hpath)
  have hword := (s.nodeAt s.root.toNat).weight.isLt
  have hfib : 2 ^ 32 ≤ Nat.fib (64 + 1) := by norm_num
  have := Nat.mul_le_mul hfib hpos
  omega

end

/-! BUILD and GENCODE on a map with at least one symbol. -/

/-- `c` is `a` after BUILD and GENCODE have made the tree and the table, which has every symbol of the map, with at most 64
bits. -/
structure TableMade (a c : State) : Prop where
  /-- Nothing else has changed. -/
  frame : c = { a with node := c.node, nodeCount := c.nodeCount, root := c.root, treeValid := true, lq := c.lq, iq := c.iq,
                       code := c.code, tableValid := true, stack := c.stack }
  /-- The code words. -/
  words : ∀ x ∈ presentSymbols a.freq, ∃ w, c.codeAt x = some w ∧ w.len.toNat ≤ 64

theorem tableMade_of_one {a : State} (hfreq : a.freqValid = true) (hk : a.numSyms = 1) :
    ∃ c, (runBuild a).andThen runGencode = .running c ∧ TableMade a c := by
  have hshape := treeShape_singleTree hk
  have hone : 0 < (singleTree (buildLeaves a)).numSyms := by show 0 < a.numSyms; omega
  have hroot : ((singleTree (buildLeaves a)).nodeAt 0).internal = false := by rw [hshape.nodeAt_leaf hone]; rfl
  refine ⟨_, by rw [runBuild_of_one hfreq hk, running_andThen, runGencode_of_leaf rfl hroot], rfl, fun x hx => ?_⟩
  obtain ⟨j, hj, rfl⟩ := List.mem_iff_getElem.1 hx
  have hj' : j < a.numSyms := hj
  obtain rfl : j = 0 := by omega
  refine ⟨{ len := 1, value := 0 }, ?_, by decide⟩
  rw [State.codeAt, singleCode, Store.find_cons, if_pos]
  exact (hshape.sym_leaf hone).symm

theorem tableMade_of_two {a : State} (hfreq : a.freqValid = true) (hk : 2 ≤ a.numSyms)
    (htotal : totalCount a.freq < 2 ^ 32) : ∃ c, (runBuild a).andThen runGencode = .running c ∧ TableMade a c := by
  have hshape := treeShape_mergedTree hk htotal
  have hshallow := hshape.shallow (takenInOrder_mergedTree hk htotal rfl)
  obtain ⟨table, hwalk⟩ := walk_root_recorded hshallow
  refine ⟨_, by rw [runBuild_of_two hfreq hk, running_andThen,
    runGencode_of_recorded rfl (hshape.root_internal hk) hwalk], rfl, fun x hx => ?_⟩
  obtain ⟨w, hw⟩ := hshape.exists_leafPath hshallow hx
  exact ⟨w, (hshape.find_table hwalk x w).2 hw, hw.1⟩

/-- Every map of at least one symbol has its tree and its table (R115, R130, R133). -/
theorem tableMade {a : State} (hfreq : a.freqValid = true) (hk : 1 ≤ a.numSyms) (htotal : totalCount a.freq < 2 ^ 32) :
    ∃ c, (runBuild a).andThen runGencode = .running c ∧ TableMade a c := by
  rcases Nat.eq_or_lt_of_le hk with hk | hk
  · exact tableMade_of_one hfreq hk.symm
  · exact tableMade_of_two hfreq hk htotal

end Sys2Proof.Machine
end

section
/-! PACK's stream, and ENCODE as its four stages on a text of at least one symbol (R140, R144, R145, R146). -/

namespace Sys2Proof.Machine

/-! The stream under an append. -/

theorem length_stream (s : State) : s.stream.length = s.totalBits.toNat := by simp [State.stream]

/-- `t` is `s` after an append of `bits` to the packed stream (R140). -/
structure Appended (s t : State) (bits : List Bool) : Prop where
  /-- Nothing else has changed. -/
  frame : t = { s with pbuf := t.pbuf, totalBits := t.totalBits }
  /-- The new bits stand after the old ones. -/
  stream : t.stream = s.stream ++ bits

theorem Appended.refl (s : State) : Appended s s [] := ⟨rfl, (List.append_nil _).symm⟩

theorem Appended.trans {s t u : State} {bits bits' : List Bool} (h : Appended s t bits) (h' : Appended t u bits') :
    Appended s u (bits ++ bits') := by
  refine ⟨?_, by rw [h'.stream, h.stream, List.append_assoc]⟩
  rw [h'.frame, h.frame]

theorem Appended.totalBits {s t : State} {bits : List Bool} (h : Appended s t bits) :
    t.totalBits.toNat = s.totalBits.toNat + bits.length := by
  rw [← length_stream t, h.stream, List.length_append, length_stream]

/-- The loop of APPEND_BITS appends the low bits of its word (R140). -/
theorem appended_appendLoop (v : Dword) {n : Nat} {s : State} (hfit : s.totalBits.toNat + n < 2 ^ 32) :
    Appended s (appendLoop v 0 n s) ((List.range n).map v.getLsbD) := by
  refine ⟨by rw [appendLoop_frame], ?_⟩
  have hbits : (appendLoop v 0 n s).totalBits.toNat = s.totalBits.toNat + n := by
    rw [appendLoop_totalBits, BitVec.toNat_add, BitVec.toNat_ofNat]; omega
  rw [State.stream, hbits, List.range_add, List.map_append, List.map_map]
  refine congrArg₂ _ (List.map_congr_left fun q hq => ?_) (List.map_congr_left fun j hj => ?_)
  · rw [List.mem_range] at hq
    rw [pbufBit_appendLoop v 0 n s hfit, if_pos hq]
  · rw [List.mem_range] at hj
    rw [Function.comp_apply, pbufBit_appendLoop v 0 n s hfit, if_neg (by omega), if_pos (by omega)]
    congr 1
    omega

/-- APPEND_BITS of bits that fit (R140). -/
theorem appendBits_of_fits (v : Dword) {n : Nat} (info : Word) {s : State} (hmax : s.params.wMax ≤ 32768)
    (hfit : s.totalBits.toNat + n ≤ 64 * s.params.wMax) :
    ∃ t, appendBits v n info s = .running t ∧ Appended s t ((List.range n).map v.getLsbD) := by
  obtain ⟨rfl, h⟩ | ⟨-, hlt, -⟩ | ⟨-, -, h⟩ := appendBits_cases v n info s
  · exact ⟨s, h, .refl s⟩
  · omega
  · exact ⟨_, h, appended_appendLoop v (by omega)⟩

/-- A text whose symbols have code words of at most 64 bits packs into a buffer with a word for each symbol (R144). -/
theorem packLoop_of_fits {i k : Nat} {s : State} (hmax : s.params.wMax ≤ 32768)
    (hfit : s.totalBits.toNat + 64 * k ≤ 64 * s.params.wMax)
    (hwords : ∀ j, i ≤ j → j < i + k → ∃ w, s.codeAt (s.symAt j).toNat = some w ∧ w.len.toNat ≤ 64) :
    ∃ t, packLoop i k s = .running t ∧ Appended s t (((List.range' i k).map s.symAt).flatMap (codeBits s)) := by
  induction k generalizing i s with
  | zero => exact ⟨s, rfl, .refl s⟩
  | succ k ih =>
    obtain ⟨w, hw, hlen⟩ := hwords i le_rfl (by omega)
    obtain ⟨t, hrun, happ⟩ := appendBits_of_fits w.value (BitVec.ofNat 32 i) hmax (s := s) (n := w.len.toNat) (by omega)
    have hbits : (List.range w.len.toNat).map w.value.getLsbD = codeBits s (s.symAt i) := by rw [codeBits, hw]; rfl
    have hgrown := happ.totalBits
    rw [List.length_map, List.length_range] at hgrown
    rw [hbits] at happ
    have hparams : t.params = s.params := by rw [happ.frame]
    have hsym : t.symAt = s.symAt := by rw [happ.frame]; rfl
    have hcode : t.codeAt = s.codeAt := by rw [happ.frame]; rfl
    have hcodeBits : codeBits t = codeBits s := by funext x; rw [codeBits, codeBits, hcode]
    obtain ⟨u, hrun', happ'⟩ := ih (i := i + 1) (s := t) (by rw [hparams]; exact hmax) (by rw [hparams]; omega)
      (fun j hij hjk => by rw [hcode, hsym]; exact hwords j (by omega) (by omega))
    refine ⟨u, ?_, ?_⟩
    · rw [packLoop, packSymbol, hw]
      simp only [hrun, running_andThen, hrun']
    · rw [List.range'_succ, List.map_cons, List.flatMap_cons]
      rw [hsym, hcodeBits] at happ'
      exact happ.trans happ'

/-- PACK with a code word for every input symbol (R144, R146). -/
theorem runPack_of_words {s : State} (hparams : s.params.legal = true) (hin : s.inLen.toNat ≤ s.params.nMax)
    (hvalid : s.tableValid = true)
    (hwords : ∀ j < s.inLen.toNat, ∃ w, s.codeAt (s.symAt j).toNat = some w ∧ w.len.toNat ≤ 64) :
    ∃ t, runPack s = .running t ∧ t = { s with pbuf := t.pbuf, totalBits := t.totalBits } ∧
      t.stream = s.inputSymbols.flatMap (codeBits s) := by
  obtain ⟨-, -, -, hmax, hle⟩ := (Params.legal_iff _).1 hparams
  have hempty : (emptyBuffer s).totalBits.toNat = 0 := rfl
  obtain ⟨t, hrun, happ⟩ := packLoop_of_fits (i := 0) (k := s.inLen.toNat) (s := emptyBuffer s) hmax
    (by rw [hempty]; show _ ≤ 64 * s.params.wMax; omega) (fun j _ hj => hwords j (by omega))
  refine ⟨t, by rw [runPack, if_pos hvalid, hrun], happ.frame, ?_⟩
  rw [happ.stream, ← List.range_eq_range']
  rfl

/-! The length of the stream, by counts. -/

/-- A sum over the elements of a list, by how often each occurs. -/
theorem sum_map_eq_sum_count {l : List Nat} {n : Nat} (h : ∀ a ∈ l, a < n) (f : Nat → Nat) :
    (l.map f).sum = ((List.range n).map fun x => l.count x * f x).sum := by
  rw [Finset.sum_list_map_count, ← List.sum_toFinset _ List.nodup_range, List.toFinset_range]
  refine Finset.sum_subset (fun a ha => Finset.mem_range.2 (h a (List.mem_toFinset.1 ha))) fun a _ ha => ?_
  rw [List.count_eq_zero_of_not_mem fun hmem => ha (List.mem_toFinset.2 hmem), zero_smul]

/-- The code words of a text are as long in all as the sum of count times length over its symbols (R146). -/
theorem length_flatMap_codeBits {xs : List Byte} (hlen : xs.length < 2 ^ 32) (bits : Byte → List Bool) :
    (xs.flatMap bits).length =
      ((List.range 256).map fun x => (countAt (frequencies xs) x).toNat * (bits (BitVec.ofNat 8 x)).length).sum := by
  have hbyte : ∀ x : Byte, bits (BitVec.ofNat 8 x.toNat) = bits x := fun x => by rw [BitVec.ofNat_toNat, BitVec.setWidth_eq]
  have hlt : ∀ a ∈ xs.map BitVec.toNat, a < 256 := by
    intro a ha
    obtain ⟨x, -, rfl⟩ := List.mem_map.1 ha
    exact x.isLt
  simp only [countAt_frequencies hlen]
  rw [← sum_map_eq_sum_count hlt fun x => (bits (BitVec.ofNat 8 x)).length, List.map_map, List.length_flatMap]
  refine congrArg List.sum (List.map_congr_left fun x _ => ?_)
  rw [Function.comp_apply, hbyte]

/-! ENCODE. -/

/-- The symbols of the input are those COUNT finds present (R49). -/
theorem mem_presentSymbols_runCount {s : State} {x : Byte} (hx : x ∈ s.inputSymbols) :
    x.toNat ∈ presentSymbols (runCount s).state.freq := by
  obtain ⟨i, hi, rfl⟩ := List.mem_map.1 hx
  have hcount := (one_le_freqAt_runCount s (s.symAt i).toNat).2 ⟨i, List.mem_range.1 hi, rfl⟩
  refine mem_presentSymbols.2 ⟨(s.symAt i).isLt, fun hzero => ?_⟩
  rw [State.freqAt, hzero] at hcount
  exact absurd hcount (by decide)

theorem one_le_numSyms_runCount {s : State} (h : s.inLen ≠ 0) : 1 ≤ (runCount s).state.numSyms := by
  have hpos : 0 < s.inputSymbols.length := by
    rw [length_inputSymbols]
    exact Nat.pos_of_ne_zero fun hzero => h (BitVec.eq_of_toNat_eq hzero)
  exact List.length_pos_of_mem (mem_presentSymbols_runCount (List.getElem_mem hpos))

end Sys2Proof.Machine

open Sys2Proof Sys2Proof.Machine

/-- Settles O51: the map of a text has its table, whose code words are at most 64 bits, and PBUF has a word for each symbol. -/
theorem encodeSucceeds : Obligations.EncodeSucceeds := by
  intro s hb hok hin
  obtain ⟨-, hmax, -⟩ := (Params.legal_iff _).1 hb.params
  have hlen := hb.inLen
  obtain ⟨c, hrun, hmade⟩ := tableMade (a := (runCount s).state) rfl (one_le_numSyms_runCount hin)
    (by rw [totalCount_runCount]; omega)
  have hsame : c.params = s.params ∧ c.inLen = s.inLen ∧ c.tableValid = true ∧ c.symAt = s.symAt ∧
      c.inputSymbols = s.inputSymbols := by rw [hmade.frame]; exact ⟨rfl, rfl, rfl, rfl, rfl⟩
  obtain ⟨hparams, hinLen, hvalid, hsym, hinput⟩ := hsame
  have hwords : ∀ x ∈ s.inputSymbols, ∃ w, c.codeAt x.toNat = some w ∧ w.len.toNat ≤ 64 := fun x hx =>
    hmade.words _ (mem_presentSymbols_runCount hx)
  obtain ⟨t, hpack, hframe, hstream⟩ := runPack_of_words (s := c) (by rw [hparams]; exact hb.params)
    (by rw [hparams, hinLen]; exact hlen) hvalid (fun j hj => by
      rw [hinLen] at hj
      rw [hsym]
      exact hwords _ (List.mem_map_of_mem (List.mem_range.2 hj)))
  have hcode : t.codeAt = c.codeAt := by rw [hframe]; rfl
  have hbits : codeBits t = codeBits c := by funext x; rw [codeBits, codeBits, hcode]
  have hfreq : t.freq = frequencies s.inputSymbols := by rw [hframe, hmade.frame]; rfl
  rw [hinput, ← hbits] at hstream
  refine ⟨t, ?_, ?_, ?_, fun x hx => ?_, hstream, ?_⟩
  · have hstages : runEncode s = ((runBuild (runCount s).state).andThen runGencode).andThen runPack := if_neg hin
    rw [exec_eq, pseudocode, hstages, hrun, running_andThen, hpack, state_running]
  · rw [hframe, hmade.frame]; exact hok
  · rw [hframe, hmade.frame]; rfl
  · obtain ⟨w, hw, -⟩ := hwords x hx
    rw [hcode, hw]; rfl
  · rw [← length_stream, hstream, length_flatMap_codeBits (length_inputSymbols_lt s), ← hfreq]
    rfl
end

section
/-! The packed buffer under an append, position by position and word by word (R140 to R142; log 19). -/

namespace Sys2Proof.Machine

theorem toNat_totalBits_appendLoop (v : Dword) (j : Nat) {n : Nat} {s : State} (hfit : s.totalBits.toNat + n < 2 ^ 32) :
    (appendLoop v j n s).totalBits.toNat = s.totalBits.toNat + n := by
  rw [appendLoop_totalBits, BitVec.toNat_add, BitVec.toNat_ofNat]
  omega

/-- A word is opened by an append of positions `T` to `T + n - 1` exactly when its first bit is one of them (R141). -/
theorem opened_iff (T n q : Nat) :
    (∃ p < T + n, T ≤ p ∧ p % 64 = 0 ∧ q / 64 = p / 64) ↔ T ≤ q / 64 * 64 ∧ q / 64 * 64 < T + n := by
  constructor
  · rintro ⟨p, hlt, hle, hfirst, hword⟩
    omega
  · rintro ⟨hle, hlt⟩
    exact ⟨q / 64 * 64, hlt, hle, by omega, by omega⟩

/-- Bits past the end of an append: 0 in a word it opened, and as before elsewhere (R141). -/
theorem pbufBit_appendLoop_past (v : Dword) {n : Nat} {s : State} (hfit : s.totalBits.toNat + n < 2 ^ 32) {q : Nat}
    (hq : s.totalBits.toNat + n ≤ q) :
    (appendLoop v 0 n s).pbufBit q =
      if s.totalBits.toNat ≤ q / 64 * 64 ∧ q / 64 * 64 < s.totalBits.toNat + n then false else s.pbufBit q := by
  rw [pbufBit_appendLoop v 0 n s hfit, if_neg (by omega), if_neg (by omega)]
  exact if_congr (opened_iff _ n q) rfl rfl

/-- Bits before the tail stay (R140). -/
theorem pbufBit_appendLoop_before (v : Dword) {n : Nat} {s : State} (hfit : s.totalBits.toNat + n < 2 ^ 32) {q : Nat}
    (hq : q < s.totalBits.toNat) : (appendLoop v 0 n s).pbufBit q = s.pbufBit q := by
  rw [pbufBit_appendLoop v 0 n s hfit, if_pos hq]

/-- The appended bits, from the tail on (R140). -/
theorem pbufBit_appendLoop_at (v : Dword) {n : Nat} {s : State} (hfit : s.totalBits.toNat + n < 2 ^ 32) {j q : Nat}
    (hj : j < n) (hq : q = s.totalBits.toNat + j) : (appendLoop v 0 n s).pbufBit q = v.getLsbD j := by
  rw [pbufBit_appendLoop v 0 n s hfit, if_neg (by omega), if_pos (by omega)]
  congr 1
  omega

/-- The marks of an append: its own positions, the words it opened, and the marks there were (log 19). -/
theorem pbufAppended_appendLoop_eq (v : Dword) {n : Nat} {s : State} (hfit : s.totalBits.toNat + n < 2 ^ 32) (q : Nat) :
    (appendLoop v 0 n s).pbufAppended q =
      (s.pbufAppended q || decide (s.totalBits.toNat ≤ q ∧ q < s.totalBits.toNat + n) ||
        decide (s.totalBits.toNat ≤ q / 64 * 64 ∧ q / 64 * 64 < s.totalBits.toNat + n)) := by
  rw [pbufAppended_appendLoop v 0 n s hfit, if_congr (opened_iff _ n q) rfl rfl]
  split_ifs with hbefore hin hopened
  · simp [show ¬ (s.totalBits.toNat ≤ q ∧ q < s.totalBits.toNat + n) by omega,
      show ¬ (s.totalBits.toNat ≤ q / 64 * 64 ∧ q / 64 * 64 < s.totalBits.toNat + n) by omega]
  · simp [show s.totalBits.toNat ≤ q ∧ q < s.totalBits.toNat + n by omega]
  · simp [hopened]
  · simp [hopened, show ¬ (s.totalBits.toNat ≤ q ∧ q < s.totalBits.toNat + n) by omega]

/-- A bit of a word of PBUF stands at its stream position (R65). -/
theorem pbufWord_bit (s : State) (w : Nat) {k : Nat} (hk : k < 64) :
    (s.pbufWord w).getLsbD k = s.pbufBit (64 * w + k) := by
  have hhalf := pbufWord_getLsbD s (k := 2 * w + k / 32) (j := k % 32) (by omega)
  rw [show (2 * w + k / 32) / 2 = w by omega, show 32 * ((2 * w + k / 32) % 2) + k % 32 = k by omega] at hhalf
  rw [hhalf, State.pbufBit, show (64 * w + k) / 32 = 2 * w + k / 32 by omega, show (64 * w + k) % 32 = k % 32 by omega]

/-- A word of PBUF is a number when its 64 bits are that number's (R64). -/
theorem toNat_pbufWord {s : State} {w m : Nat} (hm : m < 2 ^ 64) (h : ∀ k < 64, s.pbufBit (64 * w + k) = m.testBit k) :
    (s.pbufWord w).toNat = m := by
  have hword : s.pbufWord w = BitVec.ofNat 64 m := BitVec.eq_of_getLsbD_eq fun k hk => by
    rw [pbufWord_bit s w hk, h k hk, BitVec.getLsbD_ofNat, decide_eq_true hk, Bool.true_and]
  rw [hword, BitVec.toNat_ofNat, Nat.mod_eq_of_lt hm]

/-- The words below the tail's and those past the last bit stay (R141). -/
theorem pbufWord_appendLoop_other (v : Dword) {n : Nat} {s : State} (hfit : s.totalBits.toNat + n < 2 ^ 32) {w : Nat}
    (h : w < s.totalBits.toNat / 64 ∨ s.totalBits.toNat + n ≤ 64 * w) :
    (appendLoop v 0 n s).pbufWord w = s.pbufWord w := by
  simp only [State.pbufWord, State.pbufHalf, appendLoop_resets]
  rw [find_appendLoop v 0 n s hfit _ (by omega), find_appendLoop v 0 n s hfit _ (by omega)]

/-- An APPEND that fits, as its loop (R142). -/
theorem exec_append_of_fits {s : State} {len : BitVec 7} (hpos : 0 < len.toNat)
    (hfit : s.totalBits.toNat + len.toNat ≤ 64 * s.params.wMax) :
    exec (.append len) s = .next (appendLoop s.appValue 0 len.toNat s) := by
  rw [exec_eq, pseudocode, appendBits, if_neg (by omega), if_neg (by omega), state_running]

/-- An APPEND that does not fit (R142). -/
theorem exec_append_of_overflow {s : State} {len : BitVec 7} (hpos : 0 < len.toNat)
    (hover : 64 * s.params.wMax < s.totalBits.toNat + len.toNat) :
    exec (.append len) s = .next { s with errCode := .pbufOverflow, errInfo := 0 } := by
  rw [exec_eq, pseudocode, appendBits, if_neg (by omega), if_pos hover]
  rfl

/-- An APPEND of no bits (R142). -/
theorem exec_append_of_zero {s : State} {len : BitVec 7} (hzero : len.toNat = 0) : exec (.append len) s = .next s := by
  rw [exec_eq, pseudocode, appendBits, if_pos hzero, state_running]

/-- The first bit appended to an empty buffer opens word 0 (R141, R143). -/
theorem pbufBit_appendBit_emptyBuffer (b : Bool) (s : State) {k : Nat} (hk : k < 64) :
    (appendBit b (emptyBuffer s)).pbufBit k = b.toNat.testBit k := by
  have htail : (emptyBuffer s).totalBits.toNat = 0 := rfl
  rw [pbufBit_appendBit, htail, Nat.testBit_bool_toNat]
  by_cases hfirst : k = 0
  · rw [if_pos hfirst, decide_eq_true hfirst, Bool.true_and]
  · rw [if_neg hfirst, if_pos (by omega), decide_eq_false hfirst, Bool.false_and]

theorem wordCount_emptyBuffer (s : State) : (emptyBuffer s).wordCount = 0 := by
  show (0 + 63) / 64 = 0
  decide

/-- A bit of the low `n` bits of APPEND's operand (R140). -/
theorem testBit_appValue (s : State) (n j : Nat) :
    (s.appValue.toNat % 2 ^ n).testBit j = (decide (j < n) && s.appValue.getLsbD j) := by
  rw [Nat.testBit_mod_two_pow, BitVec.testBit_toNat]

end Sys2Proof.Machine

open Sys2Proof Sys2Proof.Machine

/-- Settles O46: the three ends of APPEND_BITS, and the stream and the marks after its loop. -/
theorem appendAddsTheLowBits : Obligations.AppendAddsTheLowBits := by
  intro s len hp hlen
  obtain ⟨-, -, -, hmax, -⟩ := (Params.legal_iff _).1 hp
  refine ⟨exec_append_of_zero, exec_append_of_overflow, fun hpos hfit => ?_⟩
  have hsmall : s.totalBits.toNat + len.toNat < 2 ^ 32 := by omega
  exact ⟨_, exec_append_of_fits hpos hfit, by rw [appendLoop_frame], toNat_totalBits_appendLoop _ 0 hsmall,
    fun p hp => pbufBit_appendLoop_before _ hsmall hp, fun j hj => pbufBit_appendLoop_at _ hsmall hj rfl,
    fun p hp => pbufBit_appendLoop_past _ hsmall hp, pbufAppended_appendLoop_eq _ hsmall⟩

/-- Settles O47: each word bit by bit, from the stream after the loop of APPEND_BITS. -/
theorem appendWordForm : Obligations.AppendWordForm := by
  intro s len hp hpos hlen hfit m w off
  obtain ⟨-, -, -, hmax, -⟩ := (Params.legal_iff _).1 hp
  have hsmall : s.totalBits.toNat + len.toNat < 2 ^ 32 := by omega
  have hT : s.totalBits.toNat = 64 * w + off := (Nat.div_add_mod _ 64).symm
  have hoff : off < 64 := Nat.mod_lt _ (by decide)
  have hm : m < 2 ^ 64 := (Nat.mod_lt _ (by positivity)).trans_le (Nat.pow_le_pow_right (by decide) hlen)
  have hbit : ∀ j, m.testBit j = (decide (j < len.toNat) && s.appValue.getLsbD j) := testBit_appValue s len.toNat
  refine ⟨_, exec_append_of_fits hpos hfit, fun hzero => ?_, fun hne k hk => ?_, fun hover => ?_, fun u hu hu' => ?_⟩
  · refine toNat_pbufWord hm fun k hk => ?_
    rw [hbit]
    by_cases hin : k < len.toNat
    · rw [pbufBit_appendLoop_at _ hsmall hin (by omega), decide_eq_true hin, Bool.true_and]
    · rw [pbufBit_appendLoop_past _ hsmall (by omega), if_pos (by omega), decide_eq_false hin, Bool.false_and]
  · rw [pbufWord_bit _ w hk, pbufWord_bit _ w hk, hbit]
    by_cases hbefore : k < off
    · rw [pbufBit_appendLoop_before _ hsmall (by omega), if_neg (by omega)]
    · by_cases hin : k < off + len.toNat
      · rw [pbufBit_appendLoop_at _ hsmall (j := k - off) (by omega) (by omega), if_pos (by omega),
          decide_eq_true (by omega), Bool.true_and]
      · rw [pbufBit_appendLoop_past _ hsmall (by omega), if_neg (by omega), if_neg (by omega)]
  · refine toNat_pbufWord (Nat.div_le_self _ _ |>.trans_lt hm) fun k hk => ?_
    rw [Nat.testBit_div_two_pow, hbit]
    by_cases hin : k + (64 - off) < len.toNat
    · rw [pbufBit_appendLoop_at _ hsmall hin (by omega), decide_eq_true hin, Bool.true_and]
    · rw [pbufBit_appendLoop_past _ hsmall (by omega), if_pos (by omega), decide_eq_false hin, Bool.false_and]
  · exact pbufWord_appendLoop_other _ hsmall (by omega)

/-- Settles O31: the first append to the empty buffer opens word 0. -/
theorem pbclrEmptiesTheBuffer : Obligations.PbclrEmptiesTheBuffer := by
  obtain ⟨-, -, -, -, -, -, -, -, -, -, -, -, hdecode⟩ := specCommandWordsDecode
  refine ⟨hdecode, fun s => ⟨rfl, wordCount_emptyBuffer s, fun b => BitVec.eq_of_toNat_eq ?_⟩⟩
  have hword : ((appendBit b (emptyBuffer s)).pbufWord 0).toNat = b.toNat :=
    toNat_pbufWord (b.toNat_lt.trans (by decide)) fun k hk => by
      rw [Nat.mul_zero, Nat.zero_add, pbufBit_appendBit_emptyBuffer b s hk]
  exact hword.trans (by cases b <;> rfl)
end

section
/-! PACK: where its loop stops, and the words it leaves past the last bit; ENCODE as its stages (R141, R144 to R146, R176). -/

namespace Sys2Proof.Machine

/-- What PACK's loop keeps of PBUF beside the stream: the bits of the last word past the end are 0, and the words past the last
bit are as `s` has them (R141). -/
structure PackedFrom (s u : State) : Prop where
  /-- R8, R9: the capacities are the block's. -/
  params : u.params = s.params
  /-- R35. -/
  fits : u.totalBits.toNat ≤ 64 * s.params.wMax
  /-- R141: the word an append opened was zeroed. -/
  zeroTail : ∀ p, u.totalBits.toNat ≤ p → p / 64 * 64 < u.totalBits.toNat → u.pbufBit p = false
  /-- R140: no bit of these words was appended. -/
  past : ∀ w, u.totalBits.toNat ≤ 64 * w → u.pbufWord w = s.pbufWord w

theorem packedFrom_emptyBuffer (s : State) : PackedFrom s (emptyBuffer s) :=
  ⟨rfl, Nat.zero_le _, fun _ _ hlt => absurd hlt (Nat.not_lt_zero _), fun _ _ => rfl⟩

theorem PackedFrom.raise {s u : State} (h : PackedFrom s u) (e : ErrCode) (info : Word) :
    PackedFrom s (raise e info u).state := ⟨h.params, h.fits, h.zeroTail, h.past⟩

theorem PackedFrom.appendLoop {s u : State} (h : PackedFrom s u) (hmax : s.params.wMax ≤ 32768) (v : Dword) {n : Nat}
    (hfit : u.totalBits.toNat + n ≤ 64 * s.params.wMax) : PackedFrom s (appendLoop v 0 n u) := by
  have hsmall : u.totalBits.toNat + n < 2 ^ 32 := by omega
  have hgrown := toNat_totalBits_appendLoop v 0 hsmall
  refine ⟨by rw [appendLoop_frame]; exact h.params, hgrown.trans_le hfit, fun p hle hlt => ?_, fun w hle => ?_⟩
  · rw [hgrown] at hle hlt
    rw [pbufBit_appendLoop_past v hsmall hle]
    split
    · rfl
    · exact h.zeroTail p (by omega) (by omega)
  · rw [hgrown] at hle
    rw [pbufWord_appendLoop_other v hsmall (.inr hle), h.past w (by omega)]

theorem PackedFrom.packSymbol {s u : State} (h : PackedFrom s u) (hmax : s.params.wMax ≤ 32768) (i : Nat) :
    PackedFrom s (packSymbol i u).state := by
  obtain ⟨-, e⟩ | ⟨w, -, e⟩ := packSymbol_cases i u <;> rw [e]
  · exact h.raise _ _
  · obtain ⟨-, e⟩ | ⟨-, -, e⟩ | ⟨-, hfit, e⟩ := appendBits_cases w.value w.len.toNat (BitVec.ofNat 32 i) u <;> rw [e]
    · exact h
    · exact h.raise _ _
    · exact h.appendLoop hmax _ (h.params ▸ hfit)

/-- However PACK with a stored table ends (R141, R176). -/
theorem packedFrom_runPack {s : State} (hmax : s.params.wMax ≤ 32768) (hvalid : s.tableValid = true) :
    PackedFrom s (runPack s).state := by
  rw [runPack, if_pos hvalid]
  exact packLoop_keeps (fun i u hu => hu.packSymbol hmax i) 0 _ (packedFrom_emptyBuffer s)

/-- PACK's loop in two parts. -/
theorem packLoop_add (i k m : Nat) (s : State) :
    packLoop i (k + m) s = (packLoop i k s).andThen (packLoop (i + k) m) := by
  induction k generalizing i s with
  | zero => rw [Nat.zero_add]; rfl
  | succ k ih =>
    rw [Nat.add_right_comm, packLoop, packLoop]
    cases packSymbol i s with
    | running u => rw [running_andThen, running_andThen, ih, Nat.add_right_comm, Nat.add_assoc]
    | ended u => rfl

/-- PACK's turn for a symbol with no code word ends it (R144). -/
theorem packLoop_of_unknown {i k : Nat} {s : State} (h : s.codeAt (s.symAt i).toNat = none) :
    packLoop i (k + 1) s = raise .lookupFailure (BitVec.ofNat 32 i) s := by
  rw [packLoop, packSymbol, h]
  rfl

/-- The first symbols of the input (R43). -/
theorem take_inputSymbols (s : State) {i : Nat} (hi : i ≤ s.inLen.toNat) :
    s.inputSymbols.take i = (List.range' 0 i).map s.symAt := by
  rw [State.inputSymbols, ← List.map_take, List.take_range, min_eq_left hi, List.range_eq_range']

/-- The code word a symbol has in a table of the right form fits a word (R46). -/
theorem TableOk.exists_word {s : State} (h : TableOk s) {x : Nat} (hx : (s.codeAt x).isSome = true) :
    ∃ w, s.codeAt x = some w ∧ w.len.toNat ≤ 64 := by
  obtain ⟨w, hw⟩ := Option.isSome_iff_exists.1 hx
  obtain ⟨-, hlen, -⟩ := h.lengths _ (Store.mem_of_find hw)
  exact ⟨w, hw, hlen⟩

/-- PACK up to the first symbol with no code word (R144, R176). -/
theorem runPack_of_unknown {s : State} (hb : Bounds s) (hvalid : s.tableValid = true) {i : Nat} (hi : i < s.inLen.toNat)
    (hwords : ∀ j < i, ∃ w, s.codeAt (s.symAt j).toNat = some w ∧ w.len.toNat ≤ 64)
    (hnone : s.codeAt (s.symAt i).toNat = none) :
    ∃ u, runPack s = raise .lookupFailure (BitVec.ofNat 32 i) u ∧
      Appended (emptyBuffer s) u ((s.inputSymbols.take i).flatMap (codeBits s)) := by
  obtain ⟨-, -, -, hmax, hle⟩ := (Params.legal_iff _).1 hb.params
  have hin := hb.inLen
  have hempty : (emptyBuffer s).totalBits.toNat = 0 := rfl
  obtain ⟨u, hrun, happ⟩ := packLoop_of_fits (i := 0) (k := i) (s := emptyBuffer s) hmax
    (by rw [hempty, emptyBuffer_params]; omega) (fun j _ hj => hwords j (by omega))
  have hstop : u.codeAt (u.symAt i).toNat = none := by rw [happ.frame]; exact hnone
  refine ⟨u, ?_, ?_⟩
  · rw [runPack, if_pos hvalid, show s.inLen.toNat = i + (s.inLen.toNat - i - 1 + 1) by omega, packLoop_add, hrun,
      running_andThen, Nat.zero_add, packLoop_of_unknown hstop]
  · rw [take_inputSymbols s hi.le]
    exact happ

/-- BUILD that leaves no error has run to its end (R17). -/
theorem runBuild_of_ok {s : State} (h : (runBuild s).state.errCode = .ok) : runBuild s = .running (runBuild s).state := by
  obtain ⟨-, e⟩ | ⟨-, ⟨-, e⟩ | ⟨-, e⟩ | ⟨-, e⟩⟩ := runBuild_cases s <;> rw [e] at h ⊢
  · exact absurd h (by simp)
  · exact absurd h (by simp)
  · rfl
  · rfl

/-- GENCODE that leaves no error has run to its end (R17). -/
theorem runGencode_of_ok {s : State} (h : (runGencode s).state.errCode = .ok) :
    runGencode s = .running (runGencode s).state := by
  obtain ⟨-, e⟩ | ⟨-, ⟨-, e⟩ | ⟨-, ⟨n, stack, -, e⟩ | ⟨table, -, e⟩⟩⟩ := runGencode_cases s <;> rw [e] at h ⊢
  · exact absurd h (by simp)
  · rfl
  · exact absurd h (by simp)
  · rfl

/-- ENCODE of a text whose BUILD and GENCODE leave no error, up to PACK (R145). -/
theorem runEncode_of_ok {s : State} (hin : s.inLen ≠ 0) (hb : (runBuild (runCount s).state).state.errCode = .ok)
    (hc : (runGencode (runBuild (runCount s).state).state).state.errCode = .ok) :
    runEncode s = runPack (runGencode (runBuild (runCount s).state).state).state :=
  calc runEncode s
      = ((runBuild (runCount s).state).andThen runGencode).andThen runPack := if_neg hin
    _ = (runGencode (runBuild (runCount s).state).state).andThen runPack :=
        congrArg (fun p => (p.andThen runGencode).andThen runPack) (runBuild_of_ok hb)
    _ = runPack (runGencode (runBuild (runCount s).state).state).state :=
        congrArg (fun p => p.andThen runPack) (runGencode_of_ok hc)

end Sys2Proof.Machine

open Sys2Proof Sys2Proof.Machine

/-- Settles O48: every code word fits, so PACK's loop runs through; what it leaves past the last bit is `PackedFrom`. -/
theorem packConcatenatesCodeWords : Obligations.PackConcatenatesCodeWords := by
  intro s hb htable hvalid hsome
  obtain ⟨-, -, -, hmax, -⟩ := (Params.legal_iff _).1 hb.params
  obtain ⟨t, hrun, hframe, hstream⟩ := runPack_of_words hb.params hb.inLen hvalid fun j hj => htable.exists_word (hsome j hj)
  have hpacked := packedFrom_runPack hmax hvalid
  rw [hrun, state_running] at hpacked
  refine ⟨t, by rw [exec_eq, pseudocode, hrun, state_running], hframe, hstream, ?_, hpacked.zeroTail, hpacked.past⟩
  rw [← length_stream, hstream, List.length_flatMap]

/-- Settles O49: PACK's loop runs through the symbols before `i`, and its turn for `i` raises. -/
theorem packStopsAtTheFirstUnknownSymbol : Obligations.PackStopsAtTheFirstUnknownSymbol := by
  intro s i hb htable hvalid hi hsome hnone
  obtain ⟨-, -, -, hmax, -⟩ := (Params.legal_iff _).1 hb.params
  obtain ⟨u, hrun, happ⟩ := runPack_of_unknown hb hvalid hi (fun j hj => htable.exists_word (hsome j hj)) hnone
  have hpacked := packedFrom_runPack hmax hvalid
  rw [hrun] at hpacked
  refine ⟨(raise .lookupFailure (BitVec.ofNat 32 i) u).state, by rw [exec_eq, pseudocode, hrun], ?_, happ.stream,
    hpacked.zeroTail, hpacked.past⟩
  rw [happ.frame]; rfl

/-- Settles O50: BUILD and GENCODE left no error, so neither was ended and the stages run one after the other. -/
theorem encodeRunsTheStages : Obligations.EncodeRunsTheStages := by
  intro s a b c _ hin hcount hbuild hgencode hb hc
  obtain rfl := eq_of_exec hcount
  obtain rfl := eq_of_exec hbuild
  obtain rfl := eq_of_exec hgencode
  exact congrArg finish (runEncode_of_ok hin hb hc)
end

section
/-! DECODE: what its scan has read after each bit, and its four ends (R150 to R154). -/

namespace Sys2Proof.Machine

/-! The bits of a candidate. -/

/-- The bits a candidate has read, the oldest first (R56, R151). -/
def Candidate.bits (c : Candidate) : List Bool := (List.range c.len).map c.value.getLsbD

theorem Candidate.length_bits (c : Candidate) : c.bits.length = c.len := by simp [Candidate.bits]

theorem Candidate.bits_eq_nil {c : Candidate} (h : c.len = 0) : c.bits = [] := by rw [bits, h]; rfl

theorem getLsbD_growCandidate {c : Candidate} (hlen : c.len < 64) (b : Bool) (j : Nat) :
    (growCandidate c b).value.getLsbD j = (c.value.getLsbD j || (b && decide (j = c.len))) := by
  cases b with
  | false => simp [growCandidate]
  | true => exact getLsbD_or_one_shiftLeft c.value hlen j

theorem growCandidate_lt {c : Candidate} (hvalue : c.value.toNat < 2 ^ c.len) (b : Bool) :
    (growCandidate c b).value.toNat < 2 ^ (c.len + 1) := by
  cases b with
  | false => simpa [growCandidate] using hvalue.trans (Nat.pow_lt_pow_succ (by omega))
  | true => exact or_one_shiftLeft_lt hvalue

/-- A candidate grows at its end (R151). -/
theorem bits_growCandidate {c : Candidate} (hlen : c.len < 64) (hvalue : c.value.toNat < 2 ^ c.len) (b : Bool) :
    (growCandidate c b).bits = c.bits ++ [b] := by
  rw [Candidate.bits, show (growCandidate c b).len = c.len + 1 from rfl, List.range_succ, List.map_append]
  refine congrArg₂ _ (List.map_congr_left fun j hj => ?_) (congrArg (· :: []) ?_)
  · have hne : j ≠ c.len := (List.mem_range.1 hj).ne
    rw [getLsbD_growCandidate hlen, decide_eq_false hne, Bool.and_false, Bool.or_false]
  · rw [getLsbD_growCandidate hlen, getLsbD_of_lt_two_pow hvalue le_rfl, decide_eq_true rfl, Bool.and_true, Bool.false_or]

theorem length_bitsOf (w : CodeWord) : (bitsOf w).length = w.len.toNat := by simp [bitsOf]

/-- A code word and a candidate of the same bits have the same length and value: nothing stands above them (R46). -/
theorem eq_of_bitsOf_eq_bits {w : CodeWord} {c : Candidate} (hw : w.value.toNat < 2 ^ w.len.toNat)
    (hc : c.value.toNat < 2 ^ c.len) (h : bitsOf w = c.bits) : w.len.toNat = c.len ∧ w.value = c.value := by
  have hlen : w.len.toNat = c.len := by rw [← length_bitsOf, h, c.length_bits]
  refine ⟨hlen, BitVec.eq_of_getLsbD_eq fun j _ => ?_⟩
  by_cases hj : j < w.len.toNat
  · rw [bitsOf, Candidate.bits, hlen] at h
    exact List.map_inj_left.1 h j (List.mem_range.2 (by omega))
  · rw [getLsbD_of_lt_two_pow hw (by omega), getLsbD_of_lt_two_pow hc (by omega)]

theorem bits_eq_bitsOf {w : CodeWord} {c : Candidate} (hlen : w.len.toNat = c.len) (hvalue : w.value = c.value) :
    c.bits = bitsOf w := by rw [bitsOf, Candidate.bits, hlen, hvalue]

/-! The inverse table. -/

theorem lookup_eq_some {table : Store CodeWord} {v : Dword} {l x : Nat} (h : lookup table v l = some x) :
    ∃ w, (x, w) ∈ table ∧ w.len.toNat = l ∧ w.value = v := by
  obtain ⟨⟨y, w⟩, hfind, rfl⟩ := Option.map_eq_some_iff.1 h
  have hmatch := List.find?_some hfind
  simp only [Bool.and_eq_true, decide_eq_true_eq] at hmatch
  exact ⟨w, List.mem_of_find?_eq_some hfind, hmatch⟩

theorem lookup_eq_none {table : Store CodeWord} {v : Dword} {l : Nat} (h : lookup table v l = none)
    {e : Nat × CodeWord} (he : e ∈ table) (hlen : e.2.len.toNat = l) : e.2.value ≠ v := by
  have hmiss := List.find?_eq_none.1 (Option.map_eq_none_iff.1 h) e he
  simpa [hlen] using hmiss

/-- R51's relation of two code words, from their bits. -/
theorem isPrefixOf_of_bitsOf {a b : CodeWord} (ha : a.value.toNat < 2 ^ a.len.toNat) (h : bitsOf a <+: bitsOf b) :
    isPrefixOf a b := by
  have hlen := h.length_le
  rw [length_bitsOf, length_bitsOf] at hlen
  refine ⟨hlen, Nat.eq_of_testBit_eq fun j => ?_⟩
  rw [Nat.testBit_mod_two_pow]
  by_cases hj : j < a.len.toNat
  · rw [decide_eq_true hj, Bool.true_and]
    have hget := List.prefix_iff_getElem.1 h |>.2 j (by rwa [length_bitsOf])
    simpa [bitsOf, BitVec.getLsbD] using hget.symm
  · rw [decide_eq_false hj, Bool.false_and]
    exact (getLsbD_of_lt_two_pow ha (by omega)).symm

/-- A stored table in its form, within legal capacities: what DECODE reads (R46, R51, R150). -/
structure Readable (s : State) : Prop where
  /-- R8, R9. -/
  params : s.params.legal = true
  /-- R46, R51. -/
  table : TableOk s
  /-- R30. -/
  valid : s.tableValid = true
  /-- The canonical form: the listed symbols are bytes, each listed once. -/
  listed : Store.rising s.code = true ∧ Store.within Config.kMax s.code = true

theorem Readable.of_wf {s : State} (hparams : s.params.legal = true) (hwf : Memory.wf s = true) (htable : TableOk s)
    (hvalid : s.tableValid = true) : Readable s := by
  obtain ⟨-, -, -, hlisted, -⟩ := (Memory.wf_iff s).1 hwf
  exact ⟨hparams, htable, hvalid, hlisted⟩

theorem codeBits_of_some {s : State} {x : Byte} {w : CodeWord} (h : s.codeAt x.toNat = some w) :
    codeBits s x = bitsOf w := by rw [codeBits, h]

/-- The symbol of a listed code word. -/
theorem Readable.codeAt_of_mem {s : State} (h : Readable s) {x : Nat} {w : CodeWord} (hx : (x, w) ∈ s.code) :
    s.codeAt (BitVec.ofNat 8 x).toNat = some w := by
  obtain ⟨hrising, hwithin⟩ := h.listed
  have hbyte : x < 256 := (Store.within_iff _ _).1 hwithin _ hx
  rw [BitVec.toNat_ofNat, Nat.mod_eq_of_lt hbyte]
  exact (Store.find_eq_some_iff hrising _ _).2 hx

/-- Every code word has a bit (R46). -/
theorem TableOk.codeBits_ne_nil {s : State} (h : TableOk s) {x : Byte} (hx : (s.codeAt x.toNat).isSome = true) :
    codeBits s x ≠ [] := by
  obtain ⟨w, hw⟩ := Option.isSome_iff_exists.1 hx
  obtain ⟨hpos, -⟩ := h.lengths _ (Store.mem_of_find hw)
  intro hnil
  rw [codeBits_of_some hw, ← List.length_eq_zero_iff, length_bitsOf] at hnil
  exact absurd hnil (Nat.one_le_iff_ne_zero.1 hpos)

/-- No symbol's bits begin another's (R51). -/
theorem TableOk.eq_of_prefix {s : State} (h : TableOk s) {x y : Byte} (hx : (s.codeAt x.toNat).isSome = true)
    (hy : (s.codeAt y.toNat).isSome = true) (hpre : codeBits s x <+: codeBits s y) : x = y := by
  obtain ⟨w, hw⟩ := Option.isSome_iff_exists.1 hx
  obtain ⟨u, hu⟩ := Option.isSome_iff_exists.1 hy
  rw [codeBits_of_some hw, codeBits_of_some hu] at hpre
  have hmem := Store.mem_of_find hw
  obtain ⟨-, -, hbound⟩ := h.lengths _ hmem
  exact BitVec.eq_of_toNat_eq (h.prefixFree _ hmem _ (Store.mem_of_find hu) (isPrefixOf_of_bitsOf hbound hpre))

/-! What the scan has read. -/

theorem DecodeFrame.same {s t : State} (h : DecodeFrame s t) :
    t.params = s.params ∧ t.code = s.code ∧ t.totalBits = s.totalBits ∧ t.pbufBit = s.pbufBit :=
  h.elim (P := fun t => t.params = s.params ∧ t.code = s.code ∧ t.totalBits = s.totalBits ∧ t.pbufBit = s.pbufBit)
    fun _ _ _ _ _ => ⟨rfl, rfl, rfl, rfl⟩

theorem outAt_emitSymbol (x : Nat) (u : State) (i : Nat) :
    (emitSymbol x u).outAt i = if i = u.outLen.toNat then BitVec.ofNat 8 x else u.outAt i := by
  rw [State.outAt, emitSymbol_outMem, Store.find_put]
  split <;> rfl

theorem toNat_outLen_emitSymbol (x : Nat) {u : State} (h : u.outLen.toNat + 1 < 2 ^ 32) :
    (emitSymbol x u).outLen.toNat = u.outLen.toNat + 1 := by
  rw [emitSymbol_outLen, BitVec.toNat_add]
  exact Nat.mod_eq_of_lt h

theorem outputSymbols_emitSymbol (x : Nat) {u : State} (h : u.outLen.toNat + 1 < 2 ^ 32) :
    (emitSymbol x u).outputSymbols = u.outputSymbols ++ [BitVec.ofNat 8 x] := by
  rw [State.outputSymbols, toNat_outLen_emitSymbol x h, List.range_succ, List.map_append]
  refine congrArg₂ _ (List.map_congr_left fun i hi => ?_) (congrArg (· :: []) ?_)
  · rw [outAt_emitSymbol, if_neg (List.mem_range.1 hi).ne]
  · rw [outAt_emitSymbol, if_pos rfl]

/-- `u` is a state of DECODE of `s` that has read the first `p` bits of the stream: they are the code words of the symbols
written and then the candidate (R150, R151). -/
structure Scanned (s u : State) (p : Nat) : Prop where
  /-- Only the output, the candidate and the error have changed. -/
  frame : DecodeFrame s u
  /-- R150: where the bits read have gone. -/
  spelled : u.outputSymbols.flatMap (codeBits s) ++ u.cand.bits = (List.range p).map s.pbufBit
  /-- R152: only symbols of the table are written. -/
  known : ∀ x ∈ u.outputSymbols, (s.codeAt x.toNat).isSome = true
  /-- R34. -/
  room : u.outLen.toNat ≤ s.params.nMax
  /-- R150: OUT_MEM is written below OUT_LEN only. -/
  kept : ∀ i, u.outLen.toNat ≤ i → u.outAt i = s.outAt i
  /-- R56. -/
  limit : u.cand.len ≤ 64
  /-- R151: nothing stands above the candidate's bits. -/
  bound : u.cand.value.toNat < 2 ^ u.cand.len

/-- No code word begins the candidate: each would have been taken (R150, R152). -/
def NoWordIn (s : State) (c : Candidate) : Prop := ∀ e ∈ s.code, ¬ bitsOf e.2 <+: c.bits

/-- The scan goes on from `u` at stream bit `p`: nothing has been raised, and no code word begins the candidate (R150). -/
structure Searching (s u : State) (p : Nat) : Prop extends Scanned s u p where
  /-- R152. -/
  noWord : NoWordIn s u.cand
  /-- R176. -/
  errCode : u.errCode = s.errCode
  /-- R176. -/
  errInfo : u.errInfo = s.errInfo

/-- DECODE's turn for bit `p` ended in `t`: a candidate of 64 bits that is no code word, or a code word with no room for its
symbol (R153, R154). -/
inductive Stopped (s t : State) (p : Nat) : Prop
  /-- R154. -/
  | limit (scan : Scanned s t p) (noWord : NoWordIn s t.cand) (full : t.cand.len = 64)
      (errCode : t.errCode = .corruptBuffer) (errInfo : t.errInfo = BitVec.ofNat 32 p)
  /-- R150, R172. -/
  | overflow (scan : Scanned s t (p + 1)) (nonempty : 0 < t.cand.len)
      (word : ∃ x w, s.codeAt x = some w ∧ w.len.toNat = t.cand.len ∧ w.value = t.cand.value)
      (full : t.outLen.toNat = s.params.nMax) (errCode : t.errCode = .outOverflow) (errInfo : t.errInfo = BitVec.ofNat 32 p)

/-- How far DECODE's scan has come before stream bit `p`, or that an earlier turn ended it. -/
def ScanTo (s : State) (p : Nat) : Progress → Prop
  | .running u => Searching s u p
  | .ended t => ∃ q < p, Stopped s t q

theorem Scanned.raise {s u : State} {p : Nat} (hu : Scanned s u p) (e : ErrCode) (info : Word) :
    Scanned s (raise e info u).state p :=
  ⟨hu.frame.trans rfl, hu.spelled, hu.known, hu.room, hu.kept, hu.limit, hu.bound⟩

/-- Stream bit `p` joins the candidate (R151). -/
theorem Scanned.grow {s u : State} {p : Nat} (hu : Scanned s u p) (hlen : u.cand.len ≠ 64) (code : ErrCode) (info : Word) :
    Scanned s { u with cand := growCandidate u.cand (u.pbufBit p), errCode := code, errInfo := info } (p + 1) := by
  have hlt := Nat.lt_of_le_of_ne hu.limit hlen
  obtain ⟨-, -, -, hbit⟩ := hu.frame.same
  refine ⟨hu.frame.trans rfl, ?_, hu.known, hu.room, hu.kept, hlt, growCandidate_lt hu.bound _⟩
  rw [bits_growCandidate hlt hu.bound, ← List.append_assoc, hbit, List.range_succ, List.map_append, ← hu.spelled]
  rfl

section
variable {s : State} (h : Readable s)
include h

/-- The candidate is a code word: its symbol is written, and the next candidate starts (R150, R152). -/
theorem Readable.scanned_emitSymbol {u : State} {p x : Nat} {w : CodeWord} (hu : Scanned s u p) (hlen : u.cand.len ≠ 64)
    (hx : (x, w) ∈ s.code) (hw : (growCandidate u.cand (u.pbufBit p)).bits = bitsOf w)
    (hroom : u.outLen.toNat ≠ s.params.nMax) :
    Scanned s (emitSymbol x u) (p + 1) := by
  obtain ⟨-, hmax, -⟩ := (Params.legal_iff _).1 h.params
  have hlt := Nat.lt_of_le_of_ne hu.room hroom
  have hword := h.codeAt_of_mem hx
  have hout := outputSymbols_emitSymbol x (u := u) (by omega)
  have hcount := toNat_outLen_emitSymbol x (u := u) (by omega)
  refine ⟨hu.frame.trans rfl, ?_, fun y hy => ?_, by rw [hcount]; exact hlt, fun i hi => ?_, Nat.zero_le _, Nat.one_pos⟩
  · calc (emitSymbol x u).outputSymbols.flatMap (codeBits s) ++ []
        = u.outputSymbols.flatMap (codeBits s) ++ (growCandidate u.cand (u.pbufBit p)).bits := by
          rw [hout, List.flatMap_append, List.flatMap_singleton, codeBits_of_some hword, hw, List.append_nil]
      _ = (List.range (p + 1)).map s.pbufBit := (hu.grow hlen u.errCode u.errInfo).spelled
  · rw [hout, List.mem_append, List.mem_singleton] at hy
    obtain hy | rfl := hy
    · exact hu.known y hy
    · rw [hword]; rfl
  · rw [hcount] at hi
    rw [outAt_emitSymbol, if_neg (by omega)]
    exact hu.kept i (by omega)

/-- No code word begins the empty candidate (R46). -/
theorem Readable.noWordIn_emptyCandidate : NoWordIn s emptyCandidate := by
  intro e he hpre
  obtain ⟨hpos, -⟩ := h.table.lengths e he
  have hnil : (bitsOf e.2).length ≤ 0 := hpre.length_le
  rw [length_bitsOf] at hnil
  omega

/-- A candidate that LOOKUP does not know is begun by no code word if it was not before its last bit (R152). -/
theorem Readable.noWordIn_growCandidate {c : Candidate} {b : Bool} (hlen : c.len < 64) (hbound : c.value.toNat < 2 ^ c.len)
    (hnone : NoWordIn s c) (hmiss : lookup s.code (growCandidate c b).value (c.len + 1) = none) :
    NoWordIn s (growCandidate c b) := by
  intro e he hpre
  rw [bits_growCandidate hlen hbound, List.prefix_concat_iff, ← bits_growCandidate hlen hbound] at hpre
  obtain hpre | hpre := hpre
  · obtain ⟨-, -, hword⟩ := h.table.lengths e he
    obtain ⟨hl, hv⟩ := eq_of_bitsOf_eq_bits hword (growCandidate_lt hbound b) hpre
    exact lookup_eq_none hmiss he hl hv
  · exact hnone e he hpre

theorem Readable.searching_startDecode : Searching s (startDecode s) 0 where
  frame := rfl
  spelled := rfl
  known := fun _ hx => absurd hx List.not_mem_nil
  room := Nat.zero_le _
  kept := fun _ _ => rfl
  limit := Nat.zero_le _
  bound := Nat.one_pos
  noWord := h.noWordIn_emptyCandidate
  errCode := rfl
  errInfo := rfl

/-- DECODE's turn, by its four ends (R150 to R154). -/
theorem Readable.scanTo_decodeBit {u : State} {p : Nat} (hu : Searching s u p) : ScanTo s (p + 1) (decodeBit p u) := by
  obtain ⟨hparams, hcode, -, -⟩ := hu.frame.same
  obtain ⟨hfull, e⟩ | ⟨hlen, hturn⟩ := decodeBit_cases p u
  · rw [e]
    exact ⟨p, p.lt_succ_self, .limit (hu.raise _ _) hu.noWord hfull rfl rfl⟩
  have hlt := Nat.lt_of_le_of_ne hu.limit hlen
  obtain ⟨hmiss, e⟩ | ⟨x, hfound, hturn⟩ := hturn
  · rw [e]
    exact ⟨hu.grow hlen _ _, h.noWordIn_growCandidate hlt hu.bound hu.noWord (hcode ▸ hmiss), hu.errCode, hu.errInfo⟩
  obtain ⟨w, hx, hl, hv⟩ := lookup_eq_some hfound
  rw [hcode] at hx
  obtain ⟨hfull, e⟩ | ⟨hroom, e⟩ := hturn <;> rw [e]
  · exact ⟨p, p.lt_succ_self, .overflow (hu.grow hlen _ _) (Nat.succ_pos _)
      ⟨x, w, (Store.find_eq_some_iff h.listed.1 _ _).2 hx, hl, hv⟩ (hparams ▸ hfull) rfl rfl⟩
  · exact ⟨h.scanned_emitSymbol hu.toScanned hlen hx (bits_eq_bitsOf hl hv) (hparams ▸ hroom), h.noWordIn_emptyCandidate,
      hu.errCode, hu.errInfo⟩

theorem Readable.scanTo_decodeLoop (k : Nat) {p : Nat} {pr : Progress} (hscan : ScanTo s p pr) :
    ScanTo s (p + k) (pr.andThen (decodeLoop p k)) := by
  induction k generalizing p pr with
  | zero => cases pr <;> exact hscan
  | succ k ih =>
    rw [show p + (k + 1) = p + 1 + k by omega]
    cases pr with
    | running u => exact ih (h.scanTo_decodeBit hscan)
    | ended t =>
      obtain ⟨q, hq, hstop⟩ := hscan
      exact ⟨q, by omega, hstop⟩

end

/-- The four ends of DECODE (R150, R153, R154). -/
inductive DecodeEnds (s t : State) : Prop
  /-- The whole stream is taken. -/
  | complete (scan : Scanned s t s.totalBits.toNat) (noWord : NoWordIn s t.cand) (empty : t.cand.len = 0)
      (errCode : t.errCode = s.errCode) (errInfo : t.errInfo = s.errInfo)
  /-- R153: a candidate is left over. -/
  | leftover (scan : Scanned s t s.totalBits.toNat) (noWord : NoWordIn s t.cand) (nonempty : t.cand.len ≠ 0)
      (errCode : t.errCode = .corruptBuffer) (errInfo : t.errInfo = s.totalBits)
  /-- A turn ended it. -/
  | stopped (p : Nat) (lt : p < s.totalBits.toNat) (stop : Stopped s t p)

/-- However DECODE with a stored table ends. -/
theorem Readable.decodeEnds {s : State} (h : Readable s) : DecodeEnds s (runDecode s).state := by
  have hscan := h.scanTo_decodeLoop s.totalBits.toNat (pr := .running (startDecode s)) h.searching_startDecode
  rw [running_andThen, Nat.zero_add] at hscan
  rw [runDecode, if_pos h.valid]
  cases hrun : decodeLoop 0 s.totalBits.toNat (startDecode s) with
  | ended t =>
    rw [hrun] at hscan
    obtain ⟨q, hq, hstop⟩ := hscan
    exact .stopped q hq hstop
  | running u =>
    rw [hrun] at hscan
    have hu : Searching s u s.totalBits.toNat := hscan
    obtain ⟨-, -, hbits, -⟩ := hu.frame.same
    rw [running_andThen, decodeEnd]
    split
    · exact .complete hu.toScanned hu.noWord ‹_› hu.errCode hu.errInfo
    · exact .leftover (hu.raise _ _) hu.noWord ‹_› rfl hbits

end Sys2Proof.Machine
end

section
/-! What the ends of DECODE say of its stream, and the streams it takes whole (R150 to R155). -/

namespace Sys2Proof.Machine

theorem length_outputSymbols (s : State) : s.outputSymbols.length = s.outLen.toNat := by simp [State.outputSymbols]

/-! The bits read. -/

theorem Scanned.length_add {s t : State} {p : Nat} (h : Scanned s t p) :
    (t.outputSymbols.flatMap (codeBits s)).length + t.cand.len = p := by
  rw [← Candidate.length_bits, ← List.length_append, h.spelled, List.length_map, List.length_range]

theorem Scanned.prefix_stream {s t : State} {p : Nat} (h : Scanned s t p) (hp : p ≤ s.totalBits.toNat) :
    t.outputSymbols.flatMap (codeBits s) ++ t.cand.bits <+: s.stream := by
  rw [h.spelled, State.stream, ← Nat.add_sub_cancel' hp, List.range_add, List.map_append]
  exact List.prefix_append _ _

/-- The candidate holds the stream bits past those of the symbols written (R151). -/
theorem Scanned.cand_getLsbD {s t : State} {p : Nat} (h : Scanned s t p) {j : Nat} (hj : j < t.cand.len) :
    t.cand.value.getLsbD j = s.pbufBit ((t.outputSymbols.flatMap (codeBits s)).length + j) := by
  have hlt := h.length_add
  have hread := congrArg (·[(t.outputSymbols.flatMap (codeBits s)).length + j]?) h.spelled
  generalize t.outputSymbols.flatMap (codeBits s) = read at *
  have hp : read.length + j < p := by omega
  simpa [List.getElem?_append_right, Candidate.bits, List.getElem?_range, hj, hp] using hread

/-- A candidate that no code word begins is none (R152). -/
theorem NoWordIn.not_matched {s : State} {c : Candidate} (h : NoWordIn s c) :
    ¬ ∃ x w, s.codeAt x = some w ∧ w.len.toNat = c.len ∧ w.value = c.value := by
  rintro ⟨x, w, hx, hl, hv⟩
  exact h _ (Store.mem_of_find hx) (bits_eq_bitsOf hl hv ▸ List.prefix_rfl)

theorem NoWordIn.not_prefix {s : State} {c : Candidate} (h : NoWordIn s c) {x : Byte}
    (hx : (s.codeAt x.toNat).isSome = true) : ¬ codeBits s x <+: c.bits := by
  obtain ⟨w, hw⟩ := Option.isSome_iff_exists.1 hx
  rw [codeBits_of_some hw]
  exact h _ (Store.mem_of_find hw)

/-- DECODE has taken the whole stream, or it has raised and a candidate is left (R150, R153, R154). -/
theorem DecodeEnds.complete_or_failed {s t : State} (h : DecodeEnds s t) :
    ∃ p ≤ s.totalBits.toNat, Scanned s t p ∧
      ((p = s.totalBits.toNat ∧ t.cand.len = 0 ∧ t.errCode = s.errCode) ∨ (t.cand.len ≠ 0 ∧ t.errCode ≠ .ok)) := by
  cases h with
  | complete scan _ empty errCode => exact ⟨_, le_rfl, scan, .inl ⟨rfl, empty, errCode⟩⟩
  | leftover scan _ nonempty errCode => exact ⟨_, le_rfl, scan, .inr ⟨nonempty, errCode ▸ by decide⟩⟩
  | stopped p lt stop =>
    cases stop with
    | limit scan _ full errCode => exact ⟨p, lt.le, scan, .inr ⟨by omega, errCode ▸ by decide⟩⟩
    | overflow scan nonempty _ _ errCode => exact ⟨p + 1, lt, scan, .inr ⟨by omega, errCode ▸ by decide⟩⟩

/-! Streams of code words. -/

/-- A code in which no word begins another is read in one way: a sequence of symbols begins another if its bits do (R51). -/
theorem prefix_of_flatMap_prefix {α : Type} {bits : α → List Bool} {xs zs : List α} (hne : ∀ z ∈ zs, bits z ≠ [])
    (hfree : ∀ z ∈ zs, ∀ x ∈ xs, bits z <+: bits x ∨ bits x <+: bits z → z = x)
    (h : zs.flatMap bits <+: xs.flatMap bits) : zs <+: xs := by
  induction zs generalizing xs with
  | nil => exact List.nil_prefix
  | cons z zs ih =>
    cases xs with
    | nil =>
      rw [List.flatMap_nil, List.prefix_nil, List.flatMap_cons, List.append_eq_nil_iff] at h
      exact absurd h.1 (hne z List.mem_cons_self)
    | cons x xs =>
      rw [List.flatMap_cons, List.flatMap_cons] at h
      obtain rfl := hfree z List.mem_cons_self x List.mem_cons_self
        (List.prefix_or_prefix_of_prefix ((List.prefix_append _ _).trans h) (List.prefix_append _ _))
      refine (List.prefix_cons_inj z).2 (ih (fun y hy => hne y (List.mem_cons_of_mem _ hy)) (fun y hy x hx =>
        hfree y (List.mem_cons_of_mem _ hy) x (List.mem_cons_of_mem _ hx)) ((List.prefix_append_right_inj _).1 h))

section
variable {s : State} (h : Readable s) {xs : List Byte} (hknown : ∀ x ∈ xs, (s.codeAt x.toNat).isSome = true)
  (hstream : s.stream = xs.flatMap (codeBits s))
include h hknown hstream

/-- What is written of a stream of code words, and where the candidate comes from (R150, R152). -/
theorem Readable.exists_rest {t : State} {p : Nat} (hscan : Scanned s t p) (hp : p ≤ s.totalBits.toNat) :
    ∃ ys, t.outputSymbols ++ ys = xs ∧ t.cand.bits <+: ys.flatMap (codeBits s) := by
  have hpre := hscan.prefix_stream hp
  rw [hstream] at hpre
  obtain ⟨ys, rfl⟩ := prefix_of_flatMap_prefix (fun z hz => h.table.codeBits_ne_nil (hscan.known z hz))
    (fun z hz x hx hzx => hzx.elim (h.table.eq_of_prefix (hscan.known z hz) (hknown x hx)) fun hxz =>
      (h.table.eq_of_prefix (hknown x hx) (hscan.known z hz) hxz).symm)
    ((List.prefix_append _ _).trans hpre)
  rw [List.flatMap_append, List.prefix_append_right_inj] at hpre
  exact ⟨ys, rfl, hpre⟩

/-- No code word begins the candidate, which reaches to the end of the stream or has 64 bits: nothing of a stream of code words
is left (R152). -/
theorem Readable.outputSymbols_eq {t : State} {p : Nat} (hscan : Scanned s t p) (hp : p ≤ s.totalBits.toNat)
    (hnone : NoWordIn s t.cand) (hreach : p = s.totalBits.toNat ∨ t.cand.len = 64) :
    t.outputSymbols = xs ∧ t.cand.len = 0 := by
  obtain ⟨ys, rfl, hpre⟩ := h.exists_rest hknown hstream hscan hp
  cases ys with
  | nil => exact ⟨(List.append_nil _).symm, by rw [← Candidate.length_bits, List.prefix_nil.1 hpre, List.length_nil]⟩
  | cons y ys =>
    have hy := hknown y (List.mem_append_right _ List.mem_cons_self)
    refine absurd (List.prefix_of_prefix_length_le (List.prefix_append _ _) hpre ?_) (hnone.not_prefix hy)
    rw [Candidate.length_bits]
    obtain rfl | hfull := hreach
    · have hread := hscan.length_add
      rw [← length_stream, hstream, List.flatMap_append, List.length_append, List.flatMap_cons, List.length_append] at hread
      omega
    · obtain ⟨w, hw, hlen⟩ := h.table.exists_word hy
      rw [codeBits_of_some hw, length_bitsOf]
      omega

/-- A stream of code words with room for its symbols is taken whole (R150, R152). -/
theorem Readable.complete_of_codeWords {t : State} (hends : DecodeEnds s t) (hroom : xs.length ≤ s.params.nMax) :
    t.outputSymbols = xs ∧ t.cand.len = 0 ∧ t.errCode = s.errCode ∧ t.errInfo = s.errInfo := by
  cases hends with
  | complete scan noWord empty errCode errInfo =>
    exact ⟨(h.outputSymbols_eq hknown hstream scan le_rfl noWord (.inl rfl)).1, empty, errCode, errInfo⟩
  | leftover scan noWord nonempty => exact absurd (h.outputSymbols_eq hknown hstream scan le_rfl noWord (.inl rfl)).2 nonempty
  | stopped p lt stop =>
    cases stop with
    | limit scan noWord full => exact absurd (h.outputSymbols_eq hknown hstream scan lt.le noWord (.inr full)).2 (by omega)
    | overflow scan nonempty _ full =>
      obtain ⟨ys, rfl, hpre⟩ := h.exists_rest hknown hstream scan lt
      rw [List.length_append, length_outputSymbols, full] at hroom
      obtain rfl := List.length_eq_zero_iff.1 (show ys.length = 0 by omega)
      have hlen := hpre.length_le
      rw [Candidate.length_bits, List.flatMap_nil, List.length_nil] at hlen
      omega

/-- DECODE of a stream of code words (R150, R152). -/
theorem Readable.exec_decode_of_codeWords (hroom : xs.length ≤ s.params.nMax) :
    ∃ t, exec .decode s = .next t ∧
      t = { s with outMem := t.outMem, outLen := BitVec.ofNat 32 xs.length, cand := { value := 0, len := 0 } } ∧
      t.outputSymbols = xs ∧ ∀ i, xs.length ≤ i → t.outAt i = s.outAt i := by
  refine ⟨(runDecode s).state, exec_eq .decode s, ?_⟩
  have hends := h.decodeEnds
  obtain ⟨hout, hempty, hcode, hinfo⟩ := h.complete_of_codeWords hknown hstream hends hroom
  obtain ⟨p, -, hscan, -⟩ := hends.complete_or_failed
  have hframe : (runDecode s).state = _ := hscan.frame
  generalize (runDecode s).state = t at *
  have hlen : t.outLen.toNat = xs.length := by rw [← hout, length_outputSymbols]
  have hcand : t.cand = { value := 0, len := 0 } := by
    have hbound := hscan.bound
    rw [hempty, pow_zero, Nat.lt_one_iff] at hbound
    have hvalue : t.cand.value = 0 := BitVec.eq_of_toNat_eq hbound
    rw [← hvalue, ← hempty]
  refine ⟨?_, hout, fun i hi => hscan.kept i (hlen.trans_le hi)⟩
  rw [hcand, hcode, hinfo] at hframe
  rw [← hlen, BitVec.ofNat_toNat, BitVec.setWidth_eq]
  exact hframe

end

/-! The table ENCODE leaves. -/

/-- A table that GENCODE has run to is one DECODE can read (R51, R130, R132). -/
theorem readable_of_runGencode {s c : State} (hparams : s.params.legal = true) (h : runGencode s = .running c) :
    Readable c := by
  obtain ⟨-, e⟩ | ⟨-, ⟨-, e⟩ | ⟨hroot, ⟨n, stack, -, e⟩ | ⟨table, hwalk, e⟩⟩⟩ := runGencode_cases s <;> rw [e] at h
  · exact Progress.noConfusion h
  · obtain rfl := Progress.running.inj h
    exact ⟨hparams, tableOk_singleCode rfl rfl, rfl, singleCode_wf _⟩
  · exact Progress.noConfusion h
  · obtain rfl := Progress.running.inj h
    exact ⟨hparams, tableOk_of_leafPaths rfl hroot
      (walk_leafPath le_rfl (leads_root s.nodeAt s.root.toNat) (fun _ he => absurd he List.not_mem_nil) hwalk), rfl,
      walk_wf _ _ _ _ _ [] table rfl rfl hwalk⟩

theorem Readable.congr {s t : State} (h : Readable s) (hparams : t.params = s.params) (hcode : t.code = s.code)
    (hvalid : t.tableValid = s.tableValid) : Readable t :=
  ⟨hparams ▸ h.params, tableOk_congr h.table hcode hvalid, hvalid.trans h.valid, hcode ▸ h.listed⟩

/-- The table ENCODE leaves of a text of at least one symbol is one DECODE can read (R145). -/
theorem readable_runEncode {s : State} (hb : Bounds s) (hin : s.inLen ≠ 0) : Readable (runEncode s).state := by
  obtain ⟨-, hmax, -⟩ := (Params.legal_iff _).1 hb.params
  have hlen := hb.inLen
  obtain ⟨c, hrun, -⟩ := tableMade (a := (runCount s).state) rfl (one_le_numSyms_runCount hin)
    (by rw [totalCount_runCount]; omega)
  obtain ⟨b, hbuild, hgencode⟩ := andThen_eq_running hrun
  have hparams : b.params = s.params := by
    have hframe := runBuild_frame (runCount s).state
    rw [hbuild] at hframe
    exact hframe.elim (P := fun t => t.params = s.params) fun _ _ _ _ _ _ _ _ => rfl
  have hstages : runEncode s = runPack c := (if_neg hin).trans (congrArg (·.andThen runPack) hrun)
  rw [hstages]
  have hc := readable_of_runGencode (hparams ▸ hb.params) hgencode
  exact (runPack_frame c).elim fun _ _ _ _ => hc.congr rfl rfl rfl

end Sys2Proof.Machine

open Sys2Proof Sys2Proof.Machine

/-- Settles O52: what DECODE has read begins the stream, and a candidate is left exactly when it has raised. -/
theorem decodeSpellsTheStream : Obligations.DecodeSpellsTheStream := by
  intro s hparams hwf htable hvalid hok
  refine ⟨(runDecode s).state, exec_eq .decode s, ?_⟩
  obtain ⟨p, hp, hscan, hend⟩ := (Readable.of_wf hparams hwf htable hvalid).decodeEnds.complete_or_failed
  generalize (runDecode s).state = t at *
  have hpre := hscan.prefix_stream hp
  have hread := hscan.length_add
  refine ⟨(List.prefix_append _ _).trans hpre, fun he => ?_, fun he => ?_⟩
  · obtain ⟨rfl, hempty, -⟩ | ⟨-, hne⟩ := hend
    · rw [Candidate.bits_eq_nil hempty, List.append_nil] at hpre
      exact hpre.eq_of_length (by rw [length_stream]; omega)
    · exact absurd he hne
  · obtain ⟨-, -, hcode⟩ | ⟨hleft, -⟩ := hend
    · exact hcode.trans hok
    · rw [he, length_stream] at hread
      omega

/-- Settles O53: no code word begins another, so that no other end of DECODE fits a stream of code words. -/
theorem decodeReadsCodeWords : Obligations.DecodeReadsCodeWords := by
  intro s xs hparams hwf htable hvalid hknown hroom hstream
  exact (Readable.of_wf hparams hwf htable hvalid).exec_decode_of_codeWords hknown hstream hroom

/-- Settles O54: the four ends of DECODE, with what it has read at each. -/
theorem decodeFrameAndErrors : Obligations.DecodeFrameAndErrors := by
  intro s t hparams hwf htable hvalid hok hexec
  obtain rfl := eq_of_exec hexec
  have hends : DecodeEnds s (pseudocode .decode s).state := (Readable.of_wf hparams hwf htable hvalid).decodeEnds
  obtain ⟨p, -, hscan, -⟩ := hends.complete_or_failed
  refine ⟨hscan.frame, hscan.kept, fun j hj => hscan.cand_getLsbD hj, ?_⟩
  have hword : ∀ {q}, q < s.totalBits.toNat → (BitVec.ofNat 32 q).toNat = q := fun hq => by
    rw [BitVec.toNat_ofNat, Nat.mod_eq_of_lt (hq.trans s.totalBits.isLt)]
  cases hends with
  | complete scan _ empty errCode errInfo =>
    have hread := scan.length_add
    exact .inl ⟨errCode.trans hok, errInfo, by omega, empty⟩
  | leftover scan noWord nonempty errCode errInfo =>
    exact .inr (.inl ⟨errCode, errInfo, scan.length_add, nonempty, noWord.not_matched⟩)
  | stopped p lt stop =>
    cases stop with
    | limit scan noWord full errCode errInfo =>
      have hread := scan.length_add
      exact .inr (.inr (.inl ⟨errCode, by rw [errInfo, hword lt]; omega, by omega, full, noWord.not_matched⟩))
    | overflow scan nonempty word full errCode errInfo =>
      have hread := scan.length_add
      exact .inr (.inr (.inr ⟨errCode, by rw [errInfo, hword lt]; omega, by omega, full, word⟩))

/-- Settles O55: ENCODE leaves a stream of the code words of its input, in a table that DECODE can read. -/
theorem roundTrip : Obligations.RoundTrip := by
  intro s a b hb hok hin hencode _ hparams hcode hvalid hpbuf hbits hresets hokb
  obtain ⟨t, ht, -, hframe, hsome, hstream, -⟩ := encodeSucceeds s hb hok hin
  obtain rfl : a = t := Host.Outcome.next.inj (hencode.symm.trans ht)
  have hread : Readable b := by
    rw [eq_of_exec hencode] at hparams hcode hvalid
    exact (readable_runEncode hb hin).congr hparams hcode hvalid
  have hcodeAt : b.codeAt = a.codeAt := by funext x; rw [State.codeAt, State.codeAt, hcode]
  have hcodeBits : codeBits b = codeBits a := by funext x; rw [codeBits, codeBits, hcodeAt]
  have hstreamb : b.stream = s.inputSymbols.flatMap (codeBits b) := by
    rw [hcodeBits, ← hstream, State.stream, State.stream, hbits]
    refine List.map_congr_left fun p _ => ?_
    rw [State.pbufBit, State.pbufBit, State.pbufHalf, State.pbufHalf, hpbuf, hresets]
  have hcapacity : b.params = s.params := by rw [hparams, hframe]
  obtain ⟨u, hdecode, hu, hout, -⟩ := hread.exec_decode_of_codeWords (fun x hx => hcodeAt ▸ hsome x hx) hstreamb
    (by rw [length_inputSymbols, hcapacity]; exact hb.inLen)
  have hlen : u.outLen = s.inLen := by
    rw [hu, length_inputSymbols, BitVec.ofNat_toNat, BitVec.setWidth_eq]
  rw [State.outputSymbols, State.inputSymbols, hlen, List.map_inj_left] at hout
  exact ⟨u, hdecode, by rw [hu]; exact hokb, hlen, fun i hi => hout i (List.mem_range.2 hi)⟩
end

section
/-! CLEAR, and the commands whose objects it has discarded (R161). -/

open Sys2Proof Sys2Proof.Machine

/-- Settles O30: the map and the table are empty, and each of the four commands first tests a flag that is now 0. -/
theorem clearDiscardsDerivedObjects : Obligations.ClearDiscardsDerivedObjects := by
  obtain ⟨-, hclear, -⟩ := specCommandWordsDecode
  refine ⟨hclear, fun s => ⟨_, rfl, rfl, fun _ => ⟨rfl, rfl⟩, ?numSyms, ?wordCount, ?_, ?_, ?_, ?_⟩⟩
  case numSyms => exact congrArg List.length presentSymbols_nil
  case wordCount => exact wordCount_emptyBuffer s
  all_goals exact finish_of_unset _ _ _ rfl
end

section
/-! OVERRUN: which host writes BUSY = 1 drops, by address, and what can clear the bit (R62, R179, R194). -/

namespace Sys2Proof.Machine

/-! The dropped writes. -/

/-- The words of the SYM_MEM window below the capacity, whatever the capacity is (R62, R66). -/
theorem locate_symWindow {p : Params} {a : Addr} (hlo : 0x10000 ≤ a.toNat) (hhi : a.toNat < 0x20000)
    (hcap : (a.toNat - 0x10000) / 4 < p.nMax) : locate p a = .sym ((a.toNat - 0x10000) / 4) := by
  generalize hentry : (a.toNat - 0x10000) / 4 = i at hcap ⊢
  simp (disch := omega) only [locate, locateByte, if_pos, if_neg, hentry]

/-- The words of the PBUF window below the capacity, whatever the capacity is (R62, R66). -/
theorem locate_pbufWindow {p : Params} {a : Addr} (hlo : 0x40000 ≤ a.toNat) (hhi : a.toNat < 0x80000)
    (hcap : (a.toNat - 0x40000) / 8 < p.wMax) : locate p a = .pbuf ((a.toNat - 0x40000) / 4) := by
  generalize hentry : (a.toNat - 0x40000) / 8 = w at hcap
  simp (disch := omega) only [locate, locateByte, if_pos, if_neg, hentry]

theorem hostWrite_register_busy {s : State} (hb : s.busy = true) {a : Addr} {n : Nat} (h : a.toNat / 4 = n)
    (hn : n < 0x400) (hd : droppedWhileBusy (registerAt n) = true) (v : Word) : hostWrite a v s = dropWrite s :=
  hostWrite_drops hb (locate_register s.params h hn) hd v

/-! Who can clear OVERRUN. -/

theorem storeLoc_overrun (v : Word) (s : State) (l : Loc) : (storeLoc v s l).overrun = s.overrun := by
  cases l <;> rfl

/-- A host write that clears OVERRUN writes 1 to bit 6 of STATUS (R30, R179). -/
theorem status_of_hostWrite_clears {a : Addr} {v : Word} {s : State} (hset : s.overrun = true)
    (hclear : (hostWrite a v s).overrun = false) : a.toNat / 4 = 0x01C / 4 ∧ v.getLsbD 6 = true := by
  obtain ⟨-, e⟩ | ⟨hl, e⟩ | ⟨-, -, e⟩ | ⟨-, -, e⟩ | ⟨-, e⟩ := hostWrite_cases a v s <;> rw [e] at hclear
  · exact absurd (hset.symm.trans hclear) (by decide)
  · have hoffset := (locate_sound s.params (a := a) (by rw [hl]; exact Loc.noConfusion)).2
    rw [hl, Loc.offset] at hoffset
    rw [writeStatus_overrun, hset] at hclear
    exact ⟨by omega, by simpa using hclear⟩
  · exact Bool.noConfusion hclear
  · rw [storeLoc_overrun, hset] at hclear
    exact Bool.noConfusion hclear
  · exact absurd (hset.symm.trans hclear) (by decide)

/-- The ENGINE's turn keeps OVERRUN, whatever it performs (R179). -/
theorem engineStep_overrun {s t : State} (h : engineStep s = .next t) : t.overrun = s.overrun := by
  obtain ⟨-, rfl⟩ | ⟨c, e, -, -, rfl⟩ | ⟨c, i, u, -, -, hexec, rfl⟩ := engineStep_cases h
  · rfl
  · rfl
  · obtain ⟨-, -, -, hoverrun, -⟩ := commandsKeepTheHostsState i s u hexec
    exact hoverrun

end Sys2Proof.Machine

open Sys2Proof Sys2Proof.Machine

/-- Settles O19: the address of each dropped write names its location, and only two events can clear OVERRUN. -/
theorem busyWritesAreDropped : Obligations.BusyWritesAreDropped := by
  refine ⟨?dropped, ?cleared⟩
  case dropped =>
    rintro s a v hb (h | h | h | h | h | ⟨hlo, hhi, hcap⟩ | ⟨hlo, hhi, hcap⟩)
    iterate 5 exact hostWrite_register_busy hb h (by decide) rfl v
    · exact hostWrite_drops hb (locate_symWindow hlo hhi hcap) rfl v
    · exact hostWrite_drops hb (locate_pbufWindow hlo hhi hcap) rfl v
  case cleared =>
    intro s t hset hstep hclear
    obtain ⟨a, rest, -, rfl⟩ | ⟨a, v, rest, hi, rfl⟩ | ⟨rest, hi, -⟩ | ⟨u, hturn, hu⟩ := step_cases hstep
    · rw [hostRead_frame] at hclear
      exact absurd (hset.symm.trans hclear) (by decide)
    · exact .inl ⟨a, v, rest, hi, status_of_hostWrite_clears (s := { s with inputs := rest }) hset hclear⟩
    · exact .inr ⟨rest, hi⟩
    · have hkept : u.overrun = s.overrun := by obtain ⟨-, rfl⟩ | ⟨rest, -, rfl⟩ := hu <;> rfl
      rw [engineStep_overrun hturn, hkept, hset] at hclear
      exact Bool.noConfusion hclear
end

section
/-! What each command does to the three VALID flags (R173). -/

namespace Sys2Proof.Machine

theorem PackFrame.flags {s t : State} (h : PackFrame s t) :
    t.freqValid = s.freqValid ∧ t.treeValid = s.treeValid ∧ t.tableValid = s.tableValid := by
  unfold PackFrame at h; rw [h]; exact ⟨rfl, rfl, rfl⟩

theorem DecodeFrame.flags {s t : State} (h : DecodeFrame s t) :
    t.freqValid = s.freqValid ∧ t.treeValid = s.treeValid ∧ t.tableValid = s.tableValid := by
  unfold DecodeFrame at h; rw [h]; exact ⟨rfl, rfl, rfl⟩

theorem BuildFrame.flags {s t : State} (h : BuildFrame s t) : t.freqValid = s.freqValid ∧ t.tableValid = s.tableValid := by
  unfold BuildFrame at h; rw [h]; exact ⟨rfl, rfl⟩

theorem GencodeFrame.flags {s t : State} (h : GencodeFrame s t) : t.freqValid = s.freqValid ∧ t.treeValid = s.treeValid := by
  unfold GencodeFrame at h; rw [h]; exact ⟨rfl, rfl⟩

/-- BUILD's end tells TREE_VALID: a tree sets it, its precondition error keeps it, and INVALID_INPUT clears it (R115). -/
theorem runBuild_treeValid {s t : State} (hok : s.errCode = .ok) (h : t = (runBuild s).state) :
    (t.errCode = .ok → t.treeValid = true) ∧ (t.errCode = .noFreq → t.treeValid = s.treeValid) ∧
      (t.errCode = .invalidInput → t.treeValid = false) := by
  obtain ⟨-, e⟩ | ⟨-, ⟨-, e⟩ | ⟨-, e⟩ | ⟨-, e⟩⟩ := runBuild_cases s <;> rw [h, e]
  · simp
  · simp
  · simp [hok]
  · simp [hok]

/-- GENCODE's end tells TABLE_VALID: a table sets it, its precondition error keeps it, and CODE_TOO_LONG clears it (R130). -/
theorem runGencode_tableValid {s t : State} (hok : s.errCode = .ok) (h : t = (runGencode s).state) :
    (t.errCode = .ok → t.tableValid = true) ∧ (t.errCode = .noTree → t.tableValid = s.tableValid) ∧
      (t.errCode = .codeTooLong → t.tableValid = false) := by
  obtain ⟨-, e⟩ | ⟨-, ⟨-, e⟩ | ⟨-, ⟨n, stack, -, e⟩ | ⟨table, -, e⟩⟩⟩ := runGencode_cases s <;> rw [h, e]
  · simp
  · simp [hok]
  · simp
  · simp [hok]

/-! ENCODE: the error of a stage stays to the end, so an ENCODE without one has run all four. -/

theorem ErrorsIn.ok_of_ok {errors : List ErrCode} {s t : State} (h : ErrorsIn errors s t) (hne : .ok ∉ errors)
    (ht : t.errCode = .ok) : s.errCode = .ok := by
  obtain ⟨hcode, -⟩ | he := h
  · exact hcode.symm.trans ht
  · exact absurd (ht ▸ he) hne

/-- A sequence that leaves no error has none after its first part, when the second keeps an error (R17). -/
theorem ok_of_andThen_ok {p : Progress} {f : State → Progress}
    (hf : ∀ u, (f u).state.errCode = .ok → u.errCode = .ok) (h : (p.andThen f).state.errCode = .ok) :
    p.state.errCode = .ok := by
  cases p with
  | running u => exact hf u h
  | ended t => exact h

/-- BUILD and GENCODE have left no error in an ENCODE that leaves none (R145). -/
theorem stages_ok_of_runEncode_ok {s : State} (h : (runEncode s).state.errCode = .ok) :
    s.inLen ≠ 0 ∧ (runBuild (runCount s).state).state.errCode = .ok ∧
      (runGencode (runBuild (runCount s).state).state).state.errCode = .ok := by
  by_cases hin : s.inLen = 0
  · rw [runEncode, if_pos hin] at h
    exact ErrCode.noConfusion h
  · rw [runEncode, if_neg hin] at h
    have hgencode : ((runBuild (runCount s).state).andThen runGencode).state.errCode = .ok :=
      ok_of_andThen_ok (fun u => (runPack_errors u).ok_of_ok (ok_notMem_errorsOf _)) h
    have hbuild := ok_of_andThen_ok (fun u => (runGencode_errors u).ok_of_ok (ok_notMem_errorsOf _)) hgencode
    rw [runBuild_of_ok hbuild, running_andThen] at hgencode
    exact ⟨hin, hbuild, hgencode⟩

/-- ENCODE that leaves no error sets the three flags: COUNT, BUILD and GENCODE one each, and PACK keeps them (R145). -/
theorem runEncode_flags {s : State} (hok : s.errCode = .ok) (h : (runEncode s).state.errCode = .ok) :
    (runEncode s).state.freqValid = true ∧ (runEncode s).state.treeValid = true ∧
      (runEncode s).state.tableValid = true := by
  obtain ⟨hin, hbuild, hgencode⟩ := stages_ok_of_runEncode_ok h
  obtain ⟨hfreqb, -⟩ := (runBuild_frame (runCount s).state).flags
  obtain ⟨hfreqc, htreec⟩ := (runGencode_frame (runBuild (runCount s).state).state).flags
  obtain ⟨hfreq, htree, htable⟩ := (runPack_frame (runGencode (runBuild (runCount s).state).state).state).flags
  rw [runEncode_of_ok hin hbuild hgencode, hfreq, htree, htable, hfreqc, htreec, hfreqb]
  exact ⟨rfl, (runBuild_treeValid (s := (runCount s).state) hok rfl).1 hbuild,
    (runGencode_tableValid hbuild rfl).1 hgencode⟩

end Sys2Proof.Machine

open Sys2Proof Sys2Proof.Machine

/-- Settles O27: the errors are `exec_errors`; a flag changes only with the object it stands for, which the error tells. -/
theorem commandErrorsAndFlags : Obligations.CommandErrorsAndFlags := by
  intro i s t hok hexec
  refine ⟨(exec_errors hexec).imp_left fun ⟨hcode, hinfo⟩ => ⟨hcode.trans hok, hinfo⟩, ?_⟩
  obtain rfl := eq_of_exec hexec
  cases i with
  | nop => exact ⟨rfl, rfl, rfl⟩
  | clear => exact ⟨rfl, rfl, rfl⟩
  | count => exact ⟨rfl, rfl, rfl⟩
  | build =>
    obtain ⟨hfreq, htable⟩ := (runBuild_frame s).flags
    exact ⟨hfreq, htable, runBuild_treeValid hok rfl⟩
  | gencode =>
    obtain ⟨hfreq, htree⟩ := (runGencode_frame s).flags
    exact ⟨hfreq, htree, runGencode_tableValid hok rfl⟩
  | pack => exact (runPack_frame s).flags
  | encode => exact runEncode_flags hok
  | decode => exact (runDecode_frame s).flags
  | append len => exact (appendBits_frame _ _ _ s).flags
  | pbclr => exact ⟨rfl, rfl, rfl⟩
end
